-- ==== Sys2Proof/Word.lean ====
section
/-! DEFINITION. The word types of the bit-buffer engine: bytes of data memory, 32-bit command words and
64-bit registers (spec/10_state.md R21, R23, R25; spec/20_memory.md R50). -/

namespace Sys2Proof

/-- A byte of data memory (20_memory R50). -/
abbrev Byte := BitVec 8

/-- A command word (30_encoding R70). -/
abbrev Word32 := BitVec 32

/-- A register as the host sees it (10_state R37: every register is accessed as one 64-bit value). -/
abbrev Word64 := BitVec 64

end Sys2Proof
end

