-- ==== Sys2Proof/Config.lean ====
section
/-! DEFINITION. The parameters that are fixed for one instance of the hardware (spec/00_scope.md R6). They are plain
data, held in State and changed by no step, so that every statement speaks of every instance (log 5). -/

namespace Sys2Proof

/-- The two legal widths of ADDR_W and WORD_W, and (in bits) of a bit-index element (00_scope R6). -/
inductive Width where
  | w32
  | w64
  deriving DecidableEq, Repr

/-- The width in bits. -/
def Width.bits : Width → Nat
  | .w32 => 32
  | .w64 => 64

/-- The width in bytes. -/
def Width.bytes : Width → Nat
  | .w32 => 4
  | .w64 => 8

/-- HOST_ORDER (00_scope R6, 20_memory R57). -/
inductive ByteOrder where
  | le
  | be
  deriving DecidableEq, Repr

/-- The parameters of 00_scope R6. -/
structure Params where
  /-- ADDR_W, which is also the position width PW. -/
  addrW : Width
  /-- WORD_W, the native machine word width. -/
  wordW : Width
  /-- HOST_ORDER. -/
  hostOrder : ByteOrder
  /-- N_ITER - 1, as CFG.NIT reports it (10_state R26), so that N_ITER is 1 to 16 by construction. -/
  nIterLess1 : BitVec 4
  /-- IDX_ELEM_BYTES, 4 or 8 bytes, as a width. -/
  idxElem : Width
  /-- COPY_SRC_SLACK = 1. -/
  copySlack : Bool
  /-- CHECKED_MODE = present. -/
  checkedMode : Bool
  /-- ENGINE_BASE, where the register block is mapped in the address space of DMEM; `none`: it is not mapped there
  (OPEN in the spec; log 6). -/
  engineBase : Option Nat
  deriving DecidableEq, Repr

/-- N_ITER. -/
def Params.nIter (p : Params) : Nat := p.nIterLess1.toNat + 1

/-- The defaults of 00_scope R6; ENGINE_BASE has none in the spec and is left unmapped (DESIGN CHOICE, log 6). -/
def Params.default : Params where
  addrW := .w64
  wordW := .w64
  hostOrder := .le
  nIterLess1 := 3
  idxElem := .w32
  copySlack := false
  checkedMode := true
  engineBase := none

end Sys2Proof
end

