-- ==== Sys2Proof/Syntax.lean ====
section
/-! DEFINITION. The commands of the engine: one constructor per row of spec/opcode_table.json (spec/30_encoding.md
R76). The fields are those of the command word that a row leaves free: `c` (checked mode, R72), `v` (value or mode,
R73) and `it` (iterator context, R74). Operands come from the operand registers (R79), so no constructor holds one. -/

namespace Sys2Proof

/-- A command. -/
inductive Instr where
  | ld8 (c : Bool)
  | ld16 (c : Bool)
  | ld32 (c : Bool)
  | ld64 (c : Bool)
  | ldf32 (c : Bool)
  | ldf64 (c : Bool)
  | ldbool (c : Bool)
  | st8 (c : Bool)
  | st16 (c : Bool)
  | st32 (c : Bool)
  | st64 (c : Bool)
  | stf32 (c : Bool)
  | stf64 (c : Bool)
  | stbool (c : Bool)
  | btst (c : Bool)
  | bset (c : Bool)
  | bclr (c : Bool)
  | bmsize (c : Bool)
  | bfill (c v : Bool)
  | bcopy (c : Bool)
  | ctz32 (c : Bool)
  | ctz64 (c : Bool)
  | clz32 (c : Bool)
  | clz64 (c : Bool)
  | popc32 (c : Bool)
  | popc64 (c : Bool)
  | bcount (c : Bool)
  | bidx32 (c : Bool)
  | bidx64 (c : Bool)
  | itinit (c v : Bool) (it : BitVec 4)
  | itnext (c : Bool) (it : BitVec 4)
  deriving DecidableEq, Repr

end Sys2Proof
end

