-- ==== Sys2Proof/WellFormed.lean ====
section
/-! DEFINITION. Which commands exist on an instance of the hardware: the two conditions of legality that depend on the
parameters (spec/30_encoding.md R72, R74, R77). The other conditions of R77 are about bits of the word that no
`Instr` can hold; the decoder refuses them by name. -/

namespace Sys2Proof

/-- The `c` field (30_encoding R72). -/
def Instr.checked : Instr → Bool
  | .ld8 c | .ld16 c | .ld32 c | .ld64 c | .ldf32 c | .ldf64 c | .ldbool c => c
  | .st8 c | .st16 c | .st32 c | .st64 c | .stf32 c | .stf64 c | .stbool c => c
  | .btst c | .bset c | .bclr c | .bmsize c => c
  | .bfill c _ | .bcopy c => c
  | .ctz32 c | .ctz64 c | .clz32 c | .clz64 c => c
  | .popc32 c | .popc64 c | .bcount c => c
  | .bidx32 c | .bidx64 c => c
  | .itinit c _ _ | .itnext c _ => c

/-- The `v` field (30_encoding R73); 0 where the command has none. -/
def Instr.valueBit : Instr → Bool
  | .bfill _ v | .itinit _ v _ => v
  | .ld8 _ | .ld16 _ | .ld32 _ | .ld64 _ | .ldf32 _ | .ldf64 _ | .ldbool _ => false
  | .st8 _ | .st16 _ | .st32 _ | .st64 _ | .stf32 _ | .stf64 _ | .stbool _ => false
  | .btst _ | .bset _ | .bclr _ | .bmsize _ | .bcopy _ => false
  | .ctz32 _ | .ctz64 _ | .clz32 _ | .clz64 _ => false
  | .popc32 _ | .popc64 _ | .bcount _ | .bidx32 _ | .bidx64 _ | .itnext _ _ => false

/-- The `it` field (30_encoding R74); 0 where the command has none. -/
def Instr.context : Instr → BitVec 4
  | .itinit _ _ it | .itnext _ it => it
  | .ld8 _ | .ld16 _ | .ld32 _ | .ld64 _ | .ldf32 _ | .ldf64 _ | .ldbool _ => 0
  | .st8 _ | .st16 _ | .st32 _ | .st64 _ | .stf32 _ | .stf64 _ | .stbool _ => 0
  | .btst _ | .bset _ | .bclr _ | .bmsize _ | .bfill _ _ | .bcopy _ => 0
  | .ctz32 _ | .ctz64 _ | .clz32 _ | .clz64 _ => 0
  | .popc32 _ | .popc64 _ | .bcount _ | .bidx32 _ | .bidx64 _ => 0

/-- A checked command needs CHECKED_MODE present (30_encoding R72). -/
def Instr.checkedOk (p : Params) (i : Instr) : Bool := p.checkedMode || !i.checked

/-- The context must exist (30_encoding R74); a command without an `it` field has context 0, which always exists. -/
def Instr.contextOk (p : Params) (i : Instr) : Bool := i.context.toNat < p.nIter

/-- Legal on the instance with parameters `p` (30_encoding R77). -/
def Instr.wf (p : Params) (i : Instr) : Bool := i.checkedOk p && i.contextOk p

end Sys2Proof
end

