-- ==== Sys2Proof/Decode.lean ====
section
/-! DEFINITION. The decoder of command words, total on every 32-bit word and refusing by name, the encoder, and the
host's view of the decoder (spec/30_encoding.md R70 to R77, R80). There is one format and one length. -/

namespace Sys2Proof

/-- Why a word is no command on any instance (30_encoding R77). -/
inductive Reject where
  /-- `opc` is not in 30_encoding R76. -/
  | opcode
  /-- A reserved bit (11:10 or 31:16) is 1. -/
  | reserved
  /-- `v = 1` on a command without a `v` field. -/
  | valueBit
  /-- `it` is not 0 on a command without an `it` field. -/
  | iterField
  deriving DecidableEq, Repr

/-- The `opc` field, bits 7:0 (30_encoding R70). -/
def fieldOpc (w : Word32) : BitVec 8 := w.extractLsb' 0 8

/-- The `c` field, bit 8. -/
def fieldC (w : Word32) : Bool := w.getLsbD 8

/-- The `v` field, bit 9. -/
def fieldV (w : Word32) : Bool := w.getLsbD 9

/-- The `it` field, bits 15:12. -/
def fieldIt (w : Word32) : BitVec 4 := w.extractLsb' 12 4

/-- Bits 11:10 and 31:16 are 0 (30_encoding R75). -/
def reservedZero (w : Word32) : Bool := w.extractLsb' 10 2 == 0#2 && w.extractLsb' 16 16 == 0#16

/-- The rows of 30_encoding R76 whose only free field is `c`. -/
def plainCommand (opc : Nat) (c : Bool) : Option Instr :=
  match opc with
  | 0x01 => some (.ld8 c)
  | 0x02 => some (.ld16 c)
  | 0x03 => some (.ld32 c)
  | 0x04 => some (.ld64 c)
  | 0x05 => some (.ldf32 c)
  | 0x06 => some (.ldf64 c)
  | 0x07 => some (.ldbool c)
  | 0x09 => some (.st8 c)
  | 0x0A => some (.st16 c)
  | 0x0B => some (.st32 c)
  | 0x0C => some (.st64 c)
  | 0x0D => some (.stf32 c)
  | 0x0E => some (.stf64 c)
  | 0x0F => some (.stbool c)
  | 0x10 => some (.btst c)
  | 0x11 => some (.bset c)
  | 0x12 => some (.bclr c)
  | 0x13 => some (.bmsize c)
  | 0x28 => some (.bcopy c)
  | 0x30 => some (.ctz32 c)
  | 0x31 => some (.ctz64 c)
  | 0x32 => some (.clz32 c)
  | 0x33 => some (.clz64 c)
  | 0x38 => some (.popc32 c)
  | 0x39 => some (.popc64 c)
  | 0x3A => some (.bcount c)
  | 0x40 => some (.bidx32 c)
  | 0x41 => some (.bidx64 c)
  | _ => none

/-- The command of a word whose reserved bits are 0, from its fields (30_encoding R76). -/
def decodeFields (opc : Nat) (c v : Bool) (it : BitVec 4) : Except Reject Instr :=
  match opc with
  | 0x48 => .ok (.itinit c v it)
  | 0x49 => if v then .error .valueBit else .ok (.itnext c it)
  | 0x20 => if it = 0 then .ok (.bfill c v) else .error .iterField
  | n =>
    match plainCommand n c with
    | none => .error .opcode
    | some i => if v then .error .valueBit else if it = 0 then .ok i else .error .iterField

/-- The command a word stands for, whatever the parameters. -/
def decode (w : Word32) : Except Reject Instr :=
  if reservedZero w then decodeFields (fieldOpc w).toNat (fieldC w) (fieldV w) (fieldIt w)
  else .error .reserved

/-- The command a word stands for on the instance with parameters `p`: `none` exactly for the words that
30_encoding R77 calls illegal there. -/
def decodeLegal (p : Params) (w : Word32) : Option Instr :=
  match decode w with
  | .ok i => if i.wf p then some i else none
  | .error _ => none

/-- The opcode of a command (30_encoding R76). -/
def Instr.opc : Instr → BitVec 8
  | .ld8 _ => 0x01
  | .ld16 _ => 0x02
  | .ld32 _ => 0x03
  | .ld64 _ => 0x04
  | .ldf32 _ => 0x05
  | .ldf64 _ => 0x06
  | .ldbool _ => 0x07
  | .st8 _ => 0x09
  | .st16 _ => 0x0A
  | .st32 _ => 0x0B
  | .st64 _ => 0x0C
  | .stf32 _ => 0x0D
  | .stf64 _ => 0x0E
  | .stbool _ => 0x0F
  | .btst _ => 0x10
  | .bset _ => 0x11
  | .bclr _ => 0x12
  | .bmsize _ => 0x13
  | .bfill _ _ => 0x20
  | .bcopy _ => 0x28
  | .ctz32 _ => 0x30
  | .ctz64 _ => 0x31
  | .clz32 _ => 0x32
  | .clz64 _ => 0x33
  | .popc32 _ => 0x38
  | .popc64 _ => 0x39
  | .bcount _ => 0x3A
  | .bidx32 _ => 0x40
  | .bidx64 _ => 0x41
  | .itinit _ _ _ => 0x48
  | .itnext _ _ => 0x49

/-- A command word from its fields, most significant first: `0000000000000000 iiii 00 v c oooooooo` (30_encoding R70). -/
def packFields (opc : BitVec 8) (c v : Bool) (it : BitVec 4) : Word32 :=
  0#16 ++ it ++ 0#2 ++ BitVec.ofBool v ++ BitVec.ofBool c ++ opc

/-- The word of a command (30_encoding R70, R76). -/
def encode (i : Instr) : Word32 := packFields i.opc i.checked i.valueBit i.context

/-- The host's view: the command the decoder reads, on the default instance, from the word whose bits are the low
`nbits` bits of `w`, every higher bit being 0. -/
def decodeTableWord (nbits w : Nat) : Option Instr :=
  decodeLegal Params.default (BitVec.ofNat 32 (w % 2 ^ nbits))

end Sys2Proof
end

