-- ==== Sys2Proof/Machine/State.lean ====
section
/-! DEFINITION. The state of the engine and of its one host, as plain data (spec/10_state.md, spec/20_memory.md R50 and
R52, spec/70_reset_and_hazards.md R270), the reasons a step stops, and the state after reset (10_state R42). -/

namespace Sys2Proof.Machine

/-- The six operand registers, in the order of 60_exceptions R238. -/
inductive OpReg where
  | addr
  | src
  | pos
  | spos
  | len
  | val
  deriving DecidableEq, Repr

/-- The registers of an iterator context other than IT_STATE (10_state R27), in the order of the register map (R37). -/
inductive IterReg where
  | itXor
  | itWord
  | itBase
  | itNext
  | itEnd
  | itStart
  deriving DecidableEq, Repr

/-- The registers that carry a written mark (10_state R36). -/
inductive RegName where
  | operand (r : OpReg)
  | res
  | iter (i : BitVec 4) (f : IterReg)
  deriving DecidableEq, Repr

/-- The fault reasons of 60_exceptions R231, each with what that rule records and the command word that raised it
(10_state R35). Every one is SAFE: the spec itself gives the faulting use no meaning, and a run that faults proves
nothing. -/
inductive Fault where
  /-- Raised by every command that reads an operand register not written since reset: 10_state R36 and the table of
  60_exceptions R231 say that it faults, in both modes (R237). Safe. -/
  | unwritten (r : OpReg) (word : Word32)
  /-- Raised by a host read of a register not written since reset: 10_state R36 and the table of 60_exceptions R231 say
  that it faults. No command raises it. Safe. -/
  | unwrittenRead (r : RegName)
  /-- Raised by a command whose address or position arithmetic leaves its width (60_exceptions R231). Safe. -/
  | range (word : Word32)
  /-- Raised by a command with a byte of its access set not admitted; records the lowest such address, as an integer:
  of the slack bytes that COPY_SRC_SLACK asks for and that do not exist, the one below address 0 is recorded as -1 and
  the one above the top address as 2^ADDR_W (DEDUCED, log 8). Safe. -/
  | mem (address : Int) (word : Word32)
  /-- Raised by BCOPY when the two spans share a byte (44_range_copy R165). Safe. -/
  | overlap (word : Word32)
  /-- Raised by CTZ32, CTZ64, CLZ32 and CLZ64 on the input 0 (45_zero_detect R180). Safe. -/
  | zeroInput (word : Word32)
  /-- Raised by ITNEXT on an UNINIT context (47_bit_index_iterator R212). Safe. -/
  | iterUninit (i : BitVec 4) (word : Word32)
  /-- Raised by ITNEXT on a context whose buffer was written or freed during the scan (10_state R34). Safe. -/
  | iterInvalid (i : BitVec 4) (word : Word32)
  /-- Raised by LDBOOL on a byte other than 0 and 1; records its address (41_unaligned_access R108). Safe. -/
  | boolRepr (address : Nat) (word : Word32)
  deriving DecidableEq, Repr

/-- Why a step has no meaning. -/
inductive Refusal where
  /-- Raised by a dispatch arm of a command without a meaning; no arm raises it in this model. Safe. -/
  | notModelled (mnemonic : String)
  /-- Raised by a host access to the register block that is not 64 bits wide or not at a multiple of 8, and by a host
  byte access to, or admission change of, an address where the register block is mapped (10_state R38, 60_exceptions
  R233; log 13). Safe. -/
  | registerAccess (offset bytes : Nat)
  /-- Raised by a host access to, or admission change of, an address outside DMEM, to which the spec gives no meaning
  (log 13). Safe. -/
  | noSuchAddress (address : Nat)
  deriving DecidableEq, Repr

/-- A register with its written mark (10_state R36). -/
structure Marked where
  val : Word64
  written : Bool
  deriving DecidableEq, Repr

/-- A register after reset: unwritten (10_state R42). The value field is the model's (DESIGN CHOICE, log 2): every read
of an unwritten register faults, so that no command and no host read sees it. -/
def Marked.unwritten : Marked := ⟨0, false⟩

/-- A register just written with a value. -/
def Marked.of (v : Word64) : Marked := ⟨v, true⟩

/-- IT_STATE (10_state R27, R28); the encoding 3 is never held. -/
inductive IterState where
  | uninit
  | positioned
  | exhausted
  deriving DecidableEq, Repr

/-- An iterator context (10_state R27) with its ghost invalidation mark (R34). Registers narrower than 64 bits are held
zero-extended (log 15). -/
structure IterCtx where
  itState : IterState
  itXor : Marked
  itWord : Marked
  itBase : Marked
  itNext : Marked
  itEnd : Marked
  itStart : Marked
  itInv : Bool
  deriving DecidableEq, Repr

/-- A context after reset (10_state R42). -/
def IterCtx.reset : IterCtx where
  itState := .uninit
  itXor := .unwritten
  itWord := .unwritten
  itBase := .unwritten
  itNext := .unwritten
  itEnd := .unwritten
  itStart := .unwritten
  itInv := false

/-- The two admission marks of a byte of DMEM (20_memory R52). -/
structure Perm where
  read : Bool
  write : Bool
  deriving DecidableEq, Repr

/-- A byte the host has not admitted. -/
def Perm.closed : Perm := ⟨false, false⟩

/-- What the host, or the platform's reset input, can do in one step (30_encoding R83, 70_reset R260 and R270,
20_memory R52). Register accesses name the byte offset from ENGINE_BASE and the width in bytes (10_state R37, R38). -/
inductive HostAction where
  /-- Write a value to the register at an offset; at CMD this issues a command (10_state R25). -/
  | regWrite (offset bytes : Nat) (v : Word64)
  /-- Read the register at an offset. -/
  | regRead (offset bytes : Nat)
  /-- Write a byte of DMEM. -/
  | memWrite (a : Nat) (b : Byte)
  /-- Read a byte of DMEM. -/
  | memRead (a : Nat)
  /-- Set both admission marks of a byte (20_memory R52); refused where the byte does not exist or a register is mapped
  (DESIGN CHOICE, log 13). -/
  | setAdmission (a : Nat) (p : Perm)
  /-- The platform asserts reset (70_reset R260). -/
  | resetInput
  deriving DecidableEq, Repr

/-- The machine: the engine's registers, contexts and ghost marks, the host's data memory and admission, and the host's
actions still to come. -/
structure State where
  /-- The parameters of this instance (00_scope R6); CFG reports them (10_state R26). No step changes them. -/
  params : Params
  /-- ADDR (10_state R21). -/
  addr : Marked
  /-- SRC. -/
  src : Marked
  /-- POS. -/
  pos : Marked
  /-- SPOS. -/
  spos : Marked
  /-- LEN. -/
  len : Marked
  /-- VAL. -/
  val : Marked
  /-- RES (10_state R23). -/
  res : Marked
  /-- STATUS (10_state R24). -/
  status : Word64
  /-- CMD: the last command word written (10_state R25). -/
  cmd : Word32
  /-- The iterator contexts (10_state R27): one slot for each value of the `it` field, the first N_ITER of which exist
  (log 16). -/
  iters : Vector IterCtx 16
  /-- DMEM (20_memory R50), the bytes that differ from 0, addresses strictly rising (log 3). -/
  mem : List Host.Cell
  /-- Admission (20_memory R52), the bytes with a mark set, addresses strictly rising (log 4). -/
  perm : List (Nat × Perm)
  /-- FAULT (10_state R35): clear, or the fault recorded. -/
  fault : Option Fault
  /-- The host's actions still to come, next first (70_reset R270; log 1). -/
  pending : List HostAction
  /-- The values the host has read, oldest first (70_reset R270; log 1). -/
  seen : List Word64
  deriving DecidableEq, Repr

/-- The machine after reset (10_state R42, 70_reset R260), with the default parameters, no byte of memory listed or
admitted (log 3, log 4) and no host action pending (log 1). -/
def State.reset : State where
  params := Params.default
  addr := .unwritten
  src := .unwritten
  pos := .unwritten
  spos := .unwritten
  len := .unwritten
  val := .unwritten
  res := .unwritten
  status := 0
  cmd := 0
  iters := Vector.replicate 16 IterCtx.reset
  mem := []
  perm := []
  fault := none
  pending := []
  seen := []

end Sys2Proof.Machine
end

