-- ==== Sys2Proof/Machine/Flags.lean ====
section
/-! DEFINITION. STATUS, the engine's only flags: the error codes, the NONE bit and the value every ending writes
(spec/10_state.md R24, R39, R40; spec/60_exceptions.md R236). -/

namespace Sys2Proof.Machine

/-- The errors STATUS.ERR can report: ILLEGAL, and the five reasons the checked mode turns into codes (60 R236, R237). -/
inductive ErrCode where
  | illegal
  | zeroInput
  | overlap
  | range
  | iterState
  | boolRepr
  deriving DecidableEq, Repr

/-- The codes of 60_exceptions R236. -/
def ErrCode.code : ErrCode → BitVec 8
  | .illegal => 0x01
  | .zeroInput => 0x02
  | .overlap => 0x03
  | .range => 0x04
  | .iterState => 0x05
  | .boolRepr => 0x06

/-- STATUS of a command that completes (10_state R40). -/
def statusOk : Word64 := 0

/-- STATUS of an ITNEXT that returns NONE: ERR = 0, NONE = 1 (10_state R40). -/
def statusNone : Word64 := 0x100

/-- STATUS of a command that ends with an error (10_state R40). -/
def statusErr (e : ErrCode) : Word64 := e.code.setWidth 64

/-- STATUS.ERR, bits 7:0 (10_state R24). -/
def State.errField (s : State) : BitVec 8 := s.status.extractLsb' 0 8

/-- STATUS.NONE, bit 8 (10_state R24). -/
def State.noneField (s : State) : Bool := s.status.getLsbD 8

end Sys2Proof.Machine
end

