-- ==== Sys2Proof/Machine/Ops.lean ====
section
/-! DEFINITION. The shared operations of the engine: DMEM and admission in one canonical form, byte order, the write
that invalidates iterators, the registers a command writes, and how a command ends (spec/20_memory.md R50 to R60,
spec/10_state.md R23, R34, R36, R40, spec/60_exceptions.md R230 to R238). The engine has no exception entry and no
return from one (60_exceptions R241, R242), so there is none here. -/

namespace Sys2Proof

/-! ### Parameters -/

/-- 2^ADDR_W, which is also 2^PW (00_scope R6). -/
def Params.space (p : Params) : Nat := 2 ^ p.addrW.bits

/-- WB, the word size in bytes (00_scope R6). -/
def Params.wb (p : Params) : Nat := p.wordW.bytes

/-- NONE, the iterator's sentinel `2^PW - 1` (00_scope R7), zero-extended. -/
def Params.noneValue (p : Params) : Word64 := BitVec.ofNat 64 (p.space - 1)

/-- `ones(WORD_W)`, zero-extended (00_scope R8). -/
def Params.wordOnes (p : Params) : Word64 := BitVec.ofNat 64 (2 ^ p.wordW.bits - 1)

/-- The size in bytes of the register block: up to the last context that exists (10_state R37; log 6). -/
def Params.blockBytes (p : Params) : Nat := 0x100 + 0x40 * p.nIter

/-- The register block is mapped at this address (20_memory R50). -/
def Params.inBlock (p : Params) (a : Nat) : Bool :=
  match p.engineBase with
  | none => false
  | some base => base ≤ a && a < base + p.blockBytes

end Sys2Proof

namespace Sys2Proof.Machine

/-! ### Sparse data by address -/

/-- The value a list of cells gives an address; an address that is not listed has the value `d`. -/
def cellsGet {α : Type} (d : α) (a : Nat) : List (Nat × α) → α
  | [] => d
  | (k, v) :: rest => if a = k then v else cellsGet d a rest

/-- Put a cell into its place in a list with rising addresses. -/
def cellsPut {α : Type} (a : Nat) (v : α) : List (Nat × α) → List (Nat × α)
  | [] => [(a, v)]
  | (k, u) :: rest => if a < k then (a, v) :: (k, u) :: rest else (k, u) :: cellsPut a v rest

/-- Take an address out of a list of cells. -/
def cellsErase {α : Type} (a : Nat) (l : List (Nat × α)) : List (Nat × α) := l.filter (fun c => c.1 != a)

/-- Give an address a value; the value of an unlisted address is not listed. -/
def cellsSet {α : Type} [DecidableEq α] (d : α) (a : Nat) (v : α) (l : List (Nat × α)) : List (Nat × α) :=
  if v = d then cellsErase a l else cellsPut a v (cellsErase a l)

/-- The canonical form: addresses strictly rising and below `space`, and no cell holding the unlisted value. -/
abbrev cellsWf {α : Type} [DecidableEq α] (d : α) (space : Nat) (l : List (Nat × α)) : Prop :=
  l.Pairwise (fun x y => x.1 < y.1) ∧ ∀ c ∈ l, c.1 < space ∧ c.2 ≠ d

/-! ### DMEM -/

/-- What a byte of DMEM that nothing has written reads as (DESIGN CHOICE, log 3). -/
def unlistedByte : Byte := 0

/-- The byte of DMEM at an address. -/
def State.peek (s : State) (a : Nat) : Byte := cellsGet unlistedByte a s.mem

/-- The admission marks of the byte at an address. -/
def State.permAt (s : State) (a : Nat) : Perm := cellsGet Perm.closed a s.perm

/-- The engine may read the byte: it exists, the register block is not mapped there, and the host has admitted it
(20_memory R50, R52). -/
def State.canRead (s : State) (a : Nat) : Bool :=
  decide (a < s.params.space) && !(s.params.inBlock a) && (s.permAt a).read

/-- The engine may write the byte. -/
def State.canWrite (s : State) (a : Nat) : Bool :=
  decide (a < s.params.space) && !(s.params.inBlock a) && (s.permAt a).write

/-- The `n` bytes from an address upwards, in address order (20_memory R53). -/
def State.bytesAt (s : State) (a n : Nat) : List Byte := (List.range n).map (fun k => s.peek (a + k))

/-- Bit `p` of the buffer at `b` (00_scope R10, 20_memory R58). -/
def State.bitAt (s : State) (b p : Nat) : Bool := (s.peek (b + p / 8)).getLsbD (p % 8)

/-- The address lies in the buffer of the context (10_state R34). -/
def IterCtx.covers (c : IterCtx) (a : Nat) : Bool :=
  decide (c.itStart.val.toNat ≤ a) && decide (a < c.itEnd.val.toNat)

/-- A byte of a buffer being scanned was written or freed (10_state R34). -/
def IterCtx.touch (a : Nat) (c : IterCtx) : IterCtx :=
  if c.itState = .positioned ∧ c.covers a = true then { c with itInv := true } else c

/-- Apply a function to every context (a `Vector.map` that the kernel can evaluate). -/
def mapIters (f : IterCtx → IterCtx) (v : Vector IterCtx 16) : Vector IterCtx 16 :=
  ⟨⟨v.toArray.toList.map f⟩, by simp⟩

/-- Set the invalidation mark of every POSITIONED context whose buffer holds the address (10_state R34). -/
def State.invalidate (s : State) (a : Nat) : State := { s with iters := mapIters (IterCtx.touch a) s.iters }

/-- Write a byte of DMEM (20_memory R54). -/
def State.poke (s : State) (a : Nat) (b : Byte) : State :=
  { s.invalidate a with mem := cellsSet unlistedByte a b s.mem }

/-- Write bytes of DMEM, in order. -/
def State.pokes (s : State) (ws : List Host.Cell) : State := ws.foldl (fun t w => t.poke w.1 w.2) s

/-- Bytes laid out from an address upwards. -/
def cellsFrom (a : Nat) (bs : List Byte) : List Host.Cell := (List.range' a bs.length).zip bs

/-- Set the admission marks of a byte; taking a mark away frees the byte (20_memory R52, 10_state R34; log 7). -/
def State.setPerm (s : State) (a : Nat) (p : Perm) : State :=
  let old := s.permAt a
  let t := if (old.read && !p.read) || (old.write && !p.write) then s.invalidate a else s
  { t with perm := cellsSet Perm.closed a p s.perm }

/-! ### Byte order (20_memory R56) -/

/-- The number whose bytes are given least significant first. -/
def leValue : List Byte → Nat
  | [] => 0
  | b :: bs => b.toNat + 256 * leValue bs

/-- The number bytes stand for in a byte order. -/
def orderValue (o : ByteOrder) (bs : List Byte) : Nat :=
  match o with
  | .le => leValue bs
  | .be => leValue bs.reverse

/-- The `n` low bytes of a number, least significant first. -/
def leBytes (n v : Nat) : List Byte := (List.range n).map (fun k => BitVec.ofNat 8 (v / 2 ^ (8 * k)))

/-- The `n` bytes that stand for a number modulo 2^(8n) in a byte order. -/
def orderBytes (o : ByteOrder) (n v : Nat) : List Byte :=
  match o with
  | .le => leBytes n v
  | .be => (leBytes n v).reverse

/-- `LoadO(a, n, O)` without its checks (20_memory R56). -/
def State.loadValue (s : State) (o : ByteOrder) (a n : Nat) : Nat := orderValue o (s.bytesAt a n)

/-! ### Registers a command writes -/

/-- `RES <- v` (10_state R23). -/
def State.setRes (s : State) (v : Word64) : State := { s with res := Marked.of v }

/-- `STATUS <- v` (10_state R40). -/
def State.setStatus (s : State) (v : Word64) : State := { s with status := v }

/-- The context a command names. -/
def State.ctx (s : State) (i : BitVec 4) : IterCtx := s.iters[i.toNat]'i.isLt

/-- Replace the context a command names. -/
def State.setCtx (s : State) (i : BitVec 4) (c : IterCtx) : State :=
  { s with iters := s.iters.set i.toNat c i.isLt }

/-! ### How a command ends (60_exceptions R230) -/

/-- The outcome of a command. -/
abbrev Result := Host.Outcome State Fault Refusal

/-- The command completes: STATUS is 0 (10_state R40). -/
def finish (s : State) : Result := .next (s.setStatus statusOk)

/-- ITNEXT returns NONE: RES and STATUS say so (47_bit_index_iterator R207). -/
def finishNone (s : State) : Result :=
  .next ((s.setRes s.params.noneValue).setStatus statusNone)

/-- `error E`: nothing but STATUS is written (60_exceptions R235). -/
def endError (e : ErrCode) (s : State) : Result := .next (s.setStatus (statusErr e))

/-- An operand register. -/
def State.op (s : State) : OpReg → Marked
  | .addr => s.addr
  | .src => s.src
  | .pos => s.pos
  | .spos => s.spos
  | .len => s.len
  | .val => s.val

/-- Go on if every operand register the command reads has been written, else fault on the first that has not
(10_state R36; the order is that of 60_exceptions R238). -/
def needs : List OpReg → State → Result → Result
  | [], _, k => k
  | r :: rs, s, k => if (s.op r).written then needs rs s k else .fault (.unwritten r s.cmd)

/-- A check that the checked mode reports (60_exceptions R237): go on if it holds, else end with the error code when
`c = 1` and fault otherwise. -/
def check (c : Bool) (s : State) (ok : Bool) (e : ErrCode) (f : Fault) (k : Result) : Result :=
  if ok then k else if c then endError e s else .fault f

/-- The RANGE check: `limit`, one past the last address or position used, is representable (60_exceptions R231). -/
def inRange (c : Bool) (s : State) (limit : Nat) (k : Result) : Result :=
  check c s (decide (limit ≤ s.params.space)) .range (.range s.cmd) k

/-- The admission check, in both modes: `bad` is the lowest address that is not admitted (60_exceptions R237, R238). -/
def admitted (bad : Option Int) (s : State) (k : Result) : Result :=
  match bad with
  | none => k
  | some a => .fault (.mem a s.cmd)

/-- The first address of a rising list that fails a test. -/
def firstBad (ok : Nat → Bool) (as : List Nat) : Option Int := (as.find? (fun a => !ok a)).map Int.ofNat

/-- The lower of two addresses that may be absent. -/
def lower : Option Int → Option Int → Option Int
  | none, y => y
  | some x, none => some x
  | some x, some y => some (min x y)

end Sys2Proof.Machine
end

