-- ==== Sys2Proof/Machine/Operands.lean ====
section
/-! DEFINITION. The operands of the commands: the register bits a command uses (spec/10_state.md R21,
spec/30_encoding.md R79), the span and the masks of a bit range (spec/00_scope.md R10 to R12) and the counting
functions of 00_scope R13. -/

namespace Sys2Proof.Machine

/-- The bits of a register that hold an address, position, count or size: the low ADDR_W = PW bits (10_state R21). -/
def State.use (s : State) (r : OpReg) : Nat := (s.op r).val.toNat % s.params.space

/-- `VAL[31:0]` (30_encoding R79). -/
def State.val32 (s : State) : BitVec 32 := s.val.val.setWidth 32

/-- `VAL[63:0]`. -/
def State.val64 (s : State) : BitVec 64 := s.val.val

/-- The addresses of an access of `n` bytes (20_memory R51). -/
def accessAddrs (a n : Nat) : List Nat := List.range' a n

/-- The byte offsets of a bit range from its base (00_scope R11), rising; none for an empty range. -/
def spanOffsets (p n : Nat) : List Nat :=
  if n = 0 then [] else List.range' (p / 8) ((p + n - 1) / 8 - p / 8 + 1)

/-- The byte addresses of a bit range (00_scope R11), rising. -/
def spanAddrs (b p n : Nat) : List Nat := (spanOffsets p n).map (fun k => b + k)

/-- The position lies in the range `[p, p + n)`. -/
def inBitRange (p n q : Nat) : Bool := decide (p ≤ q) && decide (q < p + n)

/-- The byte with the given bits, bit 0 first. -/
def byteOfBits (f : Nat → Bool) : Byte := BitVec.ofBoolListLE [f 0, f 1, f 2, f 3, f 4, f 5, f 6, f 7]

/-- The mask of span byte `k` (00_scope R12). -/
def rangeMask (p n k : Nat) : Byte := byteOfBits (fun j => inBitRange p n (8 * k + j))

/-- The merge of a span byte (43_range_fill R151, 44_range_copy R161): a body byte is replaced without being read, a
partial byte keeps its bits outside the mask. -/
def mergeByte (mask old new : Byte) : Byte := if mask = 0xFF then new else (old &&& ~~~mask) ||| (new &&& mask)

/-- The number of set bits among the first `w` (00_scope R13). -/
def popcount (w : Nat) (x : Nat → Bool) : Nat := (List.range w).countP x

/-- The least set bit among the first `w` (00_scope R13); used only where there is one. -/
def lowest (w : Nat) (x : Nat → Bool) : Nat := ((List.range w).find? x).getD 0

/-- The greatest set bit among the first `w` (00_scope R13); used only where there is one. -/
def highest (w : Nat) (x : Nat → Bool) : Nat := ((List.range w).reverse.find? x).getD 0

/-- The positions of the set bits among the first `w`, rising (47_bit_index_iterator R203). -/
def setBits (w : Nat) (x : Nat → Bool) : List Nat := (List.range w).filter x

/-- A number as a 64-bit register value. -/
def word64 (n : Nat) : Word64 := BitVec.ofNat 64 n

end Sys2Proof.Machine
end

