-- ==== Sys2Proof/Machine/Bit.lean ====
section
/-! DEFINITION. The single-bit primitives and bitmap sizing: BTST, BSET, BCLR, BMSIZE
(spec/42_single_bit_sizing.md). -/

namespace Sys2Proof.Machine

/-- The address of the byte that holds bit POS of the buffer at ADDR (42 R130). -/
def bitAddr (s : State) : Nat := s.use .addr + s.use .pos / 8

/-- The one-bit mask of bit POS in its byte (42 R132, R133). -/
def bitMask (s : State) : Byte := 1#8 <<< (s.use .pos % 8)

/-- The bit addressed, as a result (42 R131 to R133). -/
def bitResult (s : State) : Word64 := (BitVec.ofBool (s.bitAt (s.use .addr) (s.use .pos))).setWidth 64

/-- The checks of a single-bit command whose byte passes `ok`, in the order of 42 R130. -/
def bitAccess (ok : Nat → Bool) (c : Bool) (s : State) (k : Result) : Result :=
  needs [.addr, .pos] s <|
  inRange c s (bitAddr s + 1) <|
  admitted (firstBad ok [bitAddr s]) s k

/-- The byte may be read and written. -/
def State.canUpdate (s : State) (a : Nat) : Bool := s.canRead a && s.canWrite a

/-- BTST (42 R131). -/
def execBtst (c : Bool) (s : State) : Result :=
  bitAccess s.canRead c s <| finish (s.setRes (bitResult s))

/-- BSET (42 R132): the byte is written in every case, and RES is the bit's old value. -/
def execBset (c : Bool) (s : State) : Result :=
  bitAccess s.canUpdate c s <|
  finish ((s.poke (bitAddr s) (s.peek (bitAddr s) ||| bitMask s)).setRes (bitResult s))

/-- BCLR (42 R133): the byte is written in every case, and RES is the bit's old value. -/
def execBclr (c : Bool) (s : State) : Result :=
  bitAccess s.canUpdate c s <|
  finish ((s.poke (bitAddr s) (s.peek (bitAddr s) &&& ~~~bitMask s)).setRes (bitResult s))

/-- The byte length of a bitmap of `n` bits, in whole words (42 R135, 90_conflicts C1). -/
def bitmapBytes (p : Params) (n : Nat) : Nat := (n + p.wordW.bits - 1) / p.wordW.bits * p.wb

/-- BMSIZE (42 R135). -/
def execBmsize (c : Bool) (s : State) : Result :=
  needs [.len] s <|
  inRange c s (s.use .len + s.params.wordW.bits) <|
  finish (s.setRes (word64 (bitmapBytes s.params (s.use .len))))

end Sys2Proof.Machine
end

