-- ==== Sys2Proof/Machine/Fill.lean ====
section
/-! DEFINITION. The bit-range fill engine: BFILL (spec/43_range_fill.md). -/

namespace Sys2Proof.Machine

/-- The range checks of a bit range (43 R150, 44 R160, 46 R193): its last position and its last byte are
representable. -/
def rangeAccess (b p n : Nat) (c : Bool) (s : State) (k : Result) : Result :=
  inRange c s (p + n) <| inRange c s (b + (p + n - 1) / 8 + 1) k

/-- A byte of the destination span of a fill or a copy may be accessed: it is writable, and readable too when it is a
partial byte (20_memory R51; 43 R150, 44 R160). -/
def State.canMerge (s : State) (b p n a : Nat) : Bool :=
  s.canWrite a && (decide (rangeMask p n (a - b) = 0xFF) || s.canRead a)

/-- The lowest byte of a destination span that may not be accessed. -/
def badDest (b p n : Nat) (s : State) : Option Int := firstBad (s.canMerge b p n) (spanAddrs b p n)

/-- The fill byte (43 R151). -/
def fillByte (v : Bool) : Byte := if v then 0xFF else 0x00

/-- The bytes BFILL writes, with their addresses (43 R151). -/
def fillCells (v : Bool) (s : State) : List Host.Cell :=
  (spanOffsets (s.use .pos) (s.use .len)).map (fun k =>
    (s.use .addr + k,
      mergeByte (rangeMask (s.use .pos) (s.use .len) k) (s.peek (s.use .addr + k)) (fillByte v)))

/-- BFILL (43 R151). -/
def execBfill (c v : Bool) (s : State) : Result :=
  needs [.addr, .pos, .len] s <|
  if s.use .len = 0 then finish s else
  rangeAccess (s.use .addr) (s.use .pos) (s.use .len) c s <|
  admitted (badDest (s.use .addr) (s.use .pos) (s.use .len) s) s <|
  finish (s.pokes (fillCells v s))

end Sys2Proof.Machine
end

