-- ==== Sys2Proof/Machine/Copy.lean ====
section
/-! DEFINITION. The bit-range copy engine: BCOPY, by the per-bit rule that spec/44_range_copy.md makes normative
(R161, R168), and the shift-alignment formula it is equal to (R162). -/

namespace Sys2Proof.Machine

/-- Two bit ranges share a byte address (44 R165); both counts are `n > 0`. -/
def spansOverlap (d dp s sp n : Nat) : Bool :=
  decide (d + dp / 8 ≤ s + (sp + n - 1) / 8) && decide (s + sp / 8 ≤ d + (dp + n - 1) / 8)

/-- With COPY_SRC_SLACK, the byte just below the source span, if it is missing or not readable (44 R164). Below address
0 there is no byte: it is recorded as -1 (DEDUCED, log 8). -/
def badBelow (first : Nat) (s : State) : Option Int :=
  if first = 0 then some (-1) else firstBad s.canRead [first - 1]

/-- The lowest byte the source needs that may not be read (44 R160 item 4, R164). With COPY_SRC_SLACK, the byte just
above a source span that ends at the top address does not exist: it is recorded as 2^ADDR_W, the number after the top
address (DEDUCED, log 8). -/
def badSource (b p n : Nat) (s : State) : Option Int :=
  if s.params.copySlack then
    lower (badBelow (b + p / 8) s)
      (lower (firstBad s.canRead (spanAddrs b p n)) (firstBad s.canRead [b + (p + n - 1) / 8 + 1]))
  else firstBad s.canRead (spanAddrs b p n)

/-- The source bits that land on destination byte `k`, one per bit of the byte (44 R161); bits outside the range
are 0. -/
def copyByte (s : State) (k : Nat) : Byte :=
  byteOfBits (fun j =>
    inBitRange (s.use .pos) (s.use .len) (8 * k + j) &&
      s.bitAt (s.use .src) (s.use .spos + (8 * k + j - s.use .pos)))

/-- The bytes BCOPY writes, with their addresses (44 R161); every source bit is that of the state before. -/
def copyCells (s : State) : List Host.Cell :=
  (spanOffsets (s.use .pos) (s.use .len)).map (fun k =>
    (s.use .addr + k,
      mergeByte (rangeMask (s.use .pos) (s.use .len) k) (s.peek (s.use .addr + k)) (copyByte s k)))

/-- BCOPY (44 R161), with the checks of R160 in their order. -/
def execBcopy (c : Bool) (s : State) : Result :=
  needs [.addr, .src, .pos, .spos, .len] s <|
  if s.use .len = 0 then finish s else
  inRange c s (s.use .pos + s.use .len) <|
  inRange c s (s.use .spos + s.use .len) <|
  inRange c s (s.use .addr + (s.use .pos + s.use .len - 1) / 8 + 1) <|
  inRange c s (s.use .src + (s.use .spos + s.use .len - 1) / 8 + 1) <|
  check c s (!spansOverlap (s.use .addr) (s.use .pos) (s.use .src) (s.use .spos) (s.use .len)) .overlap
    (.overlap s.cmd) <|
  admitted (lower (badSource (s.use .src) (s.use .spos) (s.use .len) s)
    (badDest (s.use .addr) (s.use .pos) (s.use .len) s)) s <|
  finish (s.pokes (copyCells s))

/-- A source byte as the shift-merge formula reads it (44 R162): `q` counts from the source base and may be below
the span, and a byte that no bit of the range needs is taken as 0. -/
def shiftSource (s : State) (q : Int) : Byte :=
  if 0 ≤ q ∧ q.toNat ∈ spanOffsets (s.use .spos) (s.use .len) then s.peek (s.use .src + q.toNat) else 0

/-- The byte the shift-alignment datapath gives destination byte `k` (44 R162): the source position that lands on bit
0 of the byte is `S = sp + 8k - dp`, and the byte is put together from source bytes `S / 8` and `S / 8 + 1`. -/
def shiftByte (s : State) (k : Nat) : Byte :=
  let diff : Int := (s.use .pos % 8 : Nat) - (s.use .spos % 8 : Nat)
  let q : Int := ((s.use .spos : Int) + 8 * k - s.use .pos) / 8
  if diff ≤ 0 then
    let shift := (-diff).toNat
    (shiftSource s q >>> shift) ||| (shiftSource s (q + 1) <<< (8 - shift))
  else
    let shift := diff.toNat
    (shiftSource s q >>> (8 - shift)) ||| (shiftSource s (q + 1) <<< shift)

end Sys2Proof.Machine
end

