-- ==== Sys2Proof/Machine/Index.lean ====
section
/-! DEFINITION. Bit indexing: BIDX32 and BIDX64 (spec/47_bit_index_iterator.md R200 to R204). -/

namespace Sys2Proof.Machine

/-- EB, the bytes of one element (47 R200). -/
def idxBytes (s : State) : Nat := s.params.idxElem.bytes

/-- The bias `POS[IW-1:0]` (47 R200; log 9). -/
def idxBias (s : State) : Nat := s.pos.val.toNat % 2 ^ s.params.idxElem.bits

/-- The elements written for the set bits `js` (47 R203). -/
def idxElements (js : List Nat) (s : State) : List Nat :=
  js.map (fun j => (idxBias s + j) % 2 ^ s.params.idxElem.bits)

/-- The bytes written for the set bits `js`, with their addresses (47 R201). -/
def idxCells (js : List Nat) (s : State) : List Host.Cell :=
  cellsFrom (s.use .addr) ((idxElements js s).flatMap (orderBytes s.params.hostOrder (idxBytes s)))

/-- One past the last element (47 R200). -/
def idxEnd (js : List Nat) (s : State) : Nat := s.use .addr + idxBytes s * js.length

/-- List the set bits `js` (47 R200, R201). The end pointer itself must be representable. -/
def bitIndex (js : List Nat) (c : Bool) (s : State) : Result :=
  needs [.addr, .pos, .val] s <|
  inRange c s (idxEnd js s + 1) <|
  admitted (firstBad s.canWrite (accessAddrs (s.use .addr) (idxBytes s * js.length))) s <|
  finish ((s.pokes (idxCells js s)).setRes (word64 (idxEnd js s)))

/-- BIDX32 (47 R201). -/
def execBidx32 (c : Bool) (s : State) : Result := bitIndex (setBits 32 s.val32.getLsbD) c s

/-- BIDX64 (47 R202). -/
def execBidx64 (c : Bool) (s : State) : Result := bitIndex (setBits 64 s.val64.getLsbD) c s

end Sys2Proof.Machine
end

