-- ==== Sys2Proof/Machine/Iterator.lean ====
section
/-! DEFINITION. The bit iterator: ITINIT and ITNEXT (spec/47_bit_index_iterator.md R205 to R219). -/

namespace Sys2Proof.Machine

/-- The byte length of the first chunk of a buffer of `sz` bytes (47 R210, 90_conflicts C3). -/
def firstChunk (p : Params) (sz : Nat) : Nat := if sz % p.wb = 0 then p.wb else sz % p.wb

/-- IT_XOR of a mode: `v = 1` set mode, `v = 0` clear mode (47 R206, R210). -/
def modeMask (p : Params) (v : Bool) : Word64 := if v then 0 else p.wordOnes

/-- The mask of the low `n` bytes of a word. -/
def lowBytes (n : Nat) : Word64 := word64 (2 ^ (8 * n) - 1)

/-- The first word of a scan: the first `c` bytes in a scratch word filled with the no-match pattern, then
exclusive-ored with the mode's mask (47 R210). -/
def firstWord (s : State) (b c : Nat) (mask : Word64) : Word64 :=
  ((mask &&& ~~~lowBytes c) ||| word64 (s.loadValue .le b c)) ^^^ mask

/-- The context after ITINIT on an empty buffer (47 R210). -/
def emptyScan (p : Params) (b : Nat) (v : Bool) : IterCtx where
  itState := .exhausted
  itXor := .of (modeMask p v)
  itWord := .of 0
  itBase := .of 0
  itNext := .of (word64 b)
  itEnd := .of (word64 b)
  itStart := .of (word64 b)
  itInv := false

/-- The context after ITINIT on a buffer of `sz > 0` bytes at `b` (47 R210). -/
def startScan (s : State) (b sz : Nat) (v : Bool) : IterCtx where
  itState := .positioned
  itXor := .of (modeMask s.params v)
  itWord := .of (firstWord s b (firstChunk s.params sz) (modeMask s.params v))
  itBase := .of 0
  itNext := .of (word64 (b + firstChunk s.params sz))
  itEnd := .of (word64 (b + sz))
  itStart := .of (word64 b)
  itInv := false

/-- The largest size is below `2^(PW-3)` bytes (47 R209). -/
def sizeLimit (p : Params) : Nat := p.space / 8

/-- ITINIT (47 R210). -/
def execItinit (c v : Bool) (it : BitVec 4) (s : State) : Result :=
  needs [.addr, .len] s <|
  check c s (decide (s.use .len < sizeLimit s.params)) .range (.range s.cmd) <|
  inRange c s (s.use .addr + s.use .len + 1) <|
  if s.use .len = 0 then finish (s.setCtx it (emptyScan s.params (s.use .addr) v)) else
  admitted (firstBad s.canRead (accessAddrs (s.use .addr) (firstChunk s.params (s.use .len)))) s <|
  finish (s.setCtx it (startScan s (s.use .addr) (s.use .len) v))

/-- Load the word at `a` into a context (47 R213). -/
def loadWord (s : State) (a : Nat) (x : IterCtx) : IterCtx :=
  { x with
    itBase := .of (word64 (8 * (a - x.itStart.val.toNat)))
    itWord := .of (word64 (s.loadValue .le a s.params.wb) ^^^ x.itXor.val)
    itNext := .of (word64 (a + s.params.wb)) }

/-- How the search for the next hit ends. -/
inductive Search where
  /-- The context's word holds a hit. -/
  | hit (x : IterCtx)
  /-- No hit remains. -/
  | dry (x : IterCtx)
  /-- A word to load would leave the address space; no context that ITINIT made gets here (log 14). -/
  | outside
  /-- A byte of a word to load is not readable. -/
  | blocked (a : Int)
  deriving DecidableEq, Repr

/-- The words still to load at `a`: the number of rounds of the loop of 47 R211 whose test `IT_NEXT >= IT_END` fails. -/
def wordsLeft (p : Params) (a limit : Nat) : Nat := (limit - a + p.wb - 1) / p.wb

/-- Load up to `m` words from `a` on, until one holds a hit (47 R211, R213, R214). -/
def searchWords (s : State) : Nat → Nat → IterCtx → Search
  | 0, _, x => .dry x
  | m + 1, a, x =>
    if a + s.params.wb ≤ s.params.space then
      match firstBad s.canRead (accessAddrs a s.params.wb) with
      | some e => .blocked e
      | none =>
        if (loadWord s a x).itWord.val = 0 then searchWords s m (a + s.params.wb) (loadWord s a x)
        else .hit (loadWord s a x)
    else .outside

/-- The loop of 47 R211: the current word if it holds a hit, else the next word that does. -/
def search (s : State) (x : IterCtx) : Search :=
  if x.itWord.val = 0 then
    searchWords s (wordsLeft s.params x.itNext.val.toNat x.itEnd.val.toNat) x.itNext.val.toNat x
  else .hit x

/-- The position of the hit a context's word holds (47 R215). -/
def hitPosition (p : Params) (x : IterCtx) : Word64 :=
  x.itBase.val + word64 (lowest p.wordW.bits x.itWord.val.getLsbD)

/-- Clear the lowest set bit of a context's word (47 R215). -/
def takeHit (x : IterCtx) : IterCtx := { x with itWord := .of (x.itWord.val &&& (x.itWord.val - 1)) }

/-- A context whose scan is over (47 R214). -/
def IterCtx.exhaust (x : IterCtx) : IterCtx := { x with itState := .exhausted }

/-- ITNEXT on a context that passes 47 R212. -/
def nextHit (c : Bool) (it : BitVec 4) (s : State) : Result :=
  if (s.ctx it).itState = .exhausted then finishNone s else
  match search s (s.ctx it) with
  | .hit x => finish ((s.setCtx it (takeHit x)).setRes (hitPosition s.params x))
  | .dry x => finishNone (s.setCtx it x.exhaust)
  | .outside => inRange c s (s.params.space + 1) (finish s)
  | .blocked a => .fault (.mem a s.cmd)

/-- ITNEXT (47 R211, R212). -/
def execItnext (c : Bool) (it : BitVec 4) (s : State) : Result :=
  check c s (decide ((s.ctx it).itState ≠ .uninit)) .iterState (.iterUninit it s.cmd) <|
  if (s.ctx it).itInv then .fault (.iterInvalid it s.cmd) else nextHit c it s

end Sys2Proof.Machine
end

