-- ==== Sys2Proof/Machine/LoadStore.lean ====
section
/-! DEFINITION. The unaligned memory loader and storer: LD8 to LDBOOL and ST8 to STBOOL
(spec/41_unaligned_access.md). -/

namespace Sys2Proof.Machine

/-- The checks of a scalar access of `n` bytes whose bytes pass `ok`, in the order of 41 R101. -/
def scalarAccess (rs : List OpReg) (ok : Nat → Bool) (n : Nat) (c : Bool) (s : State) (k : Result) : Result :=
  needs rs s <|
  inRange c s (s.use .addr + n) <|
  admitted (firstBad ok (accessAddrs (s.use .addr) n)) s k

/-- A load of `n` bytes in HOST_ORDER into RES (41 R102 to R107). -/
def loadScalar (n : Nat) (c : Bool) (s : State) : Result :=
  scalarAccess [.addr] s.canRead n c s <|
  finish (s.setRes (word64 (s.loadValue s.params.hostOrder (s.use .addr) n)))

/-- A store of the low `8n` bits of `v` in HOST_ORDER (41 R109 to R116). -/
def storeScalar (n v : Nat) (c : Bool) (s : State) : Result :=
  scalarAccess [.addr, .val] s.canWrite n c s <|
  finish (s.pokes (cellsFrom (s.use .addr) (orderBytes s.params.hostOrder n v)))

/-- LD8 (41 R102). -/
def execLd8 (c : Bool) (s : State) : Result := loadScalar 1 c s

/-- LD16 (41 R103). -/
def execLd16 (c : Bool) (s : State) : Result := loadScalar 2 c s

/-- LD32 (41 R104). -/
def execLd32 (c : Bool) (s : State) : Result := loadScalar 4 c s

/-- LD64 (41 R105). -/
def execLd64 (c : Bool) (s : State) : Result := loadScalar 8 c s

/-- LDF32: the bit pattern, without conversion (41 R106, R117). -/
def execLdf32 (c : Bool) (s : State) : Result := loadScalar 4 c s

/-- LDF64: the bit pattern, without conversion (41 R107, R117). -/
def execLdf64 (c : Bool) (s : State) : Result := loadScalar 8 c s

/-- LDBOOL (41 R108). -/
def execLdbool (c : Bool) (s : State) : Result :=
  scalarAccess [.addr] s.canRead 1 c s <|
  check c s (decide (s.peek (s.use .addr) = 0 ∨ s.peek (s.use .addr) = 1)) .boolRepr
    (.boolRepr (s.use .addr) s.cmd) <|
  finish (s.setRes ((s.peek (s.use .addr)).setWidth 64))

/-- ST8 (41 R110). -/
def execSt8 (c : Bool) (s : State) : Result := storeScalar 1 s.val64.toNat c s

/-- ST16 (41 R111). -/
def execSt16 (c : Bool) (s : State) : Result := storeScalar 2 s.val64.toNat c s

/-- ST32 (41 R112). -/
def execSt32 (c : Bool) (s : State) : Result := storeScalar 4 s.val64.toNat c s

/-- ST64 (41 R113). -/
def execSt64 (c : Bool) (s : State) : Result := storeScalar 8 s.val64.toNat c s

/-- STF32: the bit pattern, without conversion (41 R114, R117). -/
def execStf32 (c : Bool) (s : State) : Result := storeScalar 4 s.val64.toNat c s

/-- STF64: the bit pattern, without conversion (41 R115, R117). -/
def execStf64 (c : Bool) (s : State) : Result := storeScalar 8 s.val64.toNat c s

/-- STBOOL (41 R116). -/
def execStbool (c : Bool) (s : State) : Result := storeScalar 1 (if s.val64 = 0 then 0 else 1) c s

end Sys2Proof.Machine
end

