-- ==== Sys2Proof/Machine/Popcount.lean ====
section
/-! DEFINITION. The population counts: POPC32, POPC64, BCOUNT (spec/46_popcount.md). -/

namespace Sys2Proof.Machine

/-- POPC32 (46 R191). -/
def execPopc32 (_c : Bool) (s : State) : Result :=
  needs [.val] s <| finish (s.setRes (word64 (popcount 32 s.val32.getLsbD)))

/-- POPC64 (46 R192). -/
def execPopc64 (_c : Bool) (s : State) : Result :=
  needs [.val] s <| finish (s.setRes (word64 (popcount 64 s.val64.getLsbD)))

/-- The number of set bits of the range `[p, p + n)` of the buffer at `b` (46 R193). -/
def State.countBits (s : State) (b p n : Nat) : Nat := popcount n (fun i => s.bitAt b (p + i))

/-- BCOUNT (46 R193). -/
def execBcount (c : Bool) (s : State) : Result :=
  needs [.addr, .pos, .len] s <|
  if s.use .len = 0 then finish (s.setRes 0) else
  rangeAccess (s.use .addr) (s.use .pos) (s.use .len) c s <|
  admitted (firstBad s.canRead (spanAddrs (s.use .addr) (s.use .pos) (s.use .len))) s <|
  finish (s.setRes (word64 (s.countBits (s.use .addr) (s.use .pos) (s.use .len))))

end Sys2Proof.Machine
end

