-- ==== Sys2Proof/Machine/ZeroDetect.lean ====
section
/-! DEFINITION. The zero detector: CTZ32, CTZ64, CLZ32, CLZ64 (spec/45_zero_detect.md). -/

namespace Sys2Proof.Machine

/-- A count over a `w`-bit input that is undefined for 0 (45 R180): the input 0 is ZERO_INPUT. -/
def zeroDetect {w : Nat} (x : BitVec w) (count : Nat) (c : Bool) (s : State) : Result :=
  needs [.val] s <|
  check c s (decide (x ≠ 0)) .zeroInput (.zeroInput s.cmd) <|
  finish (s.setRes (word64 count))

/-- CTZ32 (45 R181). -/
def execCtz32 (c : Bool) (s : State) : Result := zeroDetect s.val32 (lowest 32 s.val32.getLsbD) c s

/-- CTZ64 (45 R182). -/
def execCtz64 (c : Bool) (s : State) : Result := zeroDetect s.val64 (lowest 64 s.val64.getLsbD) c s

/-- CLZ32 (45 R183, 90_conflicts C2). -/
def execClz32 (c : Bool) (s : State) : Result := zeroDetect s.val32 (31 - highest 32 s.val32.getLsbD) c s

/-- CLZ64 (45 R184, 90_conflicts C2). -/
def execClz64 (c : Bool) (s : State) : Result := zeroDetect s.val64 (63 - highest 64 s.val64.getLsbD) c s

end Sys2Proof.Machine
end

