-- ==== Sys2Proof/Machine/Dispatch.lean ====
section
/-! DEFINITION. The meaning of every command: one arm per constructor of `Instr`, each one call of the command's own
meaning (spec/30_encoding.md R76). -/

namespace Sys2Proof.Machine

def exec (i : Instr) (s : State) : Host.Outcome State Fault Refusal :=
  match i with
  | .ld8 c => Sys2Proof.Machine.execLd8 c s
  | .ld16 c => Sys2Proof.Machine.execLd16 c s
  | .ld32 c => Sys2Proof.Machine.execLd32 c s
  | .ld64 c => Sys2Proof.Machine.execLd64 c s
  | .ldf32 c => Sys2Proof.Machine.execLdf32 c s
  | .ldf64 c => Sys2Proof.Machine.execLdf64 c s
  | .ldbool c => Sys2Proof.Machine.execLdbool c s
  | .st8 c => Sys2Proof.Machine.execSt8 c s
  | .st16 c => Sys2Proof.Machine.execSt16 c s
  | .st32 c => Sys2Proof.Machine.execSt32 c s
  | .st64 c => Sys2Proof.Machine.execSt64 c s
  | .stf32 c => Sys2Proof.Machine.execStf32 c s
  | .stf64 c => Sys2Proof.Machine.execStf64 c s
  | .stbool c => Sys2Proof.Machine.execStbool c s
  | .btst c => Sys2Proof.Machine.execBtst c s
  | .bset c => Sys2Proof.Machine.execBset c s
  | .bclr c => Sys2Proof.Machine.execBclr c s
  | .bmsize c => Sys2Proof.Machine.execBmsize c s
  | .bfill c v => Sys2Proof.Machine.execBfill c v s
  | .bcopy c => Sys2Proof.Machine.execBcopy c s
  | .ctz32 c => Sys2Proof.Machine.execCtz32 c s
  | .ctz64 c => Sys2Proof.Machine.execCtz64 c s
  | .clz32 c => Sys2Proof.Machine.execClz32 c s
  | .clz64 c => Sys2Proof.Machine.execClz64 c s
  | .popc32 c => Sys2Proof.Machine.execPopc32 c s
  | .popc64 c => Sys2Proof.Machine.execPopc64 c s
  | .bcount c => Sys2Proof.Machine.execBcount c s
  | .bidx32 c => Sys2Proof.Machine.execBidx32 c s
  | .bidx64 c => Sys2Proof.Machine.execBidx64 c s
  | .itinit c v it => Sys2Proof.Machine.execItinit c v it s
  | .itnext c it => Sys2Proof.Machine.execItnext c it s

end Sys2Proof.Machine
end

