-- ==== Sys2Proof/Machine/Port.lean ====
section
/-! DEFINITION. The host port: the register map, what a CMD write does, the host's accesses to data memory and
admission, and the reset input (spec/10_state.md R25, R36 to R38; spec/20_memory.md R52; spec/30_encoding.md R77, R78;
spec/70_reset_and_hazards.md R260, R261). -/

namespace Sys2Proof

/-- One bit of CFG. -/
def cfgBit (b : Bool) (at_ : Nat) : Nat := if b then 2 ^ at_ else 0

/-- CFG (10_state R26). -/
def Params.cfgWord (p : Params) : Word64 :=
  BitVec.ofNat 64 (0x01 + cfgBit (p.addrW == .w64) 8 + cfgBit (p.wordW == .w64) 9 + cfgBit (p.hostOrder == .be) 10
    + cfgBit p.copySlack 11 + p.nIterLess1.toNat * 2 ^ 12 + cfgBit (p.idxElem == .w64) 16 + cfgBit p.checkedMode 17)

end Sys2Proof

namespace Sys2Proof.Machine

/-- What stands at an offset of the register map (10_state R37). -/
inductive Slot where
  | cmd
  | status
  | res
  | cfg
  | operand (r : OpReg)
  | iterState (i : BitVec 4)
  | iterReg (i : BitVec 4) (f : IterReg)
  | reserved
  deriving DecidableEq, Repr

/-- A slot of the eight of context `i` (10_state R37). -/
def iterSlot (i : BitVec 4) (k : Nat) : Slot :=
  match k with
  | 0 => .iterState i
  | 1 => .iterReg i .itXor
  | 2 => .iterReg i .itWord
  | 3 => .iterReg i .itBase
  | 4 => .iterReg i .itNext
  | 5 => .iterReg i .itEnd
  | 6 => .iterReg i .itStart
  | _ => .reserved

/-- The register map below 0x100, by slot number (10_state R37). -/
def mainSlot (k : Nat) : Slot :=
  match k with
  | 0 => .cmd
  | 1 => .status
  | 2 => .res
  | 3 => .cfg
  | 4 => .operand .addr
  | 5 => .operand .src
  | 6 => .operand .pos
  | 7 => .operand .spos
  | 8 => .operand .len
  | 9 => .operand .val
  | _ => .reserved

/-- The register map (10_state R37), for an offset that is a multiple of 8. -/
def slotAt (p : Params) (offset : Nat) : Slot :=
  if offset < 0x100 then mainSlot (offset / 8)
  else if (offset - 0x100) / 0x40 < p.nIter then
    iterSlot (BitVec.ofNat 4 ((offset - 0x100) / 0x40)) ((offset - 0x100) % 0x40 / 8)
  else .reserved

/-- IT_STATE as a number (10_state R27). -/
def IterState.code : IterState → Word64
  | .uninit => 0
  | .positioned => 1
  | .exhausted => 2

/-- A register of a context. -/
def IterCtx.reg (x : IterCtx) : IterReg → Marked
  | .itXor => x.itXor
  | .itWord => x.itWord
  | .itBase => x.itBase
  | .itNext => x.itNext
  | .itEnd => x.itEnd
  | .itStart => x.itStart

/-- `OpReg <- v` by the host (10_state R21, R36). -/
def State.setOp (s : State) (r : OpReg) (v : Word64) : State :=
  match r with
  | .addr => { s with addr := .of v }
  | .src => { s with src := .of v }
  | .pos => { s with pos := .of v }
  | .spos => { s with spos := .of v }
  | .len => { s with len := .of v }
  | .val => { s with val := .of v }

/-- An illegal command changes STATUS only (30_encoding R78). -/
def illegal (s : State) : Result := endError .illegal s

/-- Issue a command word: CMD holds it, legal or not, and the command runs to its end (10_state R25, 30_encoding R77,
R78); a fault takes the word it records from there (log 17). -/
def issue (w : Word32) (s : State) : Result :=
  match decodeLegal s.params w with
  | some i => exec i { s with cmd := w }
  | none => illegal { s with cmd := w }

/-- The host has read a value (70_reset R270). -/
def observe (v : Word64) (s : State) : Result := .next { s with seen := s.seen ++ [v] }

/-- Read a register that carries a written mark: unwritten, it holds no value (10_state R36). -/
def readMarked (n : RegName) (m : Marked) (s : State) : Result :=
  if m.written then observe m.val s else .fault (.unwrittenRead n)

/-- A host read of a register (10_state R37). -/
def readSlot (x : Slot) (s : State) : Result :=
  match x with
  | .cmd => observe (s.cmd.setWidth 64) s
  | .status => observe s.status s
  | .res => readMarked .res s.res s
  | .cfg => observe s.params.cfgWord s
  | .operand r => readMarked (.operand r) (s.op r) s
  | .iterState i => observe (s.ctx i).itState.code s
  | .iterReg i f => readMarked (.iter i f) ((s.ctx i).reg f) s
  | .reserved => observe 0 s

/-- A host write of a register: CMD issues a command, an operand register takes the value, and any other register
ignores the write (10_state R37, R38). -/
def writeSlot (x : Slot) (v : Word64) (s : State) : Result :=
  match x with
  | .cmd => issue (v.setWidth 32) s
  | .operand r => .next (s.setOp r v)
  | .status => .next s
  | .res => .next s
  | .cfg => .next s
  | .iterState _ => .next s
  | .iterReg _ _ => .next s
  | .reserved => .next s

/-- A register access has a meaning only when it is 64 bits wide and at a multiple of 8 (10_state R38). -/
def regAccess (offset bytes : Nat) (k : Result) : Result :=
  if bytes = 8 ∧ offset % 8 = 0 then k else .refused (.registerAccess offset bytes)

/-- A host access to a byte of DMEM, or a change of its admission: the byte must exist, and where the register block is
mapped the access is a narrow register access (10_state R38). The spec leaves open what such an access or admission
change does (20_memory R63 says only that the host must not admit such a region): it is refused (DESIGN CHOICE,
log 13). Admission binds the engine, not the host. -/
def byteAccess (a : Nat) (s : State) (k : Result) : Result :=
  if s.params.space ≤ a then .refused (.noSuchAddress a)
  else if s.params.inBlock a then .refused (.registerAccess (a - s.params.engineBase.getD 0) 1)
  else k

/-- The reset input (10_state R42, 70_reset R260, R261): the engine's state takes its reset values; data memory, its
admission, the parameters and the host's own fields stay (log 10). -/
def resetEngine (s : State) : State :=
  { State.reset with
    params := s.params
    mem := s.mem
    perm := s.perm
    pending := s.pending
    seen := s.seen }

/-- One action of the host (10_state R37; 20_memory R52; 70_reset R260, R270). An access to a byte outside the space or
inside the mapped register block, a change of its admission among them, is refused (DESIGN CHOICE, log 13). -/
def hostAct (a : HostAction) (s : State) : Result :=
  match a with
  | .regWrite offset bytes v => regAccess offset bytes (writeSlot (slotAt s.params offset) v s)
  | .regRead offset bytes => regAccess offset bytes (readSlot (slotAt s.params offset) s)
  | .memWrite x b => byteAccess x s (.next (s.poke x b))
  | .memRead x => byteAccess x s (observe ((s.peek x).setWidth 64) s)
  | .setAdmission x p => byteAccess x s (.next (s.setPerm x p))
  | .resetInput => .next (resetEngine s)

/-- The host performs its next action; with none left the engine is idle and holds its state (60_exceptions R250,
70_reset R262, R270; log 12). -/
def hostStep (s : State) : Result :=
  match s.pending with
  | [] => .next s
  | a :: rest => hostAct a { s with pending := rest }

/-- The state that records how a step ended: a fault sets FAULT, after which no step follows (10_state R35,
60_exceptions R232; log 11). -/
def latch (s : State) : Result → State
  | .next t => t
  | .fault f => { s with fault := some f }
  | .refused _ => s

/-- A host write of a command word to CMD (10_state R25, R37). -/
def cmdWrite (w : Word32) : HostAction := .regWrite 0x000 8 (w.setWidth 64)

end Sys2Proof.Machine
end

