-- ==== Sys2Proof/Machine/Step.lean ====
section
/-! DEFINITION. One step of the machine: the host's next action, performed to its end (spec/20_memory.md R64), unless a
fault is recorded, after which nothing steps (spec/10_state.md R35); and the placing of a command word where the next
step fetches it. -/

namespace Sys2Proof.Machine

/-- One step. -/
def step (s : State) : Host.Outcome State Fault Refusal :=
  match s.fault with
  | some f => .fault f
  | none => hostStep s

/-- `s` with a CMD write of the word whose bits are the low `nbits` bits of `w` as the host's next action (log 1). -/
def State.withFetchWord (s : State) (nbits w : Nat) : State :=
  { s with pending := cmdWrite (BitVec.ofNat 32 (w % 2 ^ nbits)) :: s.pending }

end Sys2Proof.Machine
end

