-- ==== Sys2Proof/Safety.lean ====
section
/-! DEFINITION. The terms claims use: the premises under which a command completes, what a command may change, the
access sets of spec/20_memory.md R51, what a scan has still to return, and the invariant every step keeps. -/

namespace Sys2Proof

/-- The command is unchanged but for its `c` field. -/
def Instr.withChecked (c : Bool) : Instr → Instr
  | .ld8 _ => .ld8 c | .ld16 _ => .ld16 c | .ld32 _ => .ld32 c | .ld64 _ => .ld64 c
  | .ldf32 _ => .ldf32 c | .ldf64 _ => .ldf64 c | .ldbool _ => .ldbool c
  | .st8 _ => .st8 c | .st16 _ => .st16 c | .st32 _ => .st32 c | .st64 _ => .st64 c
  | .stf32 _ => .stf32 c | .stf64 _ => .stf64 c | .stbool _ => .stbool c
  | .btst _ => .btst c | .bset _ => .bset c | .bclr _ => .bclr c | .bmsize _ => .bmsize c
  | .bfill _ v => .bfill c v | .bcopy _ => .bcopy c
  | .ctz32 _ => .ctz32 c | .ctz64 _ => .ctz64 c | .clz32 _ => .clz32 c | .clz64 _ => .clz64 c
  | .popc32 _ => .popc32 c | .popc64 _ => .popc64 c | .bcount _ => .bcount c
  | .bidx32 _ => .bidx32 c | .bidx64 _ => .bidx64 c
  | .itinit _ v it => .itinit c v it | .itnext _ it => .itnext c it

end Sys2Proof

namespace Sys2Proof.Machine

/-! ### A run (70_reset R270) -/

/-- The run has ended well: no action is left and no fault is recorded (a refused access gives no state). -/
abbrev State.endsWell (s : State) : Prop := s.pending = [] ∧ s.fault = none

/-! ### Premises -/

/-- The operand registers a command reads have been written (10_state R36). -/
abbrev Written (s : State) (rs : List OpReg) : Prop := ∀ r ∈ rs, (s.op r).written = true

/-- An address or position bound is representable (60_exceptions R231). -/
abbrev Fits (s : State) (limit : Nat) : Prop := limit ≤ s.params.space

/-- A register is mapped at the address (20_memory R50): the block of 0x100 bytes and 0x40 for each context that exists
(10_state R37; log 6) lies over it. -/
abbrev RegisterMapped (s : State) (a : Nat) : Prop :=
  ∃ base ∈ s.params.engineBase, base ≤ a ∧ a < base + (0x100 + 0x40 * s.params.nIter)

/-- Every byte is admitted for reading. -/
abbrev AllRead (s : State) (as : List Nat) : Prop := ∀ a ∈ as, s.canRead a = true

/-- Every byte is admitted for writing. -/
abbrev AllWrite (s : State) (as : List Nat) : Prop := ∀ a ∈ as, s.canWrite a = true

/-- The span bytes that are only partly inside the range (00_scope R11, R12). -/
def partialAddrs (b p n : Nat) : List Nat := (spanAddrs b p n).filter (fun a => rangeMask p n (a - b) != 0xFF)

/-- The last position and the last byte of a bit range are representable (43 R150). -/
abbrev RangeFits (s : State) (b p n : Nat) : Prop := Fits s (p + n) ∧ Fits s (b + (p + n - 1) / 8 + 1)

/-! ### What a command may change -/

/-- Apart from RES and STATUS, `t` differs from `s` only in the bytes at `as`, and in the invalidation marks that a write
to those bytes sets (20_memory R54). -/
def WritesOnly (as : List Nat) (s t : State) : Prop :=
  t = { s with mem := t.mem, iters := t.iters, res := t.res, status := t.status } ∧
  (∀ a, a ∉ as → t.peek a = s.peek a) ∧
  ∀ i, t.ctx i = { s.ctx i with
    itInv := (s.ctx i).itInv || (decide ((s.ctx i).itState = .positioned) && as.any (s.ctx i).covers) }

/-! ### Access sets (20_memory R51) -/

/-- The bytes a command may write. -/
def writeSet (i : Instr) (s : State) : List Nat :=
  match i with
  | .st8 _ | .stbool _ => accessAddrs (s.use .addr) 1
  | .st16 _ => accessAddrs (s.use .addr) 2
  | .st32 _ | .stf32 _ => accessAddrs (s.use .addr) 4
  | .st64 _ | .stf64 _ => accessAddrs (s.use .addr) 8
  | .bset _ | .bclr _ => [s.use .addr + s.use .pos / 8]
  | .bfill _ _ | .bcopy _ => spanAddrs (s.use .addr) (s.use .pos) (s.use .len)
  | .bidx32 _ => accessAddrs (s.use .addr) (idxBytes s * popcount 32 s.val32.getLsbD)
  | .bidx64 _ => accessAddrs (s.use .addr) (idxBytes s * popcount 64 s.val64.getLsbD)
  | .ld8 _ | .ld16 _ | .ld32 _ | .ld64 _ | .ldf32 _ | .ldf64 _ | .ldbool _ => []
  | .btst _ | .bmsize _ | .ctz32 _ | .ctz64 _ | .clz32 _ | .clz64 _ => []
  | .popc32 _ | .popc64 _ | .bcount _ | .itinit _ _ _ | .itnext _ _ => []

/-- The bytes a command may read. For ITNEXT these are the words still to load, all below IT_END. -/
def readSet (i : Instr) (s : State) : List Nat :=
  match i with
  | .ld8 _ | .ldbool _ => accessAddrs (s.use .addr) 1
  | .ld16 _ => accessAddrs (s.use .addr) 2
  | .ld32 _ | .ldf32 _ => accessAddrs (s.use .addr) 4
  | .ld64 _ | .ldf64 _ => accessAddrs (s.use .addr) 8
  | .btst _ | .bset _ | .bclr _ => [s.use .addr + s.use .pos / 8]
  | .bfill _ _ => partialAddrs (s.use .addr) (s.use .pos) (s.use .len)
  | .bcopy _ =>
    spanAddrs (s.use .src) (s.use .spos) (s.use .len) ++ partialAddrs (s.use .addr) (s.use .pos) (s.use .len)
  | .bcount _ => spanAddrs (s.use .addr) (s.use .pos) (s.use .len)
  | .itinit _ _ _ =>
    if s.use .len = 0 then [] else accessAddrs (s.use .addr) (firstChunk s.params (s.use .len))
  | .itnext _ it =>
    accessAddrs (s.ctx it).itNext.val.toNat
      (s.params.wb * wordsLeft s.params (s.ctx it).itNext.val.toNat (s.ctx it).itEnd.val.toNat)
  | .st8 _ | .st16 _ | .st32 _ | .st64 _ | .stf32 _ | .stf64 _ | .stbool _ => []
  | .bmsize _ | .ctz32 _ | .ctz64 _ | .clz32 _ | .clz64 _ | .popc32 _ | .popc64 _ | .bidx32 _ | .bidx64 _ => []

/-! ### What a scan has still to return -/

/-- The address of byte 0 of a context's buffer. -/
def IterCtx.base (x : IterCtx) : Nat := x.itStart.val.toNat

/-- The byte length of a context's buffer. -/
def IterCtx.size (x : IterCtx) : Nat := x.itEnd.val.toNat - x.itStart.val.toNat

/-- The bytes of a context's buffer already loaded. -/
def IterCtx.loaded (x : IterCtx) : Nat := x.itNext.val.toNat - x.itStart.val.toNat

/-- A hit of the scan (47 R206): a 1 bit in set mode, a 0 bit in clear mode. -/
def isHit (s : State) (x : IterCtx) (q : Nat) : Bool := s.bitAt x.base q == (x.itXor.val == 0)

/-- Position `q` is among those the scan has still to look at: its bit of IT_WORD is set, or it has not been loaded. -/
def undrained (x : IterCtx) (q : Nat) : Bool :=
  (decide (x.itBase.val.toNat ≤ q) && x.itWord.val.getLsbD (q - x.itBase.val.toNat)) || decide (8 * x.loaded ≤ q)

/-- The hits a scan has still to return, ascending. -/
def remaining (s : State) (x : IterCtx) : List Nat :=
  (List.range (8 * x.size)).filter (fun q => isHit s x q && undrained x q)

/-- Every hit of the buffer of `sz` bytes at `b`, ascending; `v = 1` set mode, `v = 0` clear mode (47 R206). -/
def allHits (s : State) (b sz : Nat) (v : Bool) : List Nat := (List.range (8 * sz)).filter (fun q => s.bitAt b q == v)

/-- The results of `n` ITNEXT commands issued one after the other on a context, where each of them answers a next
state. -/
def scanResults (c : Bool) (it : BitVec 4) : Nat → State → Option (List Word64)
  | 0, _ => some []
  | n + 1, s =>
    match exec (.itnext c it) s with
    | .next t => (scanResults c it n t).map (fun rs => t.res.val :: rs)
    | .fault _ => none
    | .refused _ => none

/-! ### The invariant -/

/-- STATUS holds only what 10_state R40 and 60_exceptions R236 let it hold. -/
abbrev statusLegal (v : Word64) : Prop := v.toNat ≤ 6 ∨ v = statusNone

/-- All registers of a context have been written (10_state R36). -/
abbrev IterCtx.allWritten (x : IterCtx) : Prop :=
  x.itXor.written = true ∧ x.itWord.written = true ∧ x.itBase.written = true ∧ x.itNext.written = true ∧
    x.itEnd.written = true ∧ x.itStart.written = true

/-- A buffer ITINIT accepts (47 R209), with the mode's mask (10_state R29). -/
abbrev IterCtx.bufferOk (p : Params) (x : IterCtx) : Prop :=
  (x.itXor.val = 0 ∨ x.itXor.val = p.wordOnes) ∧ x.itStart.val.toNat ≤ x.itEnd.val.toNat ∧
    x.itEnd.val.toNat < p.space ∧ x.size < sizeLimit p

/-- The byte length of the chunk loaded last (10_state R31). -/
def IterCtx.chunk (p : Params) (x : IterCtx) : Nat :=
  if x.loaded = x.size % p.wb ∧ x.size % p.wb ≠ 0 then x.size % p.wb else p.wb

/-- The cursor of a POSITIONED context (10_state R31). -/
abbrev IterCtx.cursorOk (p : Params) (x : IterCtx) : Prop :=
  x.itStart.val.toNat ≤ x.itNext.val.toNat ∧ x.itNext.val.toNat ≤ x.itEnd.val.toNat ∧
    (x.itEnd.val.toNat - x.itNext.val.toNat) % p.wb = 0 ∧ x.chunk p ≤ x.loaded ∧
    x.itBase.val.toNat = 8 * (x.loaded - x.chunk p)

/-- Every bit of IT_WORD stands for a position of the chunk loaded last and, while the buffer is unchanged, for a hit
(10_state R30). -/
abbrev IterCtx.wordOk (s : State) (x : IterCtx) : Prop :=
  ∀ j < 64, x.itWord.val.getLsbD j = true →
    x.itBase.val.toNat + j < 8 * x.loaded ∧ (x.itInv = false → isHit s x (x.itBase.val.toNat + j) = true)

/-- A context as ITINIT and ITNEXT leave it (10_state R28 to R32). -/
abbrev CtxOk (s : State) (x : IterCtx) : Prop :=
  (x.itState = .uninit → x = IterCtx.reset) ∧
  (x.itState = .positioned → x.allWritten ∧ x.bufferOk s.params ∧ x.cursorOk s.params ∧ x.wordOk s) ∧
  (x.itState = .exhausted → x.allWritten ∧ x.bufferOk s.params ∧ x.itWord.val = 0 ∧
    x.itEnd.val.toNat ≤ x.itNext.val.toNat ∧ x.itInv = false)

/-- What every step keeps: memory and admission in canonical form, a legal STATUS, contexts as the iterator commands
leave them, and the slots of contexts that do not exist untouched. -/
structure Inv (s : State) : Prop where
  /-- DMEM is in canonical form (log 3). -/
  mem : cellsWf unlistedByte s.params.space s.mem
  /-- Admission is in canonical form (log 4). -/
  perm : cellsWf Perm.closed s.params.space s.perm
  /-- STATUS is legal (10_state R24, R40). -/
  status : statusLegal s.status
  /-- Every context is legal (10_state R28 to R32). -/
  contexts : ∀ i, CtxOk s (s.ctx i)
  /-- Contexts at and above N_ITER do not exist (10_state R27). -/
  absent : ∀ i : BitVec 4, s.params.nIter ≤ i.toNat → s.ctx i = IterCtx.reset

/-! ### The spec's own tables and sums, as the statements cite them -/

/-- The opcode table as 30_encoding R76 prints it: opcode and match value, mask, and the command of the free fields
`c`, `v`, `it`. -/
def opcodeRows : List (Word32 × Word32 × (Bool → Bool → BitVec 4 → Instr)) :=
  [(0x00000001, 0xFFFFFEFF, fun c _ _ => .ld8 c), (0x00000002, 0xFFFFFEFF, fun c _ _ => .ld16 c),
    (0x00000003, 0xFFFFFEFF, fun c _ _ => .ld32 c), (0x00000004, 0xFFFFFEFF, fun c _ _ => .ld64 c),
    (0x00000005, 0xFFFFFEFF, fun c _ _ => .ldf32 c), (0x00000006, 0xFFFFFEFF, fun c _ _ => .ldf64 c),
    (0x00000007, 0xFFFFFEFF, fun c _ _ => .ldbool c), (0x00000009, 0xFFFFFEFF, fun c _ _ => .st8 c),
    (0x0000000A, 0xFFFFFEFF, fun c _ _ => .st16 c), (0x0000000B, 0xFFFFFEFF, fun c _ _ => .st32 c),
    (0x0000000C, 0xFFFFFEFF, fun c _ _ => .st64 c), (0x0000000D, 0xFFFFFEFF, fun c _ _ => .stf32 c),
    (0x0000000E, 0xFFFFFEFF, fun c _ _ => .stf64 c), (0x0000000F, 0xFFFFFEFF, fun c _ _ => .stbool c)] ++
  [(0x00000010, 0xFFFFFEFF, fun c _ _ => .btst c), (0x00000011, 0xFFFFFEFF, fun c _ _ => .bset c),
    (0x00000012, 0xFFFFFEFF, fun c _ _ => .bclr c), (0x00000013, 0xFFFFFEFF, fun c _ _ => .bmsize c),
    (0x00000020, 0xFFFFFCFF, fun c v _ => .bfill c v), (0x00000028, 0xFFFFFEFF, fun c _ _ => .bcopy c),
    (0x00000030, 0xFFFFFEFF, fun c _ _ => .ctz32 c), (0x00000031, 0xFFFFFEFF, fun c _ _ => .ctz64 c),
    (0x00000032, 0xFFFFFEFF, fun c _ _ => .clz32 c), (0x00000033, 0xFFFFFEFF, fun c _ _ => .clz64 c),
    (0x00000038, 0xFFFFFEFF, fun c _ _ => .popc32 c), (0x00000039, 0xFFFFFEFF, fun c _ _ => .popc64 c),
    (0x0000003A, 0xFFFFFEFF, fun c _ _ => .bcount c), (0x00000040, 0xFFFFFEFF, fun c _ _ => .bidx32 c),
    (0x00000041, 0xFFFFFEFF, fun c _ _ => .bidx64 c), (0x00000048, 0xFFFF0CFF, fun c v it => .itinit c v it),
    (0x00000049, 0xFFFF0EFF, fun c _ it => .itnext c it)]

/-- The opcodes of 30_encoding R76. -/
def legalOpcodes : List Nat :=
  [0x01, 0x02, 0x03, 0x04, 0x05, 0x06, 0x07, 0x09, 0x0A, 0x0B, 0x0C, 0x0D, 0x0E, 0x0F, 0x10, 0x11, 0x12, 0x13, 0x20,
    0x28, 0x30, 0x31, 0x32, 0x33, 0x38, 0x39, 0x3A, 0x40, 0x41, 0x48, 0x49]

/-- The list of 30_encoding R77, in its own order, on the numbers of the fields. -/
def illegalWord (p : Params) (w : Word32) : Prop :=
  let opc := w.toNat % 256
  let it := w.toNat / 2 ^ 12 % 16
  opc ∉ legalOpcodes ∨
  (w.toNat / 2 ^ 10 % 4 ≠ 0 ∨ w.toNat / 2 ^ 16 ≠ 0) ∨
  (w.toNat / 2 ^ 9 % 2 = 1 ∧ opc ≠ 0x20 ∧ opc ≠ 0x48) ∨
  (it ≠ 0 ∧ opc ≠ 0x48 ∧ opc ≠ 0x49) ∨
  (p.nIter ≤ it ∧ (opc = 0x48 ∨ opc = 0x49)) ∨
  (w.toNat / 2 ^ 8 % 2 = 1 ∧ p.checkedMode = false)

/-- The engine's state after reset (10_state R42), but for CFG, which is computed from the parameters. -/
def engineReset (s : State) : Prop :=
  (∀ r, (s.op r).written = false) ∧ s.res.written = false ∧ s.status = 0 ∧ s.cmd = 0 ∧
  (∀ i, (s.ctx i).itState = .uninit ∧ (s.ctx i).itInv = false ∧ ∀ f, ((s.ctx i).reg f).written = false) ∧
  s.fault = none

/-- The STATUS code that the checked mode gives a fault reason, and none for MEM, UNWRITTEN and ITER_INVALID (60 R236,
R237). -/
def checkedCode : Fault → Option Word64
  | .zeroInput _ => some 2
  | .overlap _ => some 3
  | .range _ => some 4
  | .iterUninit _ _ => some 5
  | .boolRepr _ _ => some 6
  | .unwritten _ _ => none
  | .unwrittenRead _ => none
  | .mem _ _ => none
  | .iterInvalid _ _ => none

/-- The weight of byte `k` of `n` in a byte order (20_memory R56). -/
def byteWeight (o : ByteOrder) (n k : Nat) : Nat :=
  match o with
  | .le => 2 ^ (8 * k)
  | .be => 2 ^ (8 * (n - 1 - k))

/-- `LoadO(a, n, O)` as 20_memory R56 writes it. -/
def loadO (s : State) (a n : Nat) (o : ByteOrder) : Nat :=
  ((List.range n).map (fun k => (s.peek (a + k)).toNat * byteWeight o n k)).sum

/-- How a command that fails a check of kind RANGE ends (60_exceptions R237). -/
def rangeStop (c : Bool) (s : State) : Result :=
  if c then .next { s with status := 4 } else .fault (.range s.cmd)

/-- The premises under which BCOPY completes a copy of at least one bit (44 R160). -/
abbrev CopyReady (s : State) : Prop :=
  Written s [.addr, .src, .pos, .spos, .len] ∧ 0 < s.use .len ∧
  RangeFits s (s.use .addr) (s.use .pos) (s.use .len) ∧ RangeFits s (s.use .src) (s.use .spos) (s.use .len) ∧
  (∀ a ∈ spanAddrs (s.use .addr) (s.use .pos) (s.use .len),
    a ∉ spanAddrs (s.use .src) (s.use .spos) (s.use .len)) ∧
  AllRead s (spanAddrs (s.use .src) (s.use .spos) (s.use .len)) ∧
  AllRead s (partialAddrs (s.use .addr) (s.use .pos) (s.use .len)) ∧
  AllWrite s (spanAddrs (s.use .addr) (s.use .pos) (s.use .len)) ∧
  (s.params.copySlack = true → 0 < s.use .src + s.use .spos / 8 ∧
    s.canRead (s.use .src + s.use .spos / 8 - 1) = true ∧
    s.canRead (s.use .src + (s.use .spos + s.use .len - 1) / 8 + 1) = true)

/-- The premises under which ITINIT completes (47 R209, R210). -/
abbrev ScanReady (s : State) : Prop :=
  Written s [.addr, .len] ∧ s.use .len < s.params.space / 8 ∧ s.use .addr + s.use .len < s.params.space ∧
  (0 < s.use .len → AllRead s (accessAddrs (s.use .addr) (firstChunk s.params (s.use .len))))

/-- The premises under which ITNEXT completes: a context that ITINIT and ITNEXT left as they leave it, not UNINIT, not
invalidated, with the bytes not yet loaded readable (47 R211, R212). -/
abbrev NextReady (s : State) (it : BitVec 4) : Prop :=
  CtxOk s (s.ctx it) ∧ (s.ctx it).itState ≠ .uninit ∧ (s.ctx it).itInv = false ∧
  ∀ k < (s.ctx it).itEnd.val.toNat - (s.ctx it).itNext.val.toNat, s.canRead ((s.ctx it).itNext.val.toNat + k) = true

end Sys2Proof.Machine
end

