-- ==== Sys2Proof/Certificates/Slice0/Obligations.lean ====
section
/-! DEFINITION. The statements for the provers, one `def Obligations.<Name> : Prop` each; each docstring names the rules
of spec/ it formalises. -/

open Sys2Proof Sys2Proof.Machine

/-! ### Encoding (30_encoding) -/

/-- R70, R76: the decoder gives back every command from its word, with every field at every value. -/
def Obligations.DecodeOfEncode : Prop := ∀ i : Instr, decode (encode i) = .ok i

/-- R70, R76: a word that decodes is the one word of its command; the decoder drops no bit. -/
def Obligations.EncodeOfDecode : Prop := ∀ (w : Word32) (i : Instr), decode w = .ok i → encode i = w

/-- R76: a word that matches a row of the opcode table is that row's command, with the fields of the word, and a word
that matches no row is no command; in particular the all-zero word. -/
def Obligations.DecodeAgreesWithOpcodeTable : Prop :=
  ∀ w : Word32,
    (∀ row ∈ opcodeRows, w &&& row.2.1 = row.1 →
      decode w = .ok (row.2.2 (w.getLsbD 8) (w.getLsbD 9) (w.extractLsb' 12 4))) ∧
    ((∀ row ∈ opcodeRows, w &&& row.2.1 ≠ row.1) → ∃ r, decode w = .error r) ∧ ∃ r, decode 0 = .error r

/-- R77: a word has no command on an instance exactly when one of the rule's conditions holds; they speak of the word
and the parameters only. -/
def Obligations.IllegalExactlyAsListed : Prop :=
  ∀ (p : Params) (w : Word32), decodeLegal p w = none ↔ illegalWord p w

/-- R78: an illegal command, in either mode, changes STATUS to 1 and CMD to the word written, and nothing else. -/
def Obligations.IllegalCommandChangesStatusAndCmd : Prop :=
  ∀ (s : State) (v : Word64) (rest : List HostAction), s.fault = none → s.pending = .regWrite 0x000 8 v :: rest →
    illegalWord s.params (v.setWidth 32) →
    step s = .next { s with pending := rest, cmd := v.setWidth 32, status := 1 }

/-- R25, R64: a CMD write of a legal command word runs exactly that command, as one step, on the state in which CMD
holds the word `v[31:0]` and the write is no longer to come. -/
def Obligations.StepRunsDecodedCommand : Prop :=
  ∀ (s : State) (v : Word64) (rest : List HostAction) (i : Instr), s.fault = none →
    s.pending = .regWrite 0x000 8 v :: rest → decodeLegal s.params (v.setWidth 32) = some i →
    step s = exec i { s with pending := rest, cmd := v.setWidth 32 }

/-- R81, R82: the words the rules print. -/
def Obligations.PrintedWordsDecode : Prop :=
  decode 0x00000003 = .ok (.ld32 false) ∧ decode 0x00000103 = .ok (.ld32 true) ∧
  decode 0x00000020 = .ok (.bfill false false) ∧ decode 0x00000220 = .ok (.bfill false true) ∧
  decode 0x00000320 = .ok (.bfill true true) ∧ decode 0x00002048 = .ok (.itinit false false 2) ∧
  decode 0x00000248 = .ok (.itinit false true 0) ∧ decode 0x00003149 = .ok (.itnext true 3)

/-! ### Reset and the whole machine (10_state, 60_exceptions, 70_reset) -/

/-- R42: the reset state has the values the rule lists. -/
def Obligations.ResetValuesAsListed : Prop := engineReset State.reset ∧ State.reset.params = Params.default

/-- R260, R261: the reset input gives the engine its reset values whatever state it was in, changes neither data memory
nor admission, and ends every scan: ITNEXT then faults, or reports ITER_STATE in checked mode. -/
def Obligations.ResetInputKeepsMemory : Prop :=
  ∀ (s : State) (rest : List HostAction), s.fault = none → s.pending = .resetInput :: rest →
    ∃ t, step s = .next t ∧ engineReset t ∧ t.params = s.params ∧ t.mem = s.mem ∧ t.perm = s.perm ∧
      ∀ it, exec (.itnext false it) t = .fault (.iterUninit it 0) ∧
        exec (.itnext true it) t = .next { t with status := 5 }

/-- The reset state meets the invariant. -/
def Obligations.ResetMeetsInv : Prop := Inv State.reset

/-- 10_state R27 to R32, R24, R40, 20_memory R50, R54: from every state that meets the invariant, whatever the host's
next action, a next state meets it. -/
def Obligations.StepKeepsInv : Prop := ∀ s t : State, Inv s → step s = .next t → Inv t

/-- R35, R232: once a step has faulted and the fault is recorded, no step follows. -/
def Obligations.FaultIsQuiescent : Prop :=
  ∀ (s : State) (f : Fault), step s = .fault f → (latch s (step s)).fault = some f ∧
    ∀ n, Sys2Proof.core.run (n + 1) (latch s (step s)) = .fault f

/-- R21: no command writes an operand register, nor CMD, the parameters, admission, FAULT or the host's fields. -/
def Obligations.CommandsKeepOperandRegisters : Prop :=
  ∀ (i : Instr) (s t : State), exec i s = .next t →
    t = { s with res := t.res, status := t.status, iters := t.iters, mem := t.mem }

/-- R28: only ITINIT and ITNEXT change IT_STATE or any register of a context, and only of the context they name; any
other command can only set invalidation marks. -/
def Obligations.OnlyIteratorCommandsMoveContexts : Prop :=
  ∀ (i : Instr) (s t : State) (j : BitVec 4), exec i s = .next t → t.ctx j ≠ s.ctx j →
    (∃ c v, i = .itinit c v j) ∨ (∃ c, i = .itnext c j) ∨ t.ctx j = { s.ctx j with itInv := true }

/-- R234, R235, R236, R237: the checked command answers what the unchecked one does, except that a fault whose reason
has a code becomes that STATUS with nothing else changed; no command is refused. -/
def Obligations.CheckedCommandReportsFaults : Prop :=
  ∀ (i : Instr) (s : State),
    (∃ t, exec (i.withChecked false) s = .next t ∧ exec (i.withChecked true) s = .next t) ∨
    (∃ f e, exec (i.withChecked false) s = .fault f ∧ checkedCode f = some e ∧
      exec (i.withChecked true) s = .next { s with status := e }) ∨
    (∃ f, exec (i.withChecked false) s = .fault f ∧ checkedCode f = none ∧ exec (i.withChecked true) s = .fault f)

/-- R40: the STATUS a command ends with: NONE only from an ITNEXT that returns it, an error code only in checked mode,
else 0. -/
def Obligations.StatusOfEveryEnding : Prop :=
  ∀ (i : Instr) (s t : State), exec i s = .next t →
    t.status = 0 ∨
    (t.status = 0x100 ∧ t.res = ⟨s.params.noneValue, true⟩ ∧ ∃ c it, i = .itnext c it) ∨
    (i.checked = true ∧ t.status ∈ [2, 3, 4, 5, 6] ∧ t = { s with status := t.status })

/-- R51: no command writes a byte outside its access set. -/
def Obligations.WritesStayInAccessSet : Prop :=
  ∀ (i : Instr) (s t : State) (a : Nat), exec i s = .next t → a ∉ writeSet i s → t.peek a = s.peek a

/-- R51: no command reads a byte outside its access set: two states that differ only in memory, and agree on the bytes
the command may read, give the same outcome and no other difference than memory; where the command completes it leaves
the same bytes in its write set, and every other byte is as it was. -/
def Obligations.ReadsStayInAccessSet : Prop :=
  ∀ (i : Instr) (s : State) (m : List Host.Cell), (∀ a ∈ readSet i s, ({ s with mem := m } : State).peek a = s.peek a) →
    match exec i s with
    | .next t => ∃ m', exec i { s with mem := m } = .next { t with mem := m' } ∧
        ∀ a, ({ t with mem := m' } : State).peek a =
          if t.status = 0 ∧ a ∈ writeSet i s then t.peek a else ({ s with mem := m } : State).peek a
    | .fault f => exec i { s with mem := m } = .fault f
    | .refused r => exec i { s with mem := m } = .refused r

/-! ### The host port (10_state) -/

/-- R34: a host write to a byte, and a host taking an admission mark away from it, sets the invalidation mark of exactly
the POSITIONED contexts whose buffer holds the byte. -/
def Obligations.HostWriteInvalidatesScans : Prop :=
  ∀ (s t : State) (act : HostAction) (rest : List HostAction) (a : Nat), s.fault = none → s.pending = act :: rest →
    ((∃ b, act = .memWrite a b) ∨
      ∃ p, act = .setAdmission a p ∧ ((s.permAt a).read = true ∧ p.read = false ∨
        (s.permAt a).write = true ∧ p.write = false)) →
    step s = .next t → ∀ i, t.ctx i = if (s.ctx i).itState = .positioned ∧ (s.ctx i).itStart.val.toNat ≤ a ∧
        a < (s.ctx i).itEnd.val.toNat then { s.ctx i with itInv := true } else s.ctx i

/-- R34, R50, R52, R54, R270: the host writes a byte, reads a byte and sets a byte's admission marks, each as one step,
where the address exists and no register is mapped there. A write changes that byte and the marks of the scans over it;
an admission change sets that byte's two marks, changes no memory, invalidates exactly the scans over the byte where a
mark is taken away (log 7), and changes no context at all where marks are only granted. That admission does not bind the
host is the model's choice (log 13), and so is the size of the block (log 6). -/
def Obligations.HostReachesMemory : Prop :=
  ∀ (s : State) (a : Nat) (rest : List HostAction), s.fault = none → a < s.params.space → ¬ RegisterMapped s a →
    (∀ b, s.pending = .memWrite a b :: rest → ∃ t, step s = .next t ∧ t.peek a = b ∧
      WritesOnly [a] { s with pending := rest } t ∧ t.res = s.res ∧ t.status = s.status) ∧
    (s.pending = .memRead a :: rest →
      step s = .next { s with pending := rest, seen := s.seen ++ [(s.peek a).setWidth 64] }) ∧
    (∀ p, s.pending = .setAdmission a p :: rest → ∃ t, step s = .next t ∧ t.permAt a = p ∧
      (∀ x, x ≠ a → t.permAt x = s.permAt x) ∧ t = { s with pending := rest, perm := t.perm, iters := t.iters } ∧
      ∀ i, t.ctx i = if ((s.permAt a).read = true ∧ p.read = false ∨ (s.permAt a).write = true ∧ p.write = false) ∧
          (s.ctx i).itState = .positioned ∧ (s.ctx i).itStart.val.toNat ≤ a ∧ a < (s.ctx i).itEnd.val.toNat
        then { s.ctx i with itInv := true } else s.ctx i)

/-- R36: a host read of an unwritten register faults, and a written one gives its value; both for the operand
registers, RES and the registers of a context that exists, at the offsets of R37. -/
def Obligations.MarkedRegisterReads : Prop :=
  ∀ (s : State) (offset : Nat) (rest : List HostAction) (n : RegName) (m : Marked), s.fault = none →
    s.pending = .regRead offset 8 :: rest →
    ((∃ k r, (k, r) ∈ [(0, OpReg.addr), (1, .src), (2, .pos), (3, .spos), (4, .len), (5, .val)] ∧
        offset = 0x020 + 8 * k ∧ n = .operand r ∧ m = s.op r) ∨
      (offset = 0x010 ∧ n = .res ∧ m = s.res) ∨
      (∃ (i : BitVec 4) (k : Nat) (f : IterReg), i.toNat < s.params.nIter ∧
        (k, f) ∈ [(1, IterReg.itXor), (2, .itWord), (3, .itBase), (4, .itNext), (5, .itEnd), (6, .itStart)] ∧
        offset = 0x100 + 0x40 * i.toNat + 8 * k ∧ n = .iter i f ∧ m = (s.ctx i).reg f)) →
    step s = if m.written then .next { s with pending := rest, seen := s.seen ++ [m.val] }
      else .fault (.unwrittenRead n)

/-- R25, R37: a host read of CMD, STATUS, CFG, IT_STATE or a reserved offset gives the value the map says. -/
def Obligations.UnmarkedRegisterReads : Prop :=
  ∀ (s : State) (offset : Nat) (rest : List HostAction) (v : Word64), s.fault = none →
    s.pending = .regRead offset 8 :: rest →
    ((offset = 0x000 ∧ v = s.cmd.setWidth 64) ∨ (offset = 0x008 ∧ v = s.status) ∨
      (offset = 0x018 ∧ v = s.params.cfgWord) ∨
      (∃ i : BitVec 4, i.toNat < s.params.nIter ∧ offset = 0x100 + 0x40 * i.toNat ∧ v = match (s.ctx i).itState with
        | .uninit => 0 | .positioned => 1 | .exhausted => 2) ∨
      (offset % 8 = 0 ∧ v = 0 ∧ (0x050 ≤ offset ∧ offset < 0x100 ∨
        (∃ i, i < s.params.nIter ∧ offset = 0x100 + 0x40 * i + 0x38) ∨ 0x100 + 0x40 * s.params.nIter ≤ offset))) →
    step s = .next { s with pending := rest, seen := s.seen ++ [v] }

/-- R21, R37, R38: a host write to an operand register sets it and its written mark; a host write anywhere else in the
map but to CMD is ignored, the written marks included. -/
def Obligations.RegisterWrites : Prop :=
  ∀ (s : State) (offset : Nat) (v : Word64) (rest : List HostAction), s.fault = none →
    s.pending = .regWrite offset 8 v :: rest → offset % 8 = 0 → offset ≠ 0x000 →
    step s = .next { s with
      pending := rest
      addr := if offset = 0x020 then ⟨v, true⟩ else s.addr
      src := if offset = 0x028 then ⟨v, true⟩ else s.src
      pos := if offset = 0x030 then ⟨v, true⟩ else s.pos
      spos := if offset = 0x038 then ⟨v, true⟩ else s.spos
      len := if offset = 0x040 then ⟨v, true⟩ else s.len
      val := if offset = 0x048 then ⟨v, true⟩ else s.val }

/-- R38: a host access that is narrower than 64 bits, or at an offset that is not a multiple of 8, is refused. -/
def Obligations.NarrowAccessRefused : Prop :=
  ∀ (s : State) (act : HostAction) (offset bytes : Nat) (v : Word64) (rest : List HostAction), s.fault = none →
    s.pending = act :: rest → act = .regWrite offset bytes v ∨ act = .regRead offset bytes →
    bytes < 8 ∨ offset % 8 ≠ 0 → step s = .refused (.registerAccess offset bytes)

/-- R26: every field of CFG, for every instance. -/
def Obligations.CfgReportsParameters : Prop :=
  ∀ p : Params,
    p.cfgWord.extractLsb' 0 8 = 0x01#8 ∧ p.cfgWord.getLsbD 8 = (p.addrW == .w64) ∧
    p.cfgWord.getLsbD 9 = (p.wordW == .w64) ∧ p.cfgWord.getLsbD 10 = (p.hostOrder == .be) ∧
    p.cfgWord.getLsbD 11 = p.copySlack ∧ (p.cfgWord.extractLsb' 12 4).toNat = p.nIter - 1 ∧
    p.cfgWord.getLsbD 16 = (p.idxElem == .w64) ∧ p.cfgWord.getLsbD 17 = p.checkedMode ∧
    p.cfgWord.extractLsb' 18 46 = 0#46

/-! ### Loads and stores (41_unaligned_access) -/

/-- R102 to R107, with R56: a load whose bytes exist and are readable puts the number they stand for in HOST_ORDER,
zero-extended, into RES and 0 into STATUS, and changes nothing else. -/
def Obligations.LoadsReadHostOrder : Prop :=
  ∀ (load : Bool → Instr) (n : Nat),
    (load, n) ∈ [(Instr.ld8, 1), (Instr.ld16, 2), (Instr.ld32, 4), (Instr.ld64, 8), (Instr.ldf32, 4),
      (Instr.ldf64, 8)] →
    ∀ (c : Bool) (s : State), Written s [.addr] → Fits s (s.use .addr + n) → AllRead s (accessAddrs (s.use .addr) n) →
    exec (load c) s =
      .next { s with res := ⟨BitVec.ofNat 64 (loadO s (s.use .addr) n s.params.hostOrder), true⟩, status := 0 }

/-- R109 to R115, with R56 and R54: a store whose bytes exist and are writable leaves byte `k` of the low `8n` bits of
VAL, in HOST_ORDER, at address ADDR + k; every other byte, RES and every other register stays, STATUS is 0, and the
scans over the bytes are invalidated. -/
def Obligations.StoresWriteHostOrder : Prop :=
  ∀ (store : Bool → Instr) (n : Nat),
    (store, n) ∈ [(Instr.st8, 1), (Instr.st16, 2), (Instr.st32, 4), (Instr.st64, 8), (Instr.stf32, 4),
      (Instr.stf64, 8)] →
    ∀ (c : Bool) (s : State), Written s [.addr, .val] → Fits s (s.use .addr + n) →
    AllWrite s (accessAddrs (s.use .addr) n) →
    ∃ t, exec (store c) s = .next t ∧
      (∀ k < n, t.peek (s.use .addr + k) =
        BitVec.ofNat 8 (s.val.val.toNat / byteWeight s.params.hostOrder n k)) ∧
      WritesOnly (accessAddrs (s.use .addr) n) s t ∧ t.res = s.res ∧ t.status = 0

/-- R118: a store of width `n` followed by the load of the same width at the same address returns the low `8n` bits of
VAL, zero-extended, in either byte order; STBOOL then LDBOOL returns whether VAL is not 0. -/
def Obligations.StoreThenLoadReturnsValue : Prop :=
  ∀ (store load : Bool → Instr) (n : Nat) (val : State → Nat),
    ((store, load, n) ∈ [(Instr.st8, Instr.ld8, 1), (.st16, .ld16, 2), (.st32, .ld32, 4), (.st64, .ld64, 8),
        (.stf32, .ldf32, 4), (.stf64, .ldf64, 8)] ∧ (∀ s, val s = s.val.val.toNat % 2 ^ (8 * n)) ∨
      (store, load, n) = (.stbool, .ldbool, 1) ∧ ∀ s, val s = if s.val.val = 0 then 0 else 1) →
    ∀ (c c' : Bool) (s t : State), Fits s (s.use .addr + n) → exec (store c) s = .next t →
    AllRead s (accessAddrs (s.use .addr) n) →
    exec (load c') t = .next { t with res := ⟨BitVec.ofNat 64 (val s), true⟩, status := 0 }

/-- R108: LDBOOL of a byte 0 or 1 puts it into RES; of any other byte it faults BOOL_REPR with the address, and in
checked mode reports it. -/
def Obligations.LdboolReadsZeroOrOne : Prop :=
  ∀ (c : Bool) (s : State), Written s [.addr] → Fits s (s.use .addr + 1) → s.canRead (s.use .addr) = true →
    exec (.ldbool c) s =
      if s.peek (s.use .addr) = 0 then .next { s with res := ⟨0, true⟩, status := 0 }
      else if s.peek (s.use .addr) = 1 then .next { s with res := ⟨1, true⟩, status := 0 }
      else if c then .next { s with status := 6 }
      else .fault (.boolRepr (s.use .addr) s.cmd)

/-- R116: STBOOL stores one byte, 0x01 when VAL is not 0 and 0x00 when it is, and changes nothing else but STATUS and the
marks of the scans over the byte. -/
def Obligations.StboolStoresOneByte : Prop :=
  ∀ (c : Bool) (s : State), Written s [.addr, .val] → Fits s (s.use .addr + 1) → s.canWrite (s.use .addr) = true →
    ∃ t, exec (.stbool c) s = .next t ∧ t.peek (s.use .addr) = (if s.val.val ≠ 0 then 0x01 else 0x00) ∧
      WritesOnly [s.use .addr] s t ∧ t.res = s.res ∧ t.status = 0

/-- R117: the floating-point moves have the same effect as the integer moves of their width, on every input. -/
def Obligations.FloatMovesEqualIntegerMoves : Prop :=
  ∀ (c : Bool) (s : State), exec (.ldf32 c) s = exec (.ld32 c) s ∧ exec (.ldf64 c) s = exec (.ld64 c) s ∧
    exec (.stf32 c) s = exec (.st32 c) s ∧ exec (.stf64 c) s = exec (.st64 c) s

/-- R50, R52, R101: the engine may read (write) a byte exactly when the byte exists, no register is mapped there (the
size of the block is the model's, log 6) and its mark is set; and where a scalar access stops, in the order of R101: the
first operand register not written; a range past the top of the address space; the lowest byte whose mark is off or
where a register is mapped. -/
def Obligations.ScalarAccessStops : Prop :=
  (∀ (s : State) (a : Nat),
    (s.canRead a = true ↔ a < s.params.space ∧ ¬ RegisterMapped s a ∧ (s.permAt a).read = true) ∧
    (s.canWrite a = true ↔ a < s.params.space ∧ ¬ RegisterMapped s a ∧ (s.permAt a).write = true)) ∧
  ∀ (i : Bool → Instr) (n : Nat) (isStore : Bool),
    (i, n, isStore) ∈ [(Instr.ld8, 1, false), (.ld16, 2, false), (.ld32, 4, false), (.ld64, 8, false),
      (.ldf32, 4, false), (.ldf64, 8, false), (.ldbool, 1, false), (.st8, 1, true), (.st16, 2, true),
      (.st32, 4, true), (.st64, 8, true), (.stf32, 4, true), (.stf64, 8, true), (.stbool, 1, true)] →
    ∀ (c : Bool) (s : State),
    (s.addr.written = false → exec (i c) s = .fault (.unwritten .addr s.cmd)) ∧
    (s.addr.written = true → isStore = true → s.val.written = false →
      exec (i c) s = .fault (.unwritten .val s.cmd)) ∧
    (s.addr.written = true → (isStore = true → s.val.written = true) →
      (s.params.space < s.use .addr + n → exec (i c) s = rangeStop c s) ∧
      (s.use .addr + n ≤ s.params.space → ∀ k < n,
        (∀ j < k, ¬ RegisterMapped s (s.use .addr + j) ∧
          (if isStore then (s.permAt (s.use .addr + j)).write else (s.permAt (s.use .addr + j)).read) = true) →
        (RegisterMapped s (s.use .addr + k) ∨
          (if isStore then (s.permAt (s.use .addr + k)).write else (s.permAt (s.use .addr + k)).read) = false) →
        exec (i c) s = .fault (.mem ((s.use .addr + k : Nat) : Int) s.cmd)))

/-! ### Single bits and sizing (42_single_bit_sizing) -/

/-- R131: BTST puts the bit addressed into RES, and changes nothing else but STATUS. -/
def Obligations.BtstReturnsBit : Prop :=
  ∀ (c : Bool) (s : State), Written s [.addr, .pos] → Fits s (s.use .addr + s.use .pos / 8 + 1) →
    s.canRead (s.use .addr + s.use .pos / 8) = true →
    exec (.btst c) s = .next { s with
      res := ⟨if s.bitAt (s.use .addr) (s.use .pos) then 1 else 0, true⟩
      status := 0 }

/-- R132, R133: BSET and BCLR leave the bit addressed at 1 and at 0, every other bit of every byte as it was, the bit's
old value in RES and 0 in STATUS, and change nothing else but the marks of the scans over the byte. -/
def Obligations.BsetBclrUpdateOneBit : Prop :=
  ∀ (i : Bool → Instr) (v : Bool), (i, v) ∈ [(Instr.bset, true), (Instr.bclr, false)] →
    ∀ (c : Bool) (s : State), Written s [.addr, .pos] → Fits s (s.use .addr + s.use .pos / 8 + 1) →
    s.canRead (s.use .addr + s.use .pos / 8) = true → s.canWrite (s.use .addr + s.use .pos / 8) = true →
    ∃ t, exec (i c) s = .next t ∧
      (∀ a j, j < 8 → (t.peek a).getLsbD j =
        if a = s.use .addr + s.use .pos / 8 ∧ j = s.use .pos % 8 then v else (s.peek a).getLsbD j) ∧
      WritesOnly [s.use .addr + s.use .pos / 8] s t ∧
      t.res = ⟨if s.bitAt (s.use .addr) (s.use .pos) then 1 else 0, true⟩ ∧ t.status = 0

/-- R134: a test of the bit after a set is true and after a clear is false; the set and the clear return the value the
test gave before, and no bit but the one addressed changes. -/
def Obligations.SingleBitLaws : Prop :=
  ∀ (i : Bool → Instr) (v : Bool), (i, v) ∈ [(Instr.bset, true), (Instr.bclr, false)] →
    ∀ (c : Bool) (s r t : State), s.use .addr + s.use .pos / 8 < s.params.space → exec (.btst c) s = .next r →
    exec (i c) s = .next t → t.res = r.res ∧
      exec (.btst c) t = .next { t with res := ⟨if v then 1 else 0, true⟩, status := 0 } ∧
      ∀ b p, b + p / 8 ≠ s.use .addr + s.use .pos / 8 ∨ p % 8 ≠ s.use .pos % 8 → t.bitAt b p = s.bitAt b p

/-- R130: where a single-bit command stops. -/
def Obligations.SingleBitStops : Prop :=
  ∀ (i : Bool → Instr) (writes : Bool), (i, writes) ∈ [(Instr.btst, false), (.bset, true), (.bclr, true)] →
    ∀ (c : Bool) (s : State),
    (s.addr.written = false → exec (i c) s = .fault (.unwritten .addr s.cmd)) ∧
    (s.addr.written = true → s.pos.written = false → exec (i c) s = .fault (.unwritten .pos s.cmd)) ∧
    (s.addr.written = true → s.pos.written = true →
      (s.params.space ≤ s.use .addr + s.use .pos / 8 → exec (i c) s = rangeStop c s) ∧
      (s.use .addr + s.use .pos / 8 < s.params.space →
        s.canRead (s.use .addr + s.use .pos / 8) = false ∨
          writes = true ∧ s.canWrite (s.use .addr + s.use .pos / 8) = false →
        exec (i c) s = .fault (.mem ((s.use .addr + s.use .pos / 8 : Nat) : Int) s.cmd)))

/-- R135, R136: for a legal LEN, BMSIZE puts `ceil(LEN / WORD_W) * WB` into RES; it is the least multiple of WB whose
bytes hold LEN bits, and it is below
`ceil(n / 8) + WB`; it changes nothing else but STATUS. An unwritten LEN faults, and a LEN above `2^PW - WORD_W` is
RANGE. -/
def Obligations.BmsizeIsLeastWordMultiple : Prop :=
  ∀ (c : Bool) (s : State),
    (s.len.written = false → exec (.bmsize c) s = .fault (.unwritten .len s.cmd)) ∧
    (Written s [.len] → s.params.space - s.params.wordW.bits < s.use .len → exec (.bmsize c) s = rangeStop c s) ∧
    (Written s [.len] → s.use .len ≤ s.params.space - s.params.wordW.bits →
    ∃ m, exec (.bmsize c) s = .next { s with res := ⟨BitVec.ofNat 64 m, true⟩, status := 0 } ∧
      m = (s.use .len + s.params.wordW.bits - 1) / s.params.wordW.bits * s.params.wb ∧
      m < s.params.space ∧ m % s.params.wb = 0 ∧ s.use .len ≤ 8 * m ∧
      m < (s.use .len + 7) / 8 + s.params.wb ∧ ∀ k, k % s.params.wb = 0 → s.use .len ≤ 8 * k → m ≤ k)

/-! ### Fill (43_range_fill) -/

/-- R151, R154, R155: BFILL leaves every bit of the range at `v` and every other bit of every byte as it was; RES and
every other register stays, and only the scans over the span are invalidated. -/
def Obligations.BfillSetsExactlyTheRange : Prop :=
  ∀ (c v : Bool) (s : State), Written s [.addr, .pos, .len] → 0 < s.use .len →
    RangeFits s (s.use .addr) (s.use .pos) (s.use .len) →
    AllWrite s (spanAddrs (s.use .addr) (s.use .pos) (s.use .len)) →
    AllRead s (partialAddrs (s.use .addr) (s.use .pos) (s.use .len)) →
    ∃ t, exec (.bfill c v) s = .next t ∧
      (∀ k < s.use .len, t.bitAt (s.use .addr) (s.use .pos + k) = v) ∧
      (∀ a j, j < 8 → (∀ k < s.use .len, a ≠ s.use .addr + (s.use .pos + k) / 8 ∨ j ≠ (s.use .pos + k) % 8) →
        (t.peek a).getLsbD j = (s.peek a).getLsbD j) ∧
      WritesOnly (spanAddrs (s.use .addr) (s.use .pos) (s.use .len)) s t ∧ t.res = s.res ∧ t.status = 0

/-- R153, R166, R193, D31: with LEN = 0 and their operand registers written, BFILL, BCOPY and BCOUNT make no check and no
access: STATUS is 0, BCOUNT's RES is 0, and nothing else changes. -/
def Obligations.ZeroLengthRangesDoNothing : Prop :=
  ∀ (c v : Bool) (s : State), s.use .len = 0 → Written s [.addr, .pos, .len] →
    exec (.bfill c v) s = .next { s with status := 0 } ∧
    (Written s [.src, .spos] → exec (.bcopy c) s = .next { s with status := 0 }) ∧
    exec (.bcount c) s = .next { s with res := ⟨0, true⟩, status := 0 }

/-- R150: where BFILL stops. -/
def Obligations.BfillStops : Prop :=
  ∀ (c v : Bool) (s : State),
    (s.addr.written = false → exec (.bfill c v) s = .fault (.unwritten .addr s.cmd)) ∧
    (Written s [.addr] → s.pos.written = false → exec (.bfill c v) s = .fault (.unwritten .pos s.cmd)) ∧
    (Written s [.addr, .pos] → s.len.written = false → exec (.bfill c v) s = .fault (.unwritten .len s.cmd)) ∧
    (Written s [.addr, .pos, .len] → 0 < s.use .len →
      (¬ RangeFits s (s.use .addr) (s.use .pos) (s.use .len) → exec (.bfill c v) s = rangeStop c s) ∧
      (RangeFits s (s.use .addr) (s.use .pos) (s.use .len) →
        ∀ a ∈ spanAddrs (s.use .addr) (s.use .pos) (s.use .len),
        (s.canWrite a = false ∨
          a ∈ partialAddrs (s.use .addr) (s.use .pos) (s.use .len) ∧ s.canRead a = false) →
        (∀ x ∈ spanAddrs (s.use .addr) (s.use .pos) (s.use .len), x < a → s.canWrite x = true ∧
          (x ∈ partialAddrs (s.use .addr) (s.use .pos) (s.use .len) → s.canRead x = true)) →
        exec (.bfill c v) s = .fault (.mem (a : Int) s.cmd)))

/-- R152: the masks of the head, body and tail bytes of a range that is not empty, and no byte after it is in its span. -/
def Obligations.MasksOfHeadBodyTail : Prop :=
  ∀ p n : Nat, 0 < n →
    (p / 8 = (p + n - 1) / 8 →
      rangeMask p n (p / 8) = BitVec.ofNat 8 ((2 ^ n - 1) * 2 ^ (p % 8)) ∧
      (rangeMask p n (p / 8) = 0xFF ↔ p % 8 = 0 ∧ n = 8)) ∧
    (p / 8 ≠ (p + n - 1) / 8 →
      rangeMask p n (p / 8) = BitVec.ofNat 8 (0xFF * 2 ^ (p % 8)) ∧
      (∀ k, p / 8 < k → k < (p + n - 1) / 8 → rangeMask p n k = 0xFF) ∧
      rangeMask p n ((p + n - 1) / 8) =
        if (p + n) % 8 = 0 then 0xFF else BitVec.ofNat 8 (2 ^ ((p + n) % 8) - 1)) ∧
    ∀ k, (p + n - 1) / 8 < k → k ∉ spanOffsets p n

/-! ### Copy (44_range_copy) -/

/-- R161, R163, R169: after BCOPY bit `k` of the destination range is bit `k` of the source range as it was, every other
bit of every byte is as it was, RES and every other register stays, and only the scans over the destination span are
invalidated. -/
def Obligations.BcopyCopiesBitByBit : Prop :=
  ∀ (c : Bool) (s : State), CopyReady s →
    ∃ t, exec (.bcopy c) s = .next t ∧
      (∀ k < s.use .len,
        t.bitAt (s.use .addr) (s.use .pos + k) = s.bitAt (s.use .src) (s.use .spos + k)) ∧
      (∀ a j, j < 8 → (∀ k < s.use .len, a ≠ s.use .addr + (s.use .pos + k) / 8 ∨ j ≠ (s.use .pos + k) % 8) →
        (t.peek a).getLsbD j = (s.peek a).getLsbD j) ∧
      WritesOnly (spanAddrs (s.use .addr) (s.use .pos) (s.use .len)) s t ∧ t.res = s.res ∧ t.status = 0

/-- R162: the two shift-merge formulas of the datapath give, inside the mask, exactly the byte of the per-bit rule, for
every destination span byte and every pair of alignments. -/
def Obligations.ShiftAlignmentEqualsBitCopy : Prop :=
  ∀ (s : State) (k : Nat), k ∈ spanOffsets (s.use .pos) (s.use .len) →
    shiftByte s k &&& rangeMask (s.use .pos) (s.use .len) k =
      copyByte s k &&& rangeMask (s.use .pos) (s.use .len) k

/-- R160: where BCOPY stops, in the rule's order: an operand register not written, in the order of R238; a position or a
span out of range; spans that share a byte; the lowest byte of the access set not admitted, where the slack byte below
address 0 counts as -1, and the one above the top address as 2^ADDR_W (both the model's, log 8). -/
def Obligations.BcopyStops : Prop :=
  ∀ (c : Bool) (s : State),
    (∀ r before after, [OpReg.addr, .src, .pos, .spos, .len] = before ++ r :: after → Written s before →
      (s.op r).written = false → exec (.bcopy c) s = .fault (.unwritten r s.cmd)) ∧
    (Written s [.addr, .src, .pos, .spos, .len] → 0 < s.use .len →
      (¬ (RangeFits s (s.use .addr) (s.use .pos) (s.use .len) ∧
          RangeFits s (s.use .src) (s.use .spos) (s.use .len)) →
        exec (.bcopy c) s = rangeStop c s) ∧
      (RangeFits s (s.use .addr) (s.use .pos) (s.use .len) → RangeFits s (s.use .src) (s.use .spos) (s.use .len) →
        ((∃ a ∈ spanAddrs (s.use .addr) (s.use .pos) (s.use .len),
            a ∈ spanAddrs (s.use .src) (s.use .spos) (s.use .len)) →
          exec (.bcopy c) s = if c then .next { s with status := 3 } else .fault (.overlap s.cmd)) ∧
        ((∀ a ∈ spanAddrs (s.use .addr) (s.use .pos) (s.use .len),
            a ∉ spanAddrs (s.use .src) (s.use .spos) (s.use .len)) → ¬ CopyReady s →
          ∃ a : Int, exec (.bcopy c) s = .fault (.mem a s.cmd) ∧
            (a.toNat ∈ spanAddrs (s.use .src) (s.use .spos) (s.use .len) ∧ 0 ≤ a ∧ s.canRead a.toNat = false ∨
              a.toNat ∈ partialAddrs (s.use .addr) (s.use .pos) (s.use .len) ∧ 0 ≤ a ∧ s.canRead a.toNat = false ∨
              a.toNat ∈ spanAddrs (s.use .addr) (s.use .pos) (s.use .len) ∧ 0 ≤ a ∧ s.canWrite a.toNat = false ∨
              s.params.copySlack = true ∧ a = (s.use .src + s.use .spos / 8 : Nat) - (1 : Int) ∧
                (a = -1 ∨ s.canRead a.toNat = false) ∨
              s.params.copySlack = true ∧ a = (s.use .src + (s.use .spos + s.use .len - 1) / 8 + 1 : Nat) ∧
                s.canRead a.toNat = false) ∧
            (s.params.copySlack = true → s.use .src + s.use .spos / 8 = 0 → a = -1) ∧
            ∀ x : Nat, (x : Int) < a →
              (s.params.copySlack = true → x + 1 = s.use .src + s.use .spos / 8 ∨
                x = s.use .src + (s.use .spos + s.use .len - 1) / 8 + 1 → s.canRead x = true) ∧
              (x ∈ spanAddrs (s.use .src) (s.use .spos) (s.use .len) → s.canRead x = true) ∧
              (x ∈ partialAddrs (s.use .addr) (s.use .pos) (s.use .len) → s.canRead x = true) ∧
              (x ∈ spanAddrs (s.use .addr) (s.use .pos) (s.use .len) → s.canWrite x = true))))

/-! ### Zero detection (45_zero_detect) -/

/-- R181, R182, R185: CTZ32 and CTZ64 of an input that is not 0 put into RES the index below which every bit is 0 and at
which the bit is 1, and change nothing else but STATUS. -/
def Obligations.CtzFindsLowestSetBit : Prop :=
  ∀ (i : Bool → Instr) (w : Nat), (i, w) ∈ [(Instr.ctz32, 32), (Instr.ctz64, 64)] →
    ∀ (c : Bool) (s : State), Written s [.val] → s.val.val.toNat % 2 ^ w ≠ 0 →
    ∃ n, exec (i c) s = .next { s with res := ⟨BitVec.ofNat 64 n, true⟩, status := 0 } ∧
      n < w ∧ s.val.val.getLsbD n = true ∧ ∀ j < n, s.val.val.getLsbD j = false

/-- R183, R184, R185: CLZ32 and CLZ64 of an input that is not 0 put into RES the number of 0 bits above the highest 1 bit
of the input, and change nothing else but STATUS. -/
def Obligations.ClzCountsLeadingZeros : Prop :=
  ∀ (i : Bool → Instr) (w : Nat), (i, w) ∈ [(Instr.clz32, 32), (Instr.clz64, 64)] →
    ∀ (c : Bool) (s : State), Written s [.val] → s.val.val.toNat % 2 ^ w ≠ 0 →
    ∃ n, exec (i c) s = .next { s with res := ⟨BitVec.ofNat 64 n, true⟩, status := 0 } ∧
      n < w ∧ s.val.val.getLsbD (w - 1 - n) = true ∧
      ∀ j, w - 1 - n < j → j < w → s.val.val.getLsbD j = false

/-- R180: the input 0, of the command's own width, is ZERO_INPUT: a fault, or the error with RES unchanged; an unwritten
VAL faults first. -/
def Obligations.ZeroInputStops : Prop :=
  ∀ (i : Bool → Instr) (w : Nat),
    (i, w) ∈ [(Instr.ctz32, 32), (.ctz64, 64), (.clz32, 32), (.clz64, 64)] →
    ∀ (c : Bool) (s : State),
    (s.val.written = false → exec (i c) s = .fault (.unwritten .val s.cmd)) ∧
    (s.val.written = true → s.val.val.toNat % 2 ^ w = 0 →
      exec (i c) s = if c then .next { s with status := 2 } else .fault (.zeroInput s.cmd))

/-! ### Population counts (46_popcount) -/

/-- R190, R191, R192: POPC32 and POPC64 put into RES the number of 1 bits of the input of their width, for every input,
and change nothing else but STATUS; an unwritten VAL faults. -/
def Obligations.PopcCountsSetBits : Prop :=
  ∀ (i : Bool → Instr) (w : Nat), (i, w) ∈ [(Instr.popc32, 32), (Instr.popc64, 64)] →
    ∀ (c : Bool) (s : State),
    (s.val.written = false → exec (i c) s = .fault (.unwritten .val s.cmd)) ∧
    (Written s [.val] → exec (i c) s = .next { s with
      res := ⟨BitVec.ofNat 64 ((Finset.range w).filter (fun j => s.val.val.getLsbD j = true)).card, true⟩
      status := 0 })

/-- R193, R194: BCOUNT over a range of at least one bit puts into RES the number of positions of the range whose bit is
1, which never exceeds LEN, and changes nothing else but STATUS. -/
def Obligations.BcountCountsRange : Prop :=
  ∀ (c : Bool) (s : State), Written s [.addr, .pos, .len] → 0 < s.use .len →
    RangeFits s (s.use .addr) (s.use .pos) (s.use .len) →
    AllRead s (spanAddrs (s.use .addr) (s.use .pos) (s.use .len)) →
    ∃ m, exec (.bcount c) s = .next { s with res := ⟨BitVec.ofNat 64 m, true⟩, status := 0 } ∧
      m = ((Finset.range (s.use .len)).filter (fun k => s.bitAt (s.use .addr) (s.use .pos + k) = true)).card ∧
      m ≤ s.use .len

/-- R195, its four laws: the counts of a value and of its complement sum to the width; the 64-bit count is the sum of
the counts of the two halves; the count over two adjacent ranges is the sum of their counts; BCOUNT over a range just
filled by BFILL returns its length or 0. -/
def Obligations.CountLaws : Prop :=
  (∀ x : BitVec 32, popcount 32 x.getLsbD + popcount 32 (~~~x).getLsbD = 32) ∧
  (∀ x : BitVec 64, popcount 64 x.getLsbD + popcount 64 (~~~x).getLsbD = 64) ∧
  (∀ x : BitVec 64, popcount 64 x.getLsbD =
    popcount 32 (x.extractLsb' 0 32).getLsbD + popcount 32 (x.extractLsb' 32 32).getLsbD) ∧
  (∀ (s : State) (b p n m : Nat), s.countBits b p (n + m) = s.countBits b p n + s.countBits b (p + n) m) ∧
  ∀ (c v : Bool) (s t : State), exec (.bfill c v) s = .next t → t.status = 0 →
    AllRead s (spanAddrs (s.use .addr) (s.use .pos) (s.use .len)) →
    exec (.bcount c) t = .next { t with res := ⟨BitVec.ofNat 64 (if v then s.use .len else 0), true⟩, status := 0 }

/-- R193: where BCOUNT stops. -/
def Obligations.BcountStops : Prop :=
  ∀ (c : Bool) (s : State),
    (∀ r before after, [OpReg.addr, .pos, .len] = before ++ r :: after → Written s before →
      (s.op r).written = false → exec (.bcount c) s = .fault (.unwritten r s.cmd)) ∧
    (Written s [.addr, .pos, .len] → 0 < s.use .len →
      (¬ RangeFits s (s.use .addr) (s.use .pos) (s.use .len) → exec (.bcount c) s = rangeStop c s) ∧
      (RangeFits s (s.use .addr) (s.use .pos) (s.use .len) →
        ∀ a ∈ spanAddrs (s.use .addr) (s.use .pos) (s.use .len), s.canRead a = false →
        (∀ x ∈ spanAddrs (s.use .addr) (s.use .pos) (s.use .len), x < a → s.canRead x = true) →
        exec (.bcount c) s = .fault (.mem (a : Int) s.cmd)))

/-! ### Bit indexing (47_bit_index_iterator) -/

/-- R200 to R203: BIDX writes one element for each set bit of the input, ascending, element `k` at ADDR + EB*k with the
value `(bias + j_k) mod 2^IW` in HOST_ORDER; RES is one past the last element; nothing else changes but STATUS and the
marks of the scans over the elements. The bias is `POS[IW-1:0]` (log 9). -/
def Obligations.BidxListsSetBits : Prop :=
  ∀ (i : Bool → Instr) (w : Nat), (i, w) ∈ [(Instr.bidx32, 32), (Instr.bidx64, 64)] →
    ∀ (c : Bool) (s : State) (js : List Nat), Written s [.addr, .pos, .val] →
    js = (List.range w).filter (fun j => s.val.val.getLsbD j) →
    s.use .addr + s.params.idxElem.bytes * js.length < s.params.space →
    AllWrite s (accessAddrs (s.use .addr) (s.params.idxElem.bytes * js.length)) →
    ∃ t, exec (i c) s = .next t ∧
      (∀ k (h : k < js.length),
        loadO t (s.use .addr + s.params.idxElem.bytes * k) s.params.idxElem.bytes s.params.hostOrder =
          (s.pos.val.toNat % 2 ^ s.params.idxElem.bits + js[k]) % 2 ^ s.params.idxElem.bits) ∧
      WritesOnly (accessAddrs (s.use .addr) (s.params.idxElem.bytes * js.length)) s t ∧
      t.res = ⟨BitVec.ofNat 64 (s.use .addr + s.params.idxElem.bytes * js.length), true⟩ ∧ t.status = 0

/-- R200: where BIDX stops. -/
def Obligations.BidxStops : Prop :=
  ∀ (i : Bool → Instr) (w : Nat), (i, w) ∈ [(Instr.bidx32, 32), (Instr.bidx64, 64)] →
    ∀ (c : Bool) (s : State) (cnt : Nat), cnt = ((List.range w).filter (fun j => s.val.val.getLsbD j)).length →
    (∀ r before after, [OpReg.addr, .pos, .val] = before ++ r :: after → Written s before →
      (s.op r).written = false → exec (i c) s = .fault (.unwritten r s.cmd)) ∧
    (Written s [.addr, .pos, .val] →
      (s.params.space ≤ s.use .addr + s.params.idxElem.bytes * cnt → exec (i c) s = rangeStop c s) ∧
      (s.use .addr + s.params.idxElem.bytes * cnt < s.params.space → ∀ k < s.params.idxElem.bytes * cnt,
        s.canWrite (s.use .addr + k) = false → (∀ j < k, s.canWrite (s.use .addr + j) = true) →
        exec (i c) s = .fault (.mem ((s.use .addr + k : Nat) : Int) s.cmd)))

/-! ### The bit iterator (47_bit_index_iterator) -/

/-- R210, R219: ITINIT completes; it changes only the context it names and STATUS, puts the context's address registers,
mask, mark and state as the rule says, and loads the first chunk little-endian: bit `j` of IT_WORD is 1 exactly when
position `j` is a hit inside the chunk. -/
def Obligations.ItinitStartsScan : Prop :=
  ∀ (c v : Bool) (it : BitVec 4) (s : State), ScanReady s →
    ∃ x : IterCtx, exec (.itinit c v it) s = .next { s.setCtx it x with status := 0 } ∧
      x.itStart = ⟨BitVec.ofNat 64 (s.use .addr), true⟩ ∧
      x.itEnd = ⟨BitVec.ofNat 64 (s.use .addr + s.use .len), true⟩ ∧ x.itBase = ⟨0, true⟩ ∧
      x.itXor = ⟨if v then 0 else BitVec.ofNat 64 (2 ^ s.params.wordW.bits - 1), true⟩ ∧ x.itInv = false ∧
      x.itWord.written = true ∧
      if s.use .len = 0 then
        x.itState = .exhausted ∧ x.itWord.val = 0 ∧ x.itNext = ⟨BitVec.ofNat 64 (s.use .addr), true⟩
      else
        x.itState = .positioned ∧
        x.itNext = ⟨BitVec.ofNat 64 (s.use .addr + firstChunk s.params (s.use .len)), true⟩ ∧
        ∀ j < 64, x.itWord.val.getLsbD j =
          (decide (j < 8 * firstChunk s.params (s.use .len)) && (s.bitAt (s.use .addr) j == v))

/-- R209, R210: where ITINIT stops. -/
def Obligations.ItinitStops : Prop :=
  ∀ (c v : Bool) (it : BitVec 4) (s : State),
    (∀ r before after, [OpReg.addr, .len] = before ++ r :: after → Written s before →
      (s.op r).written = false → exec (.itinit c v it) s = .fault (.unwritten r s.cmd)) ∧
    (Written s [.addr, .len] →
      (s.params.space / 8 ≤ s.use .len ∨ s.params.space ≤ s.use .addr + s.use .len →
        exec (.itinit c v it) s = rangeStop c s) ∧
      (s.use .len < s.params.space / 8 → s.use .addr + s.use .len < s.params.space → 0 < s.use .len →
        ∀ k < firstChunk s.params (s.use .len), s.canRead (s.use .addr + k) = false →
        (∀ j < k, s.canRead (s.use .addr + j) = true) →
        exec (.itinit c v it) s = .fault (.mem ((s.use .addr + k : Nat) : Int) s.cmd)))

/-- R211, R213 to R215: ITNEXT completes; it returns the least hit of the buffer not yet returned, which is then
returned no more, or NONE with STATUS.NONE when there is none, and the context is then EXHAUSTED; it changes only RES,
STATUS and the context it names. -/
def Obligations.ItnextReturnsLeastRemainingHit : Prop :=
  ∀ (c : Bool) (it : BitVec 4) (s : State), NextReady s it →
    ∃ t, exec (.itnext c it) s = .next t ∧ NextReady t it ∧
      t = { s.setCtx it (t.ctx it) with res := t.res, status := t.status } ∧
      match remaining s (s.ctx it) with
      | [] => t.res = ⟨BitVec.ofNat 64 (s.params.space - 1), true⟩ ∧ t.status = 0x100 ∧
          (t.ctx it).itState = .exhausted ∧ remaining t (t.ctx it) = []
      | q :: rest => t.res = ⟨BitVec.ofNat 64 q, true⟩ ∧ t.status = 0 ∧ (t.ctx it).itState = .positioned ∧
          remaining t (t.ctx it) = rest

/-- R216: from ITINIT on, ITNEXT yields every position of the buffer whose bit is 1 (set mode) or 0 (clear mode), each
once and in strictly ascending order, and then NONE for ever. -/
def Obligations.IteratorTotality : Prop :=
  ∀ (c v : Bool) (it : BitVec 4) (s t : State) (n : Nat), exec (.itinit c v it) s = .next t → t.status = 0 →
    AllRead s (accessAddrs (s.use .addr) (s.use .len)) →
    scanResults c it ((allHits s (s.use .addr) (s.use .len) v).length + n) t =
      some ((allHits s (s.use .addr) (s.use .len) v).map (fun q => BitVec.ofNat 64 q) ++
        List.replicate n (BitVec.ofNat 64 (s.params.space - 1)))

/-- R217: the results of a scan depend on the buffer's bytes, its size and the mode only: two scans, of any two
instances of one position width, over buffers of the same bytes give the same results for any number of ITNEXT
commands, whatever the addresses, the contexts, the checked mode and WORD_W. -/
def Obligations.ScanDependsOnBufferOnly : Prop :=
  ∀ (c d v : Bool) (it jt : BitVec 4) (s t r u : State) (n : Nat),
    exec (.itinit c v it) s = .next t → t.status = 0 → exec (.itinit d v jt) r = .next u → u.status = 0 →
    s.params.addrW = r.params.addrW → s.use .len = r.use .len →
    (∀ k < s.use .len, s.peek (s.use .addr + k) = r.peek (r.use .addr + k)) →
    AllRead s (accessAddrs (s.use .addr) (s.use .len)) → AllRead r (accessAddrs (r.use .addr) (r.use .len)) →
    scanResults c it n t = scanResults d jt n u

/-- R214: ITNEXT on an EXHAUSTED context returns NONE again and changes no register but RES and STATUS. -/
def Obligations.ExhaustedStaysExhausted : Prop :=
  ∀ (c : Bool) (it : BitVec 4) (s : State), (s.ctx it).itState = .exhausted → (s.ctx it).itInv = false →
    exec (.itnext c it) s =
      .next { s with res := ⟨BitVec.ofNat 64 (s.params.space - 1), true⟩, status := 0x100 }

/-- R211 to R213: where ITNEXT stops: a context that is UNINIT; then one that is invalidated, in both modes; then, when
the context's word is drained, the lowest byte not readable of the bytes still to load, if the words before its own hold
no hit: the byte at offset `m` from IT_NEXT lies in word `m / WB` of those to load, and all bytes below it are
readable. -/
def Obligations.ItnextStops : Prop :=
  ∀ (c : Bool) (it : BitVec 4) (s : State),
    ((s.ctx it).itState = .uninit →
      exec (.itnext c it) s = if c then .next { s with status := 5 } else .fault (.iterUninit it s.cmd)) ∧
    ((s.ctx it).itState ≠ .uninit → (s.ctx it).itInv = true →
      exec (.itnext c it) s = .fault (.iterInvalid it s.cmd)) ∧
    (CtxOk s (s.ctx it) → (s.ctx it).itState = .positioned → (s.ctx it).itInv = false →
      (s.ctx it).itWord.val = 0 →
      ∀ m < (s.ctx it).itEnd.val.toNat - (s.ctx it).itNext.val.toNat,
      (∀ j < m, s.canRead ((s.ctx it).itNext.val.toNat + j) = true) →
      s.canRead ((s.ctx it).itNext.val.toNat + m) = false →
      (∀ q, 8 * (s.ctx it).loaded ≤ q → q < 8 * ((s.ctx it).loaded + s.params.wb * (m / s.params.wb)) →
        isHit s (s.ctx it) q = false) →
      exec (.itnext c it) s = .fault (.mem (((s.ctx it).itNext.val.toNat + m : Nat) : Int) s.cmd))
end

