-- ==== Sys2Proof/Laws/Cells.lean ====
section
/-! SUPPORT. The laws of the sparse lists that hold memory and admission: a read after a write, and the canonical
form. They hold for every list, canonical or not, but for the one that says the form is kept. -/

namespace Sys2Proof.Machine

variable {α : Type}

@[simp] theorem cellsGet_put (d v : α) (a b : Nat) (l : List (Nat × α)) (h : ∀ c ∈ l, c.1 ≠ a) :
    cellsGet d b (cellsPut a v l) = if b = a then v else cellsGet d b l := by
  induction l with
  | nil => simp [cellsPut, cellsGet]
  | cons c rest ih =>
    obtain ⟨k, u⟩ := c
    have hk : k ≠ a := h (k, u) (by simp)
    have ih := ih (fun c hc => h c (by simp [hc]))
    unfold cellsPut
    split
    · simp [cellsGet]
    · simp only [cellsGet, ih]
      by_cases hb : b = k
      · subst hb; simp [hk]
      · simp [hb]

theorem cellsGet_erase (d : α) (a b : Nat) (l : List (Nat × α)) :
    cellsGet d b (cellsErase a l) = if b = a then d else cellsGet d b l := by
  induction l with
  | nil => simp [cellsErase, cellsGet]
  | cons c rest ih =>
    obtain ⟨k, u⟩ := c
    simp only [cellsErase] at ih
    by_cases hk : k = a <;> by_cases hb : b = a <;> by_cases hbk : b = k <;>
      simp_all [cellsErase, cellsGet]

theorem mem_cellsErase {a : Nat} {l : List (Nat × α)} {c : Nat × α} :
    c ∈ cellsErase a l ↔ c ∈ l ∧ c.1 ≠ a := by
  simp [cellsErase]

/-- A read after a write, at the same address and at any other. -/
theorem cellsGet_set [DecidableEq α] (d v : α) (a b : Nat) (l : List (Nat × α)) :
    cellsGet d b (cellsSet d a v l) = if b = a then v else cellsGet d b l := by
  unfold cellsSet
  split
  · next h => rw [cellsGet_erase, h]
  · rw [cellsGet_put _ _ _ _ _ (fun c hc => (mem_cellsErase.1 hc).2), cellsGet_erase]
    by_cases hb : b = a <;> simp [hb]

theorem mem_cellsPut {a : Nat} {v : α} {l : List (Nat × α)} {c : Nat × α} :
    c ∈ cellsPut a v l ↔ c = (a, v) ∨ c ∈ l := by
  induction l with
  | nil => simp [cellsPut]
  | cons x rest ih =>
    obtain ⟨k, u⟩ := x
    unfold cellsPut
    split
    · simp
    · simp only [List.mem_cons, ih]; tauto

theorem cellsPut_pairwise (a : Nat) (v : α) (l : List (Nat × α)) (h : ∀ c ∈ l, c.1 ≠ a)
    (hl : l.Pairwise (fun x y => x.1 < y.1)) : (cellsPut a v l).Pairwise (fun x y => x.1 < y.1) := by
  induction l with
  | nil => simp [cellsPut]
  | cons x rest ih =>
    obtain ⟨k, u⟩ := x
    rw [List.pairwise_cons] at hl
    have hk : k ≠ a := h (k, u) (by simp)
    unfold cellsPut
    split
    · next hak =>
      refine List.pairwise_cons.2 ⟨?_, List.pairwise_cons.2 hl⟩
      intro c hc
      rcases List.mem_cons.1 hc with rfl | hc
      · exact hak
      · exact hak.trans (hl.1 c hc)
    · refine List.pairwise_cons.2 ⟨?_, ih (fun c hc => h c (by simp [hc])) hl.2⟩
      intro c hc
      rcases mem_cellsPut.1 hc with rfl | hc
      · simp only; omega
      · exact hl.1 c hc

/-- A write keeps the canonical form. -/
theorem cellsSet_wf [DecidableEq α] {d v : α} {space a : Nat} {l : List (Nat × α)} (h : cellsWf d space l)
    (ha : a < space) : cellsWf d space (cellsSet d a v l) := by
  obtain ⟨hp, hv⟩ := h
  have he : (cellsErase a l).Pairwise (fun x y => x.1 < y.1) := hp.filter _
  unfold cellsSet
  split
  · exact ⟨he, fun c hc => hv c (mem_cellsErase.1 hc).1⟩
  · next hd =>
    refine ⟨cellsPut_pairwise _ _ _ (fun c hc => (mem_cellsErase.1 hc).2) he, fun c hc => ?_⟩
    rcases mem_cellsPut.1 hc with rfl | hc
    · exact ⟨ha, hd⟩
    · exact hv c (mem_cellsErase.1 hc).1

end Sys2Proof.Machine
end

