-- ==== Sys2Proof/Laws/State.lean ====
section
/-! SUPPORT. What each named update of State does to each field: one lemma per field per update, so that no proof
unfolds a record update. -/

namespace Sys2Proof.Machine

variable (s : State)

/-! ### setStatus -/

@[simp] theorem setStatus_params (v : Word64) : (s.setStatus v).params = s.params := rfl
@[simp] theorem setStatus_addr (v : Word64) : (s.setStatus v).addr = s.addr := rfl
@[simp] theorem setStatus_src (v : Word64) : (s.setStatus v).src = s.src := rfl
@[simp] theorem setStatus_pos (v : Word64) : (s.setStatus v).pos = s.pos := rfl
@[simp] theorem setStatus_spos (v : Word64) : (s.setStatus v).spos = s.spos := rfl
@[simp] theorem setStatus_len (v : Word64) : (s.setStatus v).len = s.len := rfl
@[simp] theorem setStatus_val (v : Word64) : (s.setStatus v).val = s.val := rfl
@[simp] theorem setStatus_res (v : Word64) : (s.setStatus v).res = s.res := rfl
@[simp] theorem setStatus_status (v : Word64) : (s.setStatus v).status = v := rfl
@[simp] theorem setStatus_cmd (v : Word64) : (s.setStatus v).cmd = s.cmd := rfl
@[simp] theorem setStatus_iters (v : Word64) : (s.setStatus v).iters = s.iters := rfl
@[simp] theorem setStatus_mem (v : Word64) : (s.setStatus v).mem = s.mem := rfl
@[simp] theorem setStatus_perm (v : Word64) : (s.setStatus v).perm = s.perm := rfl
@[simp] theorem setStatus_fault (v : Word64) : (s.setStatus v).fault = s.fault := rfl
@[simp] theorem setStatus_pending (v : Word64) : (s.setStatus v).pending = s.pending := rfl
@[simp] theorem setStatus_seen (v : Word64) : (s.setStatus v).seen = s.seen := rfl

/-! ### setRes -/

@[simp] theorem setRes_params (v : Word64) : (s.setRes v).params = s.params := rfl
@[simp] theorem setRes_addr (v : Word64) : (s.setRes v).addr = s.addr := rfl
@[simp] theorem setRes_src (v : Word64) : (s.setRes v).src = s.src := rfl
@[simp] theorem setRes_pos (v : Word64) : (s.setRes v).pos = s.pos := rfl
@[simp] theorem setRes_spos (v : Word64) : (s.setRes v).spos = s.spos := rfl
@[simp] theorem setRes_len (v : Word64) : (s.setRes v).len = s.len := rfl
@[simp] theorem setRes_val (v : Word64) : (s.setRes v).val = s.val := rfl
@[simp] theorem setRes_res (v : Word64) : (s.setRes v).res = Marked.of v := rfl
@[simp] theorem setRes_status (v : Word64) : (s.setRes v).status = s.status := rfl
@[simp] theorem setRes_cmd (v : Word64) : (s.setRes v).cmd = s.cmd := rfl
@[simp] theorem setRes_iters (v : Word64) : (s.setRes v).iters = s.iters := rfl
@[simp] theorem setRes_mem (v : Word64) : (s.setRes v).mem = s.mem := rfl
@[simp] theorem setRes_perm (v : Word64) : (s.setRes v).perm = s.perm := rfl
@[simp] theorem setRes_fault (v : Word64) : (s.setRes v).fault = s.fault := rfl
@[simp] theorem setRes_pending (v : Word64) : (s.setRes v).pending = s.pending := rfl
@[simp] theorem setRes_seen (v : Word64) : (s.setRes v).seen = s.seen := rfl

/-! ### setCtx -/

@[simp] theorem setCtx_params (i : BitVec 4) (c : IterCtx) : (s.setCtx i c).params = s.params := rfl
@[simp] theorem setCtx_addr (i : BitVec 4) (c : IterCtx) : (s.setCtx i c).addr = s.addr := rfl
@[simp] theorem setCtx_src (i : BitVec 4) (c : IterCtx) : (s.setCtx i c).src = s.src := rfl
@[simp] theorem setCtx_pos (i : BitVec 4) (c : IterCtx) : (s.setCtx i c).pos = s.pos := rfl
@[simp] theorem setCtx_spos (i : BitVec 4) (c : IterCtx) : (s.setCtx i c).spos = s.spos := rfl
@[simp] theorem setCtx_len (i : BitVec 4) (c : IterCtx) : (s.setCtx i c).len = s.len := rfl
@[simp] theorem setCtx_val (i : BitVec 4) (c : IterCtx) : (s.setCtx i c).val = s.val := rfl
@[simp] theorem setCtx_res (i : BitVec 4) (c : IterCtx) : (s.setCtx i c).res = s.res := rfl
@[simp] theorem setCtx_status (i : BitVec 4) (c : IterCtx) : (s.setCtx i c).status = s.status := rfl
@[simp] theorem setCtx_cmd (i : BitVec 4) (c : IterCtx) : (s.setCtx i c).cmd = s.cmd := rfl
@[simp] theorem setCtx_iters (i : BitVec 4) (c : IterCtx) : (s.setCtx i c).iters = s.iters.set i.toNat c i.isLt := rfl
@[simp] theorem setCtx_mem (i : BitVec 4) (c : IterCtx) : (s.setCtx i c).mem = s.mem := rfl
@[simp] theorem setCtx_perm (i : BitVec 4) (c : IterCtx) : (s.setCtx i c).perm = s.perm := rfl
@[simp] theorem setCtx_fault (i : BitVec 4) (c : IterCtx) : (s.setCtx i c).fault = s.fault := rfl
@[simp] theorem setCtx_pending (i : BitVec 4) (c : IterCtx) : (s.setCtx i c).pending = s.pending := rfl
@[simp] theorem setCtx_seen (i : BitVec 4) (c : IterCtx) : (s.setCtx i c).seen = s.seen := rfl

/-! ### invalidate -/

@[simp] theorem invalidate_params (a : Nat) : (s.invalidate a).params = s.params := rfl
@[simp] theorem invalidate_addr (a : Nat) : (s.invalidate a).addr = s.addr := rfl
@[simp] theorem invalidate_src (a : Nat) : (s.invalidate a).src = s.src := rfl
@[simp] theorem invalidate_pos (a : Nat) : (s.invalidate a).pos = s.pos := rfl
@[simp] theorem invalidate_spos (a : Nat) : (s.invalidate a).spos = s.spos := rfl
@[simp] theorem invalidate_len (a : Nat) : (s.invalidate a).len = s.len := rfl
@[simp] theorem invalidate_val (a : Nat) : (s.invalidate a).val = s.val := rfl
@[simp] theorem invalidate_res (a : Nat) : (s.invalidate a).res = s.res := rfl
@[simp] theorem invalidate_status (a : Nat) : (s.invalidate a).status = s.status := rfl
@[simp] theorem invalidate_cmd (a : Nat) : (s.invalidate a).cmd = s.cmd := rfl
@[simp] theorem invalidate_iters (a : Nat) : (s.invalidate a).iters = mapIters (IterCtx.touch a) s.iters := rfl
@[simp] theorem invalidate_mem (a : Nat) : (s.invalidate a).mem = s.mem := rfl
@[simp] theorem invalidate_perm (a : Nat) : (s.invalidate a).perm = s.perm := rfl
@[simp] theorem invalidate_fault (a : Nat) : (s.invalidate a).fault = s.fault := rfl
@[simp] theorem invalidate_pending (a : Nat) : (s.invalidate a).pending = s.pending := rfl
@[simp] theorem invalidate_seen (a : Nat) : (s.invalidate a).seen = s.seen := rfl

/-! ### poke -/

@[simp] theorem poke_params (a : Nat) (b : Byte) : (s.poke a b).params = s.params := rfl
@[simp] theorem poke_addr (a : Nat) (b : Byte) : (s.poke a b).addr = s.addr := rfl
@[simp] theorem poke_src (a : Nat) (b : Byte) : (s.poke a b).src = s.src := rfl
@[simp] theorem poke_pos (a : Nat) (b : Byte) : (s.poke a b).pos = s.pos := rfl
@[simp] theorem poke_spos (a : Nat) (b : Byte) : (s.poke a b).spos = s.spos := rfl
@[simp] theorem poke_len (a : Nat) (b : Byte) : (s.poke a b).len = s.len := rfl
@[simp] theorem poke_val (a : Nat) (b : Byte) : (s.poke a b).val = s.val := rfl
@[simp] theorem poke_res (a : Nat) (b : Byte) : (s.poke a b).res = s.res := rfl
@[simp] theorem poke_status (a : Nat) (b : Byte) : (s.poke a b).status = s.status := rfl
@[simp] theorem poke_cmd (a : Nat) (b : Byte) : (s.poke a b).cmd = s.cmd := rfl
@[simp] theorem poke_iters (a : Nat) (b : Byte) : (s.poke a b).iters = mapIters (IterCtx.touch a) s.iters := rfl
@[simp] theorem poke_mem (a : Nat) (b : Byte) : (s.poke a b).mem = cellsSet unlistedByte a b s.mem := rfl
@[simp] theorem poke_perm (a : Nat) (b : Byte) : (s.poke a b).perm = s.perm := rfl
@[simp] theorem poke_fault (a : Nat) (b : Byte) : (s.poke a b).fault = s.fault := rfl
@[simp] theorem poke_pending (a : Nat) (b : Byte) : (s.poke a b).pending = s.pending := rfl
@[simp] theorem poke_seen (a : Nat) (b : Byte) : (s.poke a b).seen = s.seen := rfl

/-! ### pokes -/

@[simp] theorem pokes_nil : s.pokes [] = s := rfl

theorem pokes_cons (w : Host.Cell) (ws : List Host.Cell) : s.pokes (w :: ws) = (s.poke w.1 w.2).pokes ws := rfl

@[simp] theorem pokes_params (ws : List Host.Cell) : (s.pokes ws).params = s.params := by
  induction ws generalizing s with
  | nil => rfl
  | cons w ws ih => rw [pokes_cons, ih, poke_params]
@[simp] theorem pokes_addr (ws : List Host.Cell) : (s.pokes ws).addr = s.addr := by
  induction ws generalizing s with
  | nil => rfl
  | cons w ws ih => rw [pokes_cons, ih, poke_addr]
@[simp] theorem pokes_src (ws : List Host.Cell) : (s.pokes ws).src = s.src := by
  induction ws generalizing s with
  | nil => rfl
  | cons w ws ih => rw [pokes_cons, ih, poke_src]
@[simp] theorem pokes_pos (ws : List Host.Cell) : (s.pokes ws).pos = s.pos := by
  induction ws generalizing s with
  | nil => rfl
  | cons w ws ih => rw [pokes_cons, ih, poke_pos]
@[simp] theorem pokes_spos (ws : List Host.Cell) : (s.pokes ws).spos = s.spos := by
  induction ws generalizing s with
  | nil => rfl
  | cons w ws ih => rw [pokes_cons, ih, poke_spos]
@[simp] theorem pokes_len (ws : List Host.Cell) : (s.pokes ws).len = s.len := by
  induction ws generalizing s with
  | nil => rfl
  | cons w ws ih => rw [pokes_cons, ih, poke_len]
@[simp] theorem pokes_val (ws : List Host.Cell) : (s.pokes ws).val = s.val := by
  induction ws generalizing s with
  | nil => rfl
  | cons w ws ih => rw [pokes_cons, ih, poke_val]
@[simp] theorem pokes_res (ws : List Host.Cell) : (s.pokes ws).res = s.res := by
  induction ws generalizing s with
  | nil => rfl
  | cons w ws ih => rw [pokes_cons, ih, poke_res]
@[simp] theorem pokes_status (ws : List Host.Cell) : (s.pokes ws).status = s.status := by
  induction ws generalizing s with
  | nil => rfl
  | cons w ws ih => rw [pokes_cons, ih, poke_status]
@[simp] theorem pokes_cmd (ws : List Host.Cell) : (s.pokes ws).cmd = s.cmd := by
  induction ws generalizing s with
  | nil => rfl
  | cons w ws ih => rw [pokes_cons, ih, poke_cmd]
@[simp] theorem pokes_perm (ws : List Host.Cell) : (s.pokes ws).perm = s.perm := by
  induction ws generalizing s with
  | nil => rfl
  | cons w ws ih => rw [pokes_cons, ih, poke_perm]
@[simp] theorem pokes_fault (ws : List Host.Cell) : (s.pokes ws).fault = s.fault := by
  induction ws generalizing s with
  | nil => rfl
  | cons w ws ih => rw [pokes_cons, ih, poke_fault]
@[simp] theorem pokes_pending (ws : List Host.Cell) : (s.pokes ws).pending = s.pending := by
  induction ws generalizing s with
  | nil => rfl
  | cons w ws ih => rw [pokes_cons, ih, poke_pending]
@[simp] theorem pokes_seen (ws : List Host.Cell) : (s.pokes ws).seen = s.seen := by
  induction ws generalizing s with
  | nil => rfl
  | cons w ws ih => rw [pokes_cons, ih, poke_seen]

/-! ### setPerm -/

@[simp] theorem setPerm_params (a : Nat) (p : Perm) : (s.setPerm a p).params = s.params := by
  unfold State.setPerm; dsimp only; split <;> rfl
@[simp] theorem setPerm_addr (a : Nat) (p : Perm) : (s.setPerm a p).addr = s.addr := by
  unfold State.setPerm; dsimp only; split <;> rfl
@[simp] theorem setPerm_src (a : Nat) (p : Perm) : (s.setPerm a p).src = s.src := by
  unfold State.setPerm; dsimp only; split <;> rfl
@[simp] theorem setPerm_pos (a : Nat) (p : Perm) : (s.setPerm a p).pos = s.pos := by
  unfold State.setPerm; dsimp only; split <;> rfl
@[simp] theorem setPerm_spos (a : Nat) (p : Perm) : (s.setPerm a p).spos = s.spos := by
  unfold State.setPerm; dsimp only; split <;> rfl
@[simp] theorem setPerm_len (a : Nat) (p : Perm) : (s.setPerm a p).len = s.len := by
  unfold State.setPerm; dsimp only; split <;> rfl
@[simp] theorem setPerm_val (a : Nat) (p : Perm) : (s.setPerm a p).val = s.val := by
  unfold State.setPerm; dsimp only; split <;> rfl
@[simp] theorem setPerm_res (a : Nat) (p : Perm) : (s.setPerm a p).res = s.res := by
  unfold State.setPerm; dsimp only; split <;> rfl
@[simp] theorem setPerm_status (a : Nat) (p : Perm) : (s.setPerm a p).status = s.status := by
  unfold State.setPerm; dsimp only; split <;> rfl
@[simp] theorem setPerm_cmd (a : Nat) (p : Perm) : (s.setPerm a p).cmd = s.cmd := by
  unfold State.setPerm; dsimp only; split <;> rfl
@[simp] theorem setPerm_mem (a : Nat) (p : Perm) : (s.setPerm a p).mem = s.mem := by
  unfold State.setPerm; dsimp only; split <;> rfl
@[simp] theorem setPerm_fault (a : Nat) (p : Perm) : (s.setPerm a p).fault = s.fault := by
  unfold State.setPerm; dsimp only; split <;> rfl
@[simp] theorem setPerm_pending (a : Nat) (p : Perm) : (s.setPerm a p).pending = s.pending := by
  unfold State.setPerm; dsimp only; split <;> rfl
@[simp] theorem setPerm_seen (a : Nat) (p : Perm) : (s.setPerm a p).seen = s.seen := by
  unfold State.setPerm; dsimp only; split <;> rfl
@[simp] theorem setPerm_perm (a : Nat) (p : Perm) : (s.setPerm a p).perm = cellsSet Perm.closed a p s.perm := rfl

end Sys2Proof.Machine
end

