-- ==== Sys2Proof/Laws/Memory.lean ====
section
/-! SUPPORT. What reading a byte, the admission of a byte and a context give after each update, and what a run of byte
writes does to memory, to its canonical form and to the contexts. -/

namespace Sys2Proof.Machine

variable (s : State)

/-! ### Reads see only the fields they read -/

@[simp] theorem peek_setStatus (v : Word64) (a : Nat) : (s.setStatus v).peek a = s.peek a := rfl
@[simp] theorem peek_setRes (v : Word64) (a : Nat) : (s.setRes v).peek a = s.peek a := rfl
@[simp] theorem peek_setCtx (i : BitVec 4) (c : IterCtx) (a : Nat) : (s.setCtx i c).peek a = s.peek a := rfl
@[simp] theorem peek_invalidate (b a : Nat) : (s.invalidate b).peek a = s.peek a := rfl

/-- A byte read after a byte write. -/
theorem peek_poke (a b : Nat) (v : Byte) : (s.poke a v).peek b = if b = a then v else s.peek b :=
  cellsGet_set _ _ _ _ _

@[simp] theorem peek_poke_same (a : Nat) (v : Byte) : (s.poke a v).peek a = v := by simp [peek_poke]

theorem peek_poke_ne {a b : Nat} (v : Byte) (h : b ≠ a) : (s.poke a v).peek b = s.peek b := by simp [peek_poke, h]

/-- Bytes that a run of writes does not name stay. -/
theorem peek_pokes_of_notMem {ws : List Host.Cell} {a : Nat} (h : a ∉ ws.map Prod.fst) :
    (s.pokes ws).peek a = s.peek a := by
  induction ws generalizing s with
  | nil => rfl
  | cons w ws ih =>
    simp only [List.map_cons, List.mem_cons, not_or] at h
    rw [pokes_cons, ih _ h.2, peek_poke_ne _ _ h.1]

/-- A byte that a run of writes names once has the value written. -/
theorem peek_pokes_of_mem {ws : List Host.Cell} {a : Nat} {b : Byte} (hn : (ws.map Prod.fst).Nodup)
    (h : (a, b) ∈ ws) : (s.pokes ws).peek a = b := by
  induction ws generalizing s with
  | nil => simp at h
  | cons w ws ih =>
    simp only [List.map_cons, List.nodup_cons] at hn
    rw [pokes_cons]
    rcases List.mem_cons.1 h with rfl | h
    · rw [peek_pokes_of_notMem _ hn.1]; simp
    · exact ih _ hn.2 h

/-! ### Contexts -/

@[simp] theorem ctx_setStatus (v : Word64) (i : BitVec 4) : (s.setStatus v).ctx i = s.ctx i := rfl
@[simp] theorem ctx_setRes (v : Word64) (i : BitVec 4) : (s.setRes v).ctx i = s.ctx i := rfl

@[simp] theorem ctx_setCtx_same (i : BitVec 4) (c : IterCtx) : (s.setCtx i c).ctx i = c := by
  simp [State.ctx]

theorem ctx_setCtx_ne {i j : BitVec 4} (c : IterCtx) (h : j ≠ i) : (s.setCtx i c).ctx j = s.ctx j := by
  have : i.toNat ≠ j.toNat := fun e => h (BitVec.eq_of_toNat_eq e.symm)
  simp [State.ctx, this]

@[simp] theorem ctx_invalidate (a : Nat) (i : BitVec 4) : (s.invalidate a).ctx i = (s.ctx i).touch a := by
  simp [State.ctx, mapIters]

@[simp] theorem ctx_poke (a : Nat) (b : Byte) (i : BitVec 4) : (s.poke a b).ctx i = (s.ctx i).touch a :=
  ctx_invalidate s a i

/-- A byte written or freed outside the buffer leaves a context alone. -/
theorem touch_of_not_covers {a : Nat} {x : IterCtx} (h : x.covers a = false) : x.touch a = x := by
  simp [IterCtx.touch, h]

/-- Only the invalidation mark of a context can change. -/
theorem touch_eq (a : Nat) (x : IterCtx) : x.touch a = x ∨ x.touch a = { x with itInv := true } := by
  unfold IterCtx.touch; split <;> simp

@[simp] theorem touch_itState (a : Nat) (x : IterCtx) : (x.touch a).itState = x.itState := by
  rcases touch_eq a x with h | h <;> rw [h]
@[simp] theorem touch_itXor (a : Nat) (x : IterCtx) : (x.touch a).itXor = x.itXor := by
  rcases touch_eq a x with h | h <;> rw [h]
@[simp] theorem touch_itWord (a : Nat) (x : IterCtx) : (x.touch a).itWord = x.itWord := by
  rcases touch_eq a x with h | h <;> rw [h]
@[simp] theorem touch_itBase (a : Nat) (x : IterCtx) : (x.touch a).itBase = x.itBase := by
  rcases touch_eq a x with h | h <;> rw [h]
@[simp] theorem touch_itNext (a : Nat) (x : IterCtx) : (x.touch a).itNext = x.itNext := by
  rcases touch_eq a x with h | h <;> rw [h]
@[simp] theorem touch_itEnd (a : Nat) (x : IterCtx) : (x.touch a).itEnd = x.itEnd := by
  rcases touch_eq a x with h | h <;> rw [h]
@[simp] theorem touch_itStart (a : Nat) (x : IterCtx) : (x.touch a).itStart = x.itStart := by
  rcases touch_eq a x with h | h <;> rw [h]
@[simp] theorem touch_covers (a b : Nat) (x : IterCtx) : (x.touch a).covers b = x.covers b := by
  simp [IterCtx.covers]

/-- The invalidation mark after a byte is written or freed. -/
theorem touch_itInv (a : Nat) (x : IterCtx) :
    (x.touch a).itInv = (x.itInv || (decide (x.itState = .positioned) && x.covers a)) := by
  unfold IterCtx.touch
  split
  · next h => simp [h.1, h.2]
  · next h =>
    rw [not_and] at h
    by_cases hp : x.itState = .positioned
    · simp [h hp]
    · simp [hp]

/-- What a run of byte writes makes of a context: only its mark can change, and it is set exactly when one of the bytes
lies in the buffer of a POSITIONED context (20_memory R54). -/
theorem ctx_pokes (ws : List Host.Cell) (i : BitVec 4) :
    (s.pokes ws).ctx i = { s.ctx i with
      itInv := ((s.ctx i).itInv ||
        (decide ((s.ctx i).itState = .positioned) && ws.any (fun w => (s.ctx i).covers w.1))) } := by
  induction ws generalizing s with
  | nil => simp
  | cons w ws ih =>
    rw [pokes_cons, ih, ctx_poke, touch_itInv]
    rcases touch_eq w.1 (s.ctx i) with h | h <;> simp [h] <;>
      cases (s.ctx i).itInv <;> by_cases hp : (s.ctx i).itState = .positioned <;> simp [hp, IterCtx.covers]

/-! ### Admission (20_memory R52) -/

@[simp] theorem peek_setPerm (a b : Nat) (p : Perm) : (s.setPerm a p).peek b = s.peek b := by
  simp [State.peek]

/-- The marks of a byte after those of one byte are set. -/
theorem permAt_setPerm (a b : Nat) (p : Perm) : (s.setPerm a p).permAt b = if b = a then p else s.permAt b :=
  cellsGet_set _ _ _ _ _

/-- What an admission change makes of a context: it is touched exactly where a mark is taken away. -/
theorem ctx_setPerm (a : Nat) (p : Perm) (i : BitVec 4) :
    (s.setPerm a p).ctx i =
      if (s.permAt a).read && !p.read || (s.permAt a).write && !p.write then (s.ctx i).touch a else s.ctx i := by
  unfold State.setPerm
  dsimp only
  split
  · exact ctx_invalidate s a i
  · rfl

/-! ### The canonical form is kept -/

theorem poke_wf {a : Nat} {b : Byte} {space : Nat} (h : cellsWf unlistedByte space s.mem) (ha : a < space) :
    cellsWf unlistedByte space (s.poke a b).mem :=
  cellsSet_wf h ha

theorem pokes_wf {ws : List Host.Cell} {space : Nat} (h : cellsWf unlistedByte space s.mem)
    (hw : ∀ w ∈ ws, w.1 < space) : cellsWf unlistedByte space (s.pokes ws).mem := by
  induction ws generalizing s with
  | nil => exact h
  | cons w ws ih =>
    exact ih _ (poke_wf s h (hw w (by simp))) (fun v hv => hw v (by simp [hv]))

theorem setPerm_wf {a : Nat} {p : Perm} {space : Nat} (h : cellsWf Perm.closed space s.perm) (ha : a < space) :
    cellsWf Perm.closed space (s.setPerm a p).perm :=
  cellsSet_wf h ha

theorem reset_mem_wf : cellsWf unlistedByte State.reset.params.space State.reset.mem := by
  simp [State.reset, cellsWf]

/-! ### Operands and admission see neither memory nor results -/

@[simp] theorem op_setStatus (v : Word64) (r : OpReg) : (s.setStatus v).op r = s.op r := by cases r <;> rfl
@[simp] theorem op_setRes (v : Word64) (r : OpReg) : (s.setRes v).op r = s.op r := by cases r <;> rfl
@[simp] theorem op_setCtx (i : BitVec 4) (c : IterCtx) (r : OpReg) : (s.setCtx i c).op r = s.op r := by
  cases r <;> rfl
@[simp] theorem op_poke (a : Nat) (b : Byte) (r : OpReg) : (s.poke a b).op r = s.op r := by cases r <;> rfl
@[simp] theorem op_pokes (ws : List Host.Cell) (r : OpReg) : (s.pokes ws).op r = s.op r := by
  cases r <;> simp [State.op]

@[simp] theorem use_setStatus (v : Word64) (r : OpReg) : (s.setStatus v).use r = s.use r := by simp [State.use]
@[simp] theorem use_setRes (v : Word64) (r : OpReg) : (s.setRes v).use r = s.use r := by simp [State.use]
@[simp] theorem use_poke (a : Nat) (b : Byte) (r : OpReg) : (s.poke a b).use r = s.use r := by simp [State.use]
@[simp] theorem use_pokes (ws : List Host.Cell) (r : OpReg) : (s.pokes ws).use r = s.use r := by simp [State.use]

@[simp] theorem permAt_pokes (ws : List Host.Cell) (a : Nat) : (s.pokes ws).permAt a = s.permAt a := by
  simp [State.permAt]
@[simp] theorem canRead_setStatus (v : Word64) (a : Nat) : (s.setStatus v).canRead a = s.canRead a := rfl
@[simp] theorem canRead_setRes (v : Word64) (a : Nat) : (s.setRes v).canRead a = s.canRead a := rfl
@[simp] theorem canRead_setCtx (i : BitVec 4) (c : IterCtx) (a : Nat) :
    (s.setCtx i c).canRead a = s.canRead a := rfl
@[simp] theorem canRead_pokes (ws : List Host.Cell) (a : Nat) : (s.pokes ws).canRead a = s.canRead a := by
  simp [State.canRead]
@[simp] theorem canWrite_pokes (ws : List Host.Cell) (a : Nat) : (s.pokes ws).canWrite a = s.canWrite a := by
  simp [State.canWrite]

theorem canRead_lt {a : Nat} (h : s.canRead a = true) : a < s.params.space := by
  simp only [State.canRead, Bool.and_eq_true, decide_eq_true_eq] at h; exact h.1.1

theorem canWrite_lt {a : Nat} (h : s.canWrite a = true) : a < s.params.space := by
  simp only [State.canWrite, Bool.and_eq_true, decide_eq_true_eq] at h; exact h.1.1

/-- A position, address, count or size fits its width. -/
theorem use_lt (r : OpReg) : s.use r < s.params.space := by
  unfold State.use Params.space
  exact Nat.mod_lt _ (Nat.pos_of_ne_zero (by simp))

/-- Cells laid out from an address have the rising addresses of the access. -/
theorem cellsFrom_addrs (a : Nat) (bs : List Byte) : (cellsFrom a bs).map Prod.fst = List.range' a bs.length := by
  simp [cellsFrom, List.map_fst_zip]

theorem cellsFrom_nodup (a : Nat) (bs : List Byte) : ((cellsFrom a bs).map Prod.fst).Nodup := by
  rw [cellsFrom_addrs]; exact List.nodup_range'

/-- The `k`-th byte laid out from an address. -/
theorem mem_cellsFrom {a k : Nat} {bs : List Byte} (h : k < bs.length) : (a + k, bs[k]) ∈ cellsFrom a bs := by
  unfold cellsFrom
  rw [List.mem_iff_getElem]
  exact ⟨k, by simpa using h, by simp⟩

end Sys2Proof.Machine
end

