-- ==== Sys2Proof/Laws/Ending.lean ====
section
/-! SUPPORT. What each check of a command can do, said once: when it lets the command go on, and what a next state of
the whole says about it. -/

namespace Sys2Proof.Machine

variable {s t : State} {c : Bool} {k : Result}

@[simp] theorem finish_next : finish s = .next t ↔ t = s.setStatus statusOk := by
  simp [finish, eq_comm]

@[simp] theorem finishNone_next :
    finishNone s = .next t ↔ t = (s.setRes s.params.noneValue).setStatus statusNone := by
  simp [finishNone, eq_comm]

@[simp] theorem endError_next {e : ErrCode} : endError e s = .next t ↔ t = s.setStatus (statusErr e) := by
  simp [endError, eq_comm]

/-- With its operand registers written, a command goes on. -/
theorem needs_of_written {rs : List OpReg} (h : ∀ r ∈ rs, (s.op r).written = true) : needs rs s k = k := by
  induction rs with
  | nil => rfl
  | cons r rs ih => simp [needs, h r (by simp), ih (fun q hq => h q (by simp [hq]))]

/-- A command that answers a next state had its operand registers written. -/
theorem needs_next {rs : List OpReg} :
    needs rs s k = .next t ↔ (∀ r ∈ rs, (s.op r).written = true) ∧ k = .next t := by
  induction rs with
  | nil => simp [needs]
  | cons r rs ih =>
    by_cases h : (s.op r).written = true
    · simp [needs, h, ih]
    · simp [needs, h]

theorem check_of_ok {ok : Bool} {e : ErrCode} {f : Fault} (h : ok = true) : check c s ok e f k = k := by
  simp [check, h]

theorem check_of_not {ok : Bool} {e : ErrCode} {f : Fault} (h : ok = false) :
    check c s ok e f k = if c then endError e s else .fault f := by
  simp [check, h]

/-- A check that answers a next state held, or was a checked error. -/
theorem check_next {ok : Bool} {e : ErrCode} {f : Fault} :
    check c s ok e f k = .next t ↔
      (ok = true ∧ k = .next t) ∨ (ok = false ∧ c = true ∧ t = s.setStatus (statusErr e)) := by
  cases ok <;> cases c <;> simp [check]

theorem inRange_of_le {limit : Nat} (h : limit ≤ s.params.space) : inRange c s limit k = k :=
  check_of_ok (by simpa using h)

theorem inRange_of_lt {limit : Nat} (h : s.params.space < limit) :
    inRange c s limit k = if c then endError .range s else .fault (.range s.cmd) :=
  check_of_not (by simpa using h)

theorem inRange_next {limit : Nat} :
    inRange c s limit k = .next t ↔
      (limit ≤ s.params.space ∧ k = .next t) ∨
        (s.params.space < limit ∧ c = true ∧ t = s.setStatus (statusErr .range)) := by
  simp [inRange, check_next]

@[simp] theorem admitted_none : admitted none s k = k := rfl
@[simp] theorem admitted_some {a : Int} : admitted (some a) s k = .fault (.mem a s.cmd) := rfl

theorem admitted_next {bad : Option Int} : admitted bad s k = .next t ↔ bad = none ∧ k = .next t := by
  cases bad <;> simp

theorem firstBad_none {ok : Nat → Bool} {as : List Nat} : firstBad ok as = none ↔ ∀ a ∈ as, ok a = true := by
  simp [firstBad]

/-- The address reported is the first that fails. -/
theorem firstBad_some {ok : Nat → Bool} {as : List Nat} {e : Int} (h : firstBad ok as = some e) :
    ∃ a ∈ as, ok a = false ∧ e = (a : Int) := by
  simp only [firstBad, Option.map_eq_some_iff] at h
  obtain ⟨a, ha, rfl⟩ := h
  exact ⟨a, List.mem_of_find?_eq_some ha, by simpa using List.find?_some ha, rfl⟩

theorem lower_none {x y : Option Int} : lower x y = none ↔ x = none ∧ y = none := by
  cases x <;> cases y <;> simp [lower]

/-! ### Addresses, spans and masks -/

@[simp] theorem mem_accessAddrs {a n x : Nat} : x ∈ accessAddrs a n ↔ a ≤ x ∧ x < a + n := by
  simp [accessAddrs, List.mem_range'_1]

theorem mem_spanOffsets {p n k : Nat} : k ∈ spanOffsets p n ↔ 0 < n ∧ p / 8 ≤ k ∧ k ≤ (p + n - 1) / 8 := by
  unfold spanOffsets
  split
  · next h => simp [h]
  · next h =>
    have : p / 8 ≤ (p + n - 1) / 8 := Nat.div_le_div_right (by omega)
    rw [List.mem_range'_1]; omega

theorem mem_spanAddrs {b p n x : Nat} :
    x ∈ spanAddrs b p n ↔ 0 < n ∧ b + p / 8 ≤ x ∧ x ≤ b + (p + n - 1) / 8 := by
  simp only [spanAddrs, List.mem_map, mem_spanOffsets]
  constructor
  · rintro ⟨k, ⟨h1, h2, h3⟩, rfl⟩; omega
  · rintro ⟨h1, h2, h3⟩; exact ⟨x - b, by omega, by omega⟩

theorem spanOffsets_nodup (p n : Nat) : (spanOffsets p n).Nodup := by
  unfold spanOffsets; split
  · simp
  · exact List.nodup_range'

/-- Bit `j` of a byte made of bits. -/
theorem byteOfBits_bit (f : Nat → Bool) {j : Nat} (h : j < 8) : (byteOfBits f).getLsbD j = f j := by
  simp only [byteOfBits, BitVec.getLsbD_ofBoolListLE]
  interval_cases j <;> rfl

theorem inBitRange_iff {p n q : Nat} : inBitRange p n q = true ↔ p ≤ q ∧ q < p + n := by simp [inBitRange]

/-- Bit `j` of a span byte's mask (00_scope R12). -/
theorem rangeMask_bit (p n k : Nat) {j : Nat} (h : j < 8) :
    (rangeMask p n k).getLsbD j = inBitRange p n (8 * k + j) :=
  byteOfBits_bit _ h

/-- Bit `j` of a merged byte: the new bit inside the mask, the old one outside. -/
theorem mergeByte_bit (m old new : Byte) {j : Nat} (h : j < 8) :
    (mergeByte m old new).getLsbD j = if m.getLsbD j then new.getLsbD j else old.getLsbD j := by
  unfold mergeByte
  split
  · next hm =>
    have hj : m.getLsbD j = true := by rw [hm]; interval_cases j <;> rfl
    simp [hj]
  · simp only [BitVec.getLsbD_or, BitVec.getLsbD_and, BitVec.getLsbD_not, h, decide_true, Bool.true_and]
    cases m.getLsbD j <;> simp

/-! ### Counting functions (00_scope R13) -/

/-- Where there is a set bit, `lowest` is one, and none is below it. -/
theorem lowest_spec {w : Nat} {x : Nat → Bool} (h : ∃ j < w, x j = true) :
    lowest w x < w ∧ x (lowest w x) = true ∧ ∀ j < lowest w x, x j = false := by
  unfold lowest
  cases hf : (List.range w).find? x with
  | none =>
    obtain ⟨j, hj, hx⟩ := h
    have := List.find?_eq_none.1 hf j (by simpa using hj)
    simp [hx] at this
  | some m =>
    rw [List.find?_range_eq_some] at hf
    simp only [Option.getD_some]
    exact ⟨by simpa using hf.2.1, hf.1, fun j hj => by simpa using hf.2.2 j hj⟩

/-- Where there is a set bit, `highest` is one, and none is above it. -/
theorem highest_spec {w : Nat} {x : Nat → Bool} (h : ∃ j < w, x j = true) :
    highest w x < w ∧ x (highest w x) = true ∧ ∀ j, highest w x < j → j < w → x j = false := by
  unfold highest
  induction w with
  | zero => obtain ⟨j, hj, -⟩ := h; omega
  | succ w ih =>
    rw [List.range_succ, List.reverse_append]
    simp only [List.reverse_cons, List.reverse_nil, List.nil_append, List.singleton_append, List.find?_cons]
    cases hw : x w with
    | true => simp only [Option.getD_some]; exact ⟨by omega, hw, fun j h1 h2 => by omega⟩
    | false =>
      have h' : ∃ j < w, x j = true := by
        obtain ⟨j, hj, hx⟩ := h
        refine ⟨j, ?_, hx⟩
        rcases Nat.lt_succ_iff_lt_or_eq.1 hj with h | rfl
        · exact h
        · rw [hw] at hx; cases hx
      obtain ⟨h1, h2, h3⟩ := ih h'
      dsimp only
      refine ⟨by omega, h2, fun j hj hjw => ?_⟩
      rcases Nat.lt_succ_iff_lt_or_eq.1 hjw with h | rfl
      · exact h3 j hj h
      · exact hw

theorem mem_setBits {w j : Nat} {x : Nat → Bool} : j ∈ setBits w x ↔ j < w ∧ x j = true := by simp [setBits]

theorem setBits_length (w : Nat) (x : Nat → Bool) : (setBits w x).length = popcount w x := by
  simp [setBits, popcount, List.countP_eq_length_filter]

theorem popcount_le (w : Nat) (x : Nat → Bool) : popcount w x ≤ w := by
  simpa [popcount] using List.countP_le_length (p := x) (l := List.range w)

/-! ### Byte order (20_memory R56) -/

@[simp] theorem leBytes_length (n v : Nat) : (leBytes n v).length = n := by simp [leBytes]

@[simp] theorem orderBytes_length (o : ByteOrder) (n v : Nat) : (orderBytes o n v).length = n := by
  cases o <;> simp [orderBytes]

@[simp] theorem bytesAt_length (a n : Nat) : (s.bytesAt a n).length = n := by simp [State.bytesAt]

theorem leValue_append (xs ys : List Byte) : leValue (xs ++ ys) = leValue xs + 256 ^ xs.length * leValue ys := by
  induction xs with
  | nil => simp [leValue]
  | cons x xs ih => simp only [List.cons_append, leValue, ih, List.length_cons, pow_succ]; ring

theorem leValue_lt (bs : List Byte) : leValue bs < 256 ^ bs.length := by
  induction bs with
  | nil => simp [leValue]
  | cons b bs ih => simp only [leValue, List.length_cons, pow_succ]; have := b.isLt; omega

theorem leBytes_succ (n v : Nat) : leBytes (n + 1) v = BitVec.ofNat 8 v :: leBytes n (v / 256) := by
  simp only [leBytes, List.range_succ_eq_map, List.map_cons, List.map_map, Nat.mul_zero, pow_zero, Nat.div_one,
    List.cons.injEq, true_and]
  refine List.map_congr_left fun k _ => ?_
  have h : (2 : Nat) ^ (8 * (k + 1)) = 256 * 2 ^ (8 * k) := by rw [Nat.mul_add, pow_add]; norm_num; ring
  simp only [Function.comp_apply, Nat.succ_eq_add_one, h, Nat.div_div_eq_div_mul]

/-- The bytes of a number stand for it, modulo their width. -/
theorem leValue_leBytes (n v : Nat) : leValue (leBytes n v) = v % 256 ^ n := by
  induction n generalizing v with
  | zero => simp [leBytes, leValue, Nat.mod_one]
  | succ n ih =>
    rw [leBytes_succ, leValue, ih, BitVec.toNat_ofNat, show 256 ^ (n + 1) = 256 * 256 ^ n by ring, Nat.mod_mul]

theorem orderValue_orderBytes (o : ByteOrder) (n v : Nat) : orderValue o (orderBytes o n v) = v % 256 ^ n := by
  cases o <;> simp [orderValue, orderBytes, leValue_leBytes]

/-- Bit `q` of a little-endian number is bit `q % 8` of byte `q / 8`. -/
theorem leValue_testBit (bs : List Byte) (q : Nat) :
    (leValue bs).testBit q = (bs.getD (q / 8) 0).getLsbD (q % 8) := by
  induction bs generalizing q with
  | nil => simp [leValue]
  | cons b bs ih =>
    have hb := b.isLt
    rw [leValue, Nat.add_comm, show (256 : Nat) = 2 ^ 8 from rfl, Nat.testBit_two_pow_mul_add _ hb]
    split
    · next h => simp [Nat.div_eq_of_lt h, Nat.mod_eq_of_lt h, BitVec.getLsbD]
    · next h =>
      obtain ⟨r, rfl⟩ : ∃ r, q = r + 8 := ⟨q - 8, by omega⟩
      rw [Nat.add_sub_cancel, ih]
      simp [Nat.add_div_right]

end Sys2Proof.Machine
end

