-- ==== Sys2Proof/Laws/Access.lean ====
section
/-! SUPPORT. What the shared checks of a family of commands can do: one inversion lemma for each ("if the whole answers
a next state, then …"), which every proof about a command of the family cites. -/

namespace Sys2Proof.Machine

variable {s t : State} {c : Bool} {k : Result}

/-- A command that ended with a checked error changed nothing but STATUS (60_exceptions R235). -/
abbrev EndedWith (c : Bool) (e : ErrCode) (s t : State) : Prop := c = true ∧ t = s.setStatus (statusErr e)

/-- 41 R101. -/
theorem scalarAccess_next {rs : List OpReg} {ok : Nat → Bool} {n : Nat} :
    scalarAccess rs ok n c s k = .next t ↔ (∀ r ∈ rs, (s.op r).written = true) ∧
      ((s.use .addr + n ≤ s.params.space ∧ (∀ a ∈ accessAddrs (s.use .addr) n, ok a = true) ∧ k = .next t) ∨
        (s.params.space < s.use .addr + n ∧ EndedWith c .range s t)) := by
  simp only [scalarAccess, needs_next, inRange_next, admitted_next, firstBad_none, EndedWith]

/-- 42 R130. -/
theorem bitAccess_next {ok : Nat → Bool} :
    bitAccess ok c s k = .next t ↔ (∀ r ∈ [OpReg.addr, .pos], (s.op r).written = true) ∧
      ((bitAddr s + 1 ≤ s.params.space ∧ ok (bitAddr s) = true ∧ k = .next t) ∨
        (s.params.space < bitAddr s + 1 ∧ EndedWith c .range s t)) := by
  simp only [bitAccess, needs_next, inRange_next, admitted_next, firstBad_none, EndedWith, List.mem_singleton,
    forall_eq]

/-- 43 R150, 46 R193: both range checks, in either order of failing. -/
theorem rangeAccess_next {b p n : Nat} :
    rangeAccess b p n c s k = .next t ↔
      ((p + n ≤ s.params.space ∧ b + (p + n - 1) / 8 + 1 ≤ s.params.space) ∧ k = .next t) ∨
        ((s.params.space < p + n ∨ s.params.space < b + (p + n - 1) / 8 + 1) ∧ EndedWith c .range s t) := by
  simp only [rangeAccess, inRange_next, EndedWith, ← Nat.not_le]
  by_cases h1 : p + n ≤ s.params.space <;> by_cases h2 : b + (p + n - 1) / 8 + 1 ≤ s.params.space <;>
    simp only [h1, h2] <;> tauto

/-- 45 R180. -/
theorem zeroDetect_next {w : Nat} {x : BitVec w} {n : Nat} :
    zeroDetect x n c s = .next t ↔ s.val.written = true ∧
      ((x ≠ 0 ∧ t = (s.setRes (word64 n)).setStatus statusOk) ∨ (x = 0 ∧ EndedWith c .zeroInput s t)) := by
  simp only [zeroDetect, needs_next, check_next, finish_next, EndedWith, List.mem_singleton, forall_eq, State.op,
    decide_eq_true_eq, decide_eq_false_iff_not, not_not, ne_eq]

/-- 47 R200. -/
theorem bitIndex_next {js : List Nat} :
    bitIndex js c s = .next t ↔ (∀ r ∈ [OpReg.addr, .pos, .val], (s.op r).written = true) ∧
      ((idxEnd js s + 1 ≤ s.params.space ∧
          (∀ a ∈ accessAddrs (s.use .addr) (idxBytes s * js.length), s.canWrite a = true) ∧
          t = ((s.pokes (idxCells js s)).setRes (word64 (idxEnd js s))).setStatus statusOk) ∨
        (s.params.space < idxEnd js s + 1 ∧ EndedWith c .range s t)) := by
  simp only [bitIndex, needs_next, inRange_next, admitted_next, firstBad_none, finish_next, EndedWith]

/-- The addresses a fill writes are those of its span. -/
theorem fillCells_addrs (v : Bool) (s : State) :
    (fillCells v s).map Prod.fst = spanAddrs (s.use .addr) (s.use .pos) (s.use .len) := by
  simp [fillCells, spanAddrs, Function.comp_def]

/-- The addresses a copy writes are those of its destination span. -/
theorem copyCells_addrs (s : State) :
    (copyCells s).map Prod.fst = spanAddrs (s.use .addr) (s.use .pos) (s.use .len) := by
  simp [copyCells, spanAddrs, Function.comp_def]

theorem spanAddrs_nodup (b p n : Nat) : (spanAddrs b p n).Nodup :=
  (spanOffsets_nodup p n).map (fun _ _ h => by simpa using h)

/-- Bit indexing writes EB bytes for every set bit. -/
theorem idxBytes_length (js : List Nat) (s : State) :
    ((idxElements js s).flatMap (orderBytes s.params.hostOrder (idxBytes s))).length = idxBytes s * js.length := by
  simp only [List.length_flatMap, orderBytes_length, List.map_const', List.sum_replicate, smul_eq_mul, idxElements,
    List.length_map]
  ring

/-- The addresses bit indexing writes are those of its access. -/
theorem idxCells_addrs (js : List Nat) (s : State) :
    (idxCells js s).map Prod.fst = accessAddrs (s.use .addr) (idxBytes s * js.length) := by
  rw [idxCells, cellsFrom_addrs, idxBytes_length, accessAddrs]

/-- The addresses a store writes are those of its access. -/
theorem storeCells_addrs (o : ByteOrder) (a n v : Nat) :
    (cellsFrom a (orderBytes o n v)).map Prod.fst = accessAddrs a n := by
  rw [cellsFrom_addrs, orderBytes_length, accessAddrs]

/-! ### The iterator's search (47 R211, R213, R214) -/

@[simp] theorem loadWord_itState (a : Nat) (x : IterCtx) : (loadWord s a x).itState = x.itState := rfl
@[simp] theorem loadWord_itXor (a : Nat) (x : IterCtx) : (loadWord s a x).itXor = x.itXor := rfl
@[simp] theorem loadWord_itStart (a : Nat) (x : IterCtx) : (loadWord s a x).itStart = x.itStart := rfl
@[simp] theorem loadWord_itEnd (a : Nat) (x : IterCtx) : (loadWord s a x).itEnd = x.itEnd := rfl
@[simp] theorem loadWord_itInv (a : Nat) (x : IterCtx) : (loadWord s a x).itInv = x.itInv := rfl

/-- What a search that ends with a hit went through: some words without a hit, then one with. -/
theorem searchWords_hit {m a : Nat} {x y : IterCtx} (h : searchWords s m a x = .hit y) :
    ∃ r < m, ∃ z, y = loadWord s (a + r * s.params.wb) z ∧ y.itWord.val ≠ 0 ∧
      z.itXor = x.itXor ∧ z.itStart = x.itStart ∧ z.itEnd = x.itEnd ∧ z.itInv = x.itInv ∧ z.itState = x.itState ∧
      a + r * s.params.wb + s.params.wb ≤ s.params.space ∧
      (∀ q ≤ r, ∀ e ∈ accessAddrs (a + q * s.params.wb) s.params.wb, s.canRead e = true) ∧
      ∀ q < r, word64 (s.loadValue .le (a + q * s.params.wb) s.params.wb) ^^^ x.itXor.val = 0 := by
  induction m generalizing a x with
  | zero => simp [searchWords] at h
  | succ m ih =>
    unfold searchWords at h
    split at h
    · next hr =>
      split at h
      · simp at h
      · next hb =>
        rw [firstBad_none] at hb
        split at h
        · next hz =>
          obtain ⟨r, hrm, z, rfl, hne, h1, h2, h3, h4, h5, h6, h7, h8⟩ := ih h
          have hadd : ∀ q, a + s.params.wb + q * s.params.wb = a + (q + 1) * s.params.wb := fun q => by ring
          refine ⟨r + 1, by omega, z, by rw [hadd], hne, h1, h2, h3, h4, h5, by rw [← hadd]; exact h6, ?_, ?_⟩
          · intro q hq
            cases q with
            | zero => simpa using hb
            | succ q => rw [← hadd]; exact h7 q (by omega)
          · intro q hq
            cases q with
            | zero => simpa [loadWord, Marked.of] using hz
            | succ q => rw [← hadd]; exact h8 q (by omega)
        · next hz =>
          simp only [Search.hit.injEq] at h
          subst h
          refine ⟨0, by omega, x, by simp, hz, rfl, rfl, rfl, rfl, rfl, by simpa using hr, ?_, by simp⟩
          intro q hq
          obtain rfl : q = 0 := by omega
          simpa using hb
    · simp at h

/-- What a search that finds nothing went through: `m` words without a hit. -/
theorem searchWords_dry {m a : Nat} {x y : IterCtx} (h : searchWords s m a x = .dry y) :
    (m = 0 ∧ y = x ∨ 0 < m ∧ ∃ z, y = loadWord s (a + (m - 1) * s.params.wb) z ∧ y.itWord.val = 0 ∧
      z.itXor = x.itXor ∧ z.itStart = x.itStart ∧ z.itEnd = x.itEnd ∧ z.itInv = x.itInv ∧ z.itState = x.itState) ∧
      (∀ q < m, ∀ e ∈ accessAddrs (a + q * s.params.wb) s.params.wb, s.canRead e = true) ∧
      ∀ q < m, word64 (s.loadValue .le (a + q * s.params.wb) s.params.wb) ^^^ x.itXor.val = 0 := by
  induction m generalizing a x with
  | zero => simp [searchWords] at h; simp [h]
  | succ m ih =>
    unfold searchWords at h
    split at h
    · split at h
      · simp at h
      · next hb =>
        rw [firstBad_none] at hb
        split at h
        · next hz =>
          obtain ⟨hy, h1, h2⟩ := ih h
          have hadd : ∀ q, a + s.params.wb + q * s.params.wb = a + (q + 1) * s.params.wb := fun q => by ring
          refine ⟨.inr ⟨by omega, ?_⟩, ?_, ?_⟩
          · rcases hy with ⟨rfl, rfl⟩ | ⟨hm, z, rfl, hw, h3, h4, h5, h6, h7⟩
            · exact ⟨x, by simp, hz, rfl, rfl, rfl, rfl, rfl⟩
            · have : m - 1 + 1 = m := by omega
              exact ⟨z, by rw [hadd, this]; rfl, hw, h3, h4, h5, h6, h7⟩
          · intro q hq
            cases q with
            | zero => simpa using hb
            | succ q => rw [← hadd]; exact h1 q (by omega)
          · intro q hq
            cases q with
            | zero => simpa [loadWord, Marked.of] using hz
            | succ q => rw [← hadd]; exact h2 q (by omega)
        · simp at h
    · simp at h

/-- A rising access whose byte `k` is the first to fail a test. -/
theorem firstBad_accessAddrs {ok : Nat → Bool} {a n k : Nat} (hk : k < n) (hb : ∀ j < k, ok (a + j) = true)
    (h : ok (a + k) = false) : firstBad ok (accessAddrs a n) = some ((a + k : Nat) : Int) := by
  obtain ⟨m, rfl⟩ : ∃ m, n = k + (m + 1) := ⟨n - k - 1, by omega⟩
  have hnone : (List.range' a k).find? (fun x => !ok x) = none := by
    simp only [List.find?_eq_none, List.mem_range'_1]
    intro x hx
    have := hb (x - a) (by omega)
    rw [show a + (x - a) = x by omega] at this
    simp [this]
  have hsplit : List.range' a (k + (m + 1)) = List.range' a k ++ (a + k) :: List.range' (a + k + 1) m := by
    rw [← List.range'_append_1, List.range'_succ]
  simp [firstBad, accessAddrs, hsplit, hnone, h]

/-- A search whose first `r` words are readable and without a hit and whose next word has an unreadable byte at offset
`k`, the lowest one, is blocked there. -/
theorem searchWords_blocked {m r k a : Nat} {x : IterCtx} (hr : r < m) (hk : k < s.params.wb)
    (hspace : a + r * s.params.wb + s.params.wb ≤ s.params.space)
    (hread : ∀ j < r * s.params.wb + k, s.canRead (a + j) = true)
    (hbad : s.canRead (a + r * s.params.wb + k) = false)
    (hnone : ∀ q < r, word64 (s.loadValue .le (a + q * s.params.wb) s.params.wb) ^^^ x.itXor.val = 0) :
    searchWords s m a x = .blocked ((a + r * s.params.wb + k : Nat) : Int) := by
  induction r generalizing m a x with
  | zero =>
    obtain ⟨m, rfl⟩ : ∃ n, m = n + 1 := ⟨m - 1, by omega⟩
    simp only [Nat.zero_mul, Nat.add_zero, Nat.zero_add] at hspace hread hbad ⊢
    simp only [searchWords, hspace, firstBad_accessAddrs hk hread hbad, if_true]
  | succ r ih =>
    obtain ⟨m, rfl⟩ : ∃ n, m = n + 1 := ⟨m - 1, by omega⟩
    have hadd : ∀ q, a + s.params.wb + q * s.params.wb = a + (q + 1) * s.params.wb := fun q => by ring
    have hmul : (r + 1) * s.params.wb = r * s.params.wb + s.params.wb := by ring
    have hfirst : firstBad s.canRead (accessAddrs a s.params.wb) = none := by
      rw [firstBad_none]
      intro e he
      rw [accessAddrs, List.mem_range'_1] at he
      have := hread (e - a) (by omega)
      rwa [show a + (e - a) = e by omega] at this
    have hzero : (loadWord s a x).itWord.val = 0 := by simpa [loadWord, Marked.of] using hnone 0 (by omega)
    have hfit : a + s.params.wb ≤ s.params.space := by omega
    simp only [searchWords, hfit, hfirst, hzero, if_true]
    rw [ih (by omega) (by rw [hadd]; exact hspace)
      (fun j hj => by
        have := hread (s.params.wb + j) (by omega)
        rwa [← Nat.add_assoc] at this)
      (by rw [hadd]; exact hbad)
      (fun q hq => by rw [hadd]; exact hnone (q + 1) (by omega)), hadd]

end Sys2Proof.Machine
end

