-- ==== Sys2Proof/Laws/PerInstr.lean ====
section
/-! SUPPORT. The family of statements the host takes per instruction: the fields of a command's word. -/

namespace Sys2Proof.Laws.EncodedFields

/-- The word of a command has its reserved bits 0 and holds the command's opcode, `c`, `v` and `it` in the places of
30_encoding R70. -/
def Statement (i : Instr) : Prop :=
  reservedZero (encode i) = true ∧ fieldOpc (encode i) = i.opc ∧ fieldC (encode i) = i.checked ∧
    fieldV (encode i) = i.valueBit ∧ fieldIt (encode i) = i.context

/-- Bit `j` of a packed word (30_encoding R70). -/
theorem packFields_bit (opc : BitVec 8) (c v : Bool) (it : BitVec 4) (j : Nat) :
    (packFields opc c v it).getLsbD j =
      if j < 8 then opc.getLsbD j else if j = 8 then c else if j = 9 then v
      else if j < 12 then false else if j < 16 then it.getLsbD (j - 12) else false := by
  unfold packFields
  simp only [BitVec.getLsbD_append, BitVec.getLsbD_ofBool, BitVec.getLsbD_zero]
  by_cases h : j < 8
  · simp [h]
  · by_cases h8 : j = 8
    · simp [h8]
    · by_cases h9 : j = 9
      · simp [h9]
      · by_cases h12 : j < 12
        · have : ¬ j - 8 < 1 := by omega
          have : ¬ j - 8 - 1 < 1 := by omega
          have : j - 8 - 1 - 1 < 2 := by omega
          simp [*]
        · have : ¬ j - 8 < 1 := by omega
          have : ¬ j - 8 - 1 < 1 := by omega
          have : ¬ j - 8 - 1 - 1 < 2 := by omega
          have e : j - 8 - 1 - 1 - 2 = j - 12 := by omega
          by_cases h16 : j < 16
          · have : j - 12 < 4 := by omega
            simp [*]
          · have : ¬ j - 12 < 4 := by omega
            simp [*]

/-- The fields of a packed word are those it was packed from. -/
theorem packFields_fields (opc : BitVec 8) (c v : Bool) (it : BitVec 4) :
    reservedZero (packFields opc c v it) = true ∧ fieldOpc (packFields opc c v it) = opc ∧
      fieldC (packFields opc c v it) = c ∧ fieldV (packFields opc c v it) = v ∧
      fieldIt (packFields opc c v it) = it := by
  refine ⟨?_, ?_, ?_, ?_, ?_⟩
  · simp only [reservedZero, Bool.and_eq_true, beq_iff_eq]
    constructor <;> refine BitVec.eq_of_getLsbD_eq fun j hj => ?_
    · rw [BitVec.getLsbD_extractLsb', packFields_bit]
      have : ¬ 10 + j < 8 := by omega
      have : 10 + j < 12 := by omega
      have : ¬ 10 + j = 8 := by omega
      have : ¬ 10 + j = 9 := by omega
      simp [*]
    · rw [BitVec.getLsbD_extractLsb', packFields_bit]
      have : ¬ 16 + j < 8 := by omega
      have : ¬ 16 + j < 12 := by omega
      have : ¬ 16 + j < 16 := by omega
      have : ¬ 16 + j = 8 := by omega
      have : ¬ 16 + j = 9 := by omega
      simp [*]
  · refine BitVec.eq_of_getLsbD_eq fun j hj => ?_
    rw [fieldOpc, BitVec.getLsbD_extractLsb', packFields_bit]
    simp [hj]
  · rw [fieldC, packFields_bit]; simp
  · rw [fieldV, packFields_bit]; simp
  · refine BitVec.eq_of_getLsbD_eq fun j hj => ?_
    rw [fieldIt, BitVec.getLsbD_extractLsb', packFields_bit]
    have : ¬ 12 + j < 8 := by omega
    have : ¬ 12 + j = 8 := by omega
    have : ¬ 12 + j = 9 := by omega
    have : ¬ 12 + j < 12 := by omega
    have : 12 + j < 16 := by omega
    simp [*]

theorem ld8 (c : Bool) : Statement (.ld8 c) := packFields_fields _ _ _ _
theorem ld16 (c : Bool) : Statement (.ld16 c) := packFields_fields _ _ _ _
theorem ld32 (c : Bool) : Statement (.ld32 c) := packFields_fields _ _ _ _
theorem ld64 (c : Bool) : Statement (.ld64 c) := packFields_fields _ _ _ _
theorem ldf32 (c : Bool) : Statement (.ldf32 c) := packFields_fields _ _ _ _
theorem ldf64 (c : Bool) : Statement (.ldf64 c) := packFields_fields _ _ _ _
theorem ldbool (c : Bool) : Statement (.ldbool c) := packFields_fields _ _ _ _
theorem st8 (c : Bool) : Statement (.st8 c) := packFields_fields _ _ _ _
theorem st16 (c : Bool) : Statement (.st16 c) := packFields_fields _ _ _ _
theorem st32 (c : Bool) : Statement (.st32 c) := packFields_fields _ _ _ _
theorem st64 (c : Bool) : Statement (.st64 c) := packFields_fields _ _ _ _
theorem stf32 (c : Bool) : Statement (.stf32 c) := packFields_fields _ _ _ _
theorem stf64 (c : Bool) : Statement (.stf64 c) := packFields_fields _ _ _ _
theorem stbool (c : Bool) : Statement (.stbool c) := packFields_fields _ _ _ _
theorem btst (c : Bool) : Statement (.btst c) := packFields_fields _ _ _ _
theorem bset (c : Bool) : Statement (.bset c) := packFields_fields _ _ _ _
theorem bclr (c : Bool) : Statement (.bclr c) := packFields_fields _ _ _ _
theorem bmsize (c : Bool) : Statement (.bmsize c) := packFields_fields _ _ _ _
theorem bfill (c v : Bool) : Statement (.bfill c v) := packFields_fields _ _ _ _
theorem bcopy (c : Bool) : Statement (.bcopy c) := packFields_fields _ _ _ _
theorem ctz32 (c : Bool) : Statement (.ctz32 c) := packFields_fields _ _ _ _
theorem ctz64 (c : Bool) : Statement (.ctz64 c) := packFields_fields _ _ _ _
theorem clz32 (c : Bool) : Statement (.clz32 c) := packFields_fields _ _ _ _
theorem clz64 (c : Bool) : Statement (.clz64 c) := packFields_fields _ _ _ _
theorem popc32 (c : Bool) : Statement (.popc32 c) := packFields_fields _ _ _ _
theorem popc64 (c : Bool) : Statement (.popc64 c) := packFields_fields _ _ _ _
theorem bcount (c : Bool) : Statement (.bcount c) := packFields_fields _ _ _ _
theorem bidx32 (c : Bool) : Statement (.bidx32 c) := packFields_fields _ _ _ _
theorem bidx64 (c : Bool) : Statement (.bidx64 c) := packFields_fields _ _ _ _
theorem itinit (c v : Bool) (it : BitVec 4) : Statement (.itinit c v it) := packFields_fields _ _ _ _
theorem itnext (c : Bool) (it : BitVec 4) : Statement (.itnext c it) := packFields_fields _ _ _ _

end Sys2Proof.Laws.EncodedFields
end

