-- ==== Sys2Proof/Tests/Slice0.lean ====
section
/-! SUPPORT. The model's own tests: expected values are those of spec/95_test_vectors.md and the words and states that
the rules print, never the model's own answers; and, for every statement with hypotheses, a state that meets them. -/

namespace Sys2Proof.Tests

open Sys2Proof Sys2Proof.Machine

set_option synthInstance.maxSize 1000

/-! ### Helpers -/

/-- An instance with the given bytes of DMEM, all admitted for reading and writing, and operand registers written. -/
def bench (p : Params) (cells : List Host.Cell) (regs : List (OpReg × Word64)) : State :=
  regs.foldl (fun s r => s.setOp r.1 r.2)
    { State.reset with
      params := p
      mem := cells.filter (fun c => c.2 != 0)
      perm := cells.map (fun c => (c.1, ⟨true, true⟩)) }

/-- The same, with the bytes admitted for reading only. -/
def readOnly (s : State) : State := { s with perm := s.perm.map (fun c => (c.1, ⟨true, false⟩)) }

/-- One step in which the host writes a word to CMD. -/
def cmdOn (s : State) (w : Nat) : Result := step (s.withFetchWord 32 w)

/-- STATUS, RES and some bytes of the next state, if there is one. -/
def shows (r : Result) (a n : Nat) : Option (Word64 × Marked × List Byte) :=
  match r with
  | .next t => some (t.status, t.res, t.bytesAt a n)
  | .fault _ => none
  | .refused _ => none

/-- The fault a step ends with. -/
def faultOf (r : Result) : Option Fault :=
  match r with
  | .fault f => some f
  | .next _ => none
  | .refused _ => none

/-- A next state with a decidable property. -/
def nextHas (r : Result) (q : State → Bool) : Bool :=
  match r with
  | .next t => q t
  | .fault _ => false
  | .refused _ => false

theorem next_of_nextHas {r : Result} {q : State → Bool} (h : nextHas r q = true) : ∃ t, r = .next t ∧ q t = true := by
  cases r with
  | next t => exact ⟨t, rfl, h⟩
  | fault f => exact absurd h (by simp [nextHas])
  | refused f => exact absurd h (by simp [nextHas])

/-- A POSITIONED context over the buffer from `0x6000` to `last`, as the traces of spec/95_test_vectors.md 2.8 write
one. -/
def scanCtx (xor word : Word64) (base next last : Nat) : IterCtx where
  itState := .positioned
  itXor := .of xor
  itWord := .of word
  itBase := .of (word64 base)
  itNext := .of (word64 next)
  itEnd := .of (word64 last)
  itStart := .of 0x6000
  itInv := false

/-- RES, STATUS and the context of trace rows: state, IT_WORD, IT_BASE, IT_NEXT, IT_END. -/
def traceRow (r : Result) : Option (Word64 × Word64 × IterState × List Nat) :=
  match r with
  | .next t => some (t.res.val, t.status, (t.ctx 0).itState, [(t.ctx 0).itWord.val.toNat, (t.ctx 0).itBase.val.toNat,
      (t.ctx 0).itNext.val.toNat, (t.ctx 0).itEnd.val.toNat])
  | .fault _ => none
  | .refused _ => none

/-- The instance with WORD_W = 32. -/
abbrev narrowWord : Params := { Params.default with wordW := .w32 }

/-- The big-endian instance. -/
abbrev bigEndian : Params := { Params.default with hostOrder := .be }

/-- The instance with ADDR_W = WORD_W = 32. -/
abbrev narrow : Params := { Params.default with addrW := .w32, wordW := .w32 }

/-- The buffer of 95 2.1. -/
abbrev line : List Host.Cell := cellsFrom 0x1001 [0x10, 0x32, 0x54, 0x76, 0x98, 0xBA, 0xDC, 0xFE]

/-- The source of 95 2.4. -/
abbrev source : List Host.Cell := cellsFrom 0x100 [0xA5, 0x3C, 0x0F, 0xF0, 0x99]

/-- `n` zero bytes. -/
abbrev zeros (a n : Nat) : List Host.Cell := cellsFrom a (List.replicate n 0)

/-- The buffer of 95 2.6. -/
abbrev counted : List Host.Cell := cellsFrom 0x4000 [0xFF, 0x0F, 0xA5, 0x00, 0x81]

/-! ### Decoding: words written out field by field, `reserved iiii 00 v c opc` (30_encoding R70, R76) -/

theorem test_decode_loads :
    decode 0b0000000000000000_0000_00_0_0_00000001 = .ok (.ld8 false) ∧
    decode 0b0000000000000000_0000_00_0_1_00000010 = .ok (.ld16 true) ∧
    decode 0b0000000000000000_0000_00_0_0_00000011 = .ok (.ld32 false) ∧
    decode 0b0000000000000000_0000_00_0_1_00000100 = .ok (.ld64 true) ∧
    decode 0b0000000000000000_0000_00_0_0_00000101 = .ok (.ldf32 false) ∧
    decode 0b0000000000000000_0000_00_0_1_00000110 = .ok (.ldf64 true) ∧
    decode 0b0000000000000000_0000_00_0_0_00000111 = .ok (.ldbool false) := by
  refine ⟨rfl, rfl, rfl, rfl, rfl, rfl, rfl⟩

theorem test_decode_stores :
    decode 0b0000000000000000_0000_00_0_1_00001001 = .ok (.st8 true) ∧
    decode 0b0000000000000000_0000_00_0_0_00001010 = .ok (.st16 false) ∧
    decode 0b0000000000000000_0000_00_0_1_00001011 = .ok (.st32 true) ∧
    decode 0b0000000000000000_0000_00_0_0_00001100 = .ok (.st64 false) ∧
    decode 0b0000000000000000_0000_00_0_1_00001101 = .ok (.stf32 true) ∧
    decode 0b0000000000000000_0000_00_0_0_00001110 = .ok (.stf64 false) ∧
    decode 0b0000000000000000_0000_00_0_1_00001111 = .ok (.stbool true) := by
  refine ⟨rfl, rfl, rfl, rfl, rfl, rfl, rfl⟩

theorem test_decode_bits :
    decode 0b0000000000000000_0000_00_0_0_00010000 = .ok (.btst false) ∧
    decode 0b0000000000000000_0000_00_0_1_00010001 = .ok (.bset true) ∧
    decode 0b0000000000000000_0000_00_0_0_00010010 = .ok (.bclr false) ∧
    decode 0b0000000000000000_0000_00_0_1_00010011 = .ok (.bmsize true) := by
  refine ⟨rfl, rfl, rfl, rfl⟩

theorem test_decode_ranges :
    decode 0b0000000000000000_0000_00_1_0_00100000 = .ok (.bfill false true) ∧
    decode 0b0000000000000000_0000_00_0_1_00100000 = .ok (.bfill true false) ∧
    decode 0b0000000000000000_0000_00_0_1_00101000 = .ok (.bcopy true) := by
  refine ⟨rfl, rfl, rfl⟩

theorem test_decode_counts :
    decode 0b0000000000000000_0000_00_0_0_00110000 = .ok (.ctz32 false) ∧
    decode 0b0000000000000000_0000_00_0_1_00110001 = .ok (.ctz64 true) ∧
    decode 0b0000000000000000_0000_00_0_0_00110010 = .ok (.clz32 false) ∧
    decode 0b0000000000000000_0000_00_0_1_00110011 = .ok (.clz64 true) ∧
    decode 0b0000000000000000_0000_00_0_0_00111000 = .ok (.popc32 false) ∧
    decode 0b0000000000000000_0000_00_0_1_00111001 = .ok (.popc64 true) ∧
    decode 0b0000000000000000_0000_00_0_0_00111010 = .ok (.bcount false) := by
  refine ⟨rfl, rfl, rfl, rfl, rfl, rfl, rfl⟩

theorem test_decode_iterator :
    decode 0b0000000000000000_0000_00_0_1_01000000 = .ok (.bidx32 true) ∧
    decode 0b0000000000000000_0000_00_0_0_01000001 = .ok (.bidx64 false) ∧
    decode 0b0000000000000000_1010_00_1_0_01001000 = .ok (.itinit false true 10) ∧
    decode 0b0000000000000000_0101_00_0_1_01001001 = .ok (.itnext true 5) := by
  refine ⟨rfl, rfl, rfl, rfl⟩

/-- Every rejection by name, on words of 95 2.10. -/
theorem test_decode_rejects :
    decode 0x00000000 = .error .opcode ∧ decode 0x00000008 = .error .opcode ∧ decode 0x000000FF = .error .opcode ∧
    decode 0x00000014 = .error .opcode ∧ decode 0x00000203 = .error .valueBit ∧ decode 0x00000403 = .error .reserved ∧
    decode 0x00000803 = .error .reserved ∧ decode 0x00010003 = .error .reserved ∧
    decode 0x80000003 = .error .reserved ∧ decode 0x00001003 = .error .iterField ∧
    decode 0x00000249 = .error .valueBit := by
  refine ⟨rfl, rfl, rfl, rfl, rfl, rfl, rfl, rfl, rfl, rfl, rfl⟩

theorem test_host_word : decodeTableWord 32 0x00003149 = some (.itnext true 3) ∧ decodeTableWord 8 0x103 = some (.ld32 false) := by
  decide

/-! ### WellFormed: an ill-formed term for each check, refused (30_encoding R72, R74; 95 2.10) -/

/-- `c = 1` with CHECKED_MODE absent is refused, and legal where it is present. -/
theorem test_wf_refuses_checked :
    Instr.checkedOk { Params.default with checkedMode := false } (.ld32 true) = false ∧
    Instr.wf { Params.default with checkedMode := false } (.ld32 true) = false ∧
    Instr.wf Params.default (.ld32 true) = true ∧
    decodeLegal { Params.default with checkedMode := false } 0x00000103 = none := by decide

/-- `it = N_ITER` is refused, and `it = N_ITER - 1` is legal. -/
theorem test_wf_refuses_context :
    Instr.contextOk Params.default (.itnext false 4) = false ∧ Instr.wf Params.default (.itinit true true 4) = false ∧
    Instr.wf Params.default (.itnext false 3) = true ∧ decodeLegal Params.default 0x00004049 = none := by decide

/-! ### Unaligned loads and stores (95 2.1) -/

theorem test_ld8_last_address :
    shows (cmdOn (bench .default [(0xFFFFFFFFFFFFFFFF, 0xAA)] [(.addr, 0xFFFFFFFFFFFFFFFF)]) 0x01) 0 0 =
      some (0, ⟨0xAA, true⟩, []) := by decide

theorem test_ld16_range_checked :
    shows (cmdOn (bench .default [(0xFFFFFFFFFFFFFFFF, 0xAA)] [(.addr, 0xFFFFFFFFFFFFFFFF)]) 0x102) 0 0 =
      some (4, .unwritten, []) := by decide

theorem test_ld16_order :
    shows (cmdOn (bench .default line [(.addr, 0x1001)]) 0x02) 0 0 = some (0, ⟨0x3210, true⟩, []) ∧
    shows (cmdOn (bench bigEndian line [(.addr, 0x1001)]) 0x02) 0 0 = some (0, ⟨0x1032, true⟩, []) := by decide

theorem test_ld32_big_endian :
    shows (cmdOn (bench bigEndian line [(.addr, 0x1001)]) 0x03) 0 0 = some (0, ⟨0x10325476, true⟩, []) := by decide

theorem test_ld32_lowest_address_not_admitted :
    faultOf (cmdOn (bench .default line [(.addr, 0x1006)]) 0x103) = some (.mem 0x1009 0x103) := by decide

theorem test_ld64_upper_address_bits_ignored :
    shows (cmdOn (bench narrow line [(.addr, 0xFFFFFFFF00001001)]) 0x04) 0 0 =
      some (0, ⟨0xFEDCBA9876543210, true⟩, []) := by decide

theorem test_ldf32 :
    shows (cmdOn (bench .default line [(.addr, 0x1001)]) 0x05) 0 0 = some (0, ⟨0x76543210, true⟩, []) := by decide

theorem test_ldf64 :
    shows (cmdOn (bench bigEndian line [(.addr, 0x1001)]) 0x06) 0 0 = some (0, ⟨0x1032547698BADCFE, true⟩, []) := by
  decide

theorem test_ldbool_true :
    shows (cmdOn (bench .default [(0x20, 1)] [(.addr, 0x20)]) 0x07) 0 0 = some (0, ⟨1, true⟩, []) := by decide

theorem test_ldbool_other :
    faultOf (cmdOn (bench .default [(0x20, 2)] [(.addr, 0x20)]) 0x07) = some (.boolRepr 0x20 0x07) ∧
    shows (cmdOn (bench .default [(0x20, 0xFF)] [(.addr, 0x20)]) 0x107) 0 0 = some (6, .unwritten, []) := by decide

theorem test_load_unwritten_addr : faultOf (cmdOn (bench .default line []) 0x03) = some (.unwritten .addr 3) := by decide

/-- The operands of the stores of 95 2.1. -/
abbrev storeRegs : List (OpReg × Word64) := [(.addr, 0x1002), (.val, 0x1122334455667788)]

theorem test_st8 :
    shows (cmdOn (bench .default line storeRegs) 0x09) 0x1001 8 =
      some (0, .unwritten, [0x10, 0x88, 0x54, 0x76, 0x98, 0xBA, 0xDC, 0xFE]) := by decide

theorem test_st8_unwritten_val :
    faultOf (cmdOn (bench .default line [(.addr, 0x1001)]) 0x09) = some (.unwritten .val 9) := by decide

theorem test_st16 :
    shows (cmdOn (bench .default line storeRegs) 0x0A) 0x1001 8 =
      some (0, .unwritten, [0x10, 0x88, 0x77, 0x76, 0x98, 0xBA, 0xDC, 0xFE]) := by decide

theorem test_st16_read_only :
    faultOf (cmdOn (readOnly (bench .default line [(.addr, 0x1001), (.val, 0xBEEF)])) 0x0A) =
      some (.mem 0x1001 0x0A) := by decide

theorem test_st32 :
    shows (cmdOn (bench .default line storeRegs) 0x0B) 0x1001 8 =
      some (0, .unwritten, [0x10, 0x88, 0x77, 0x66, 0x55, 0xBA, 0xDC, 0xFE]) := by decide

theorem test_st32_big_endian :
    shows (cmdOn (bench bigEndian line [(.addr, 0x1002), (.val, 0xAABBCCDD)]) 0x0B) 0x1001 8 =
      some (0, .unwritten, [0x10, 0xAA, 0xBB, 0xCC, 0xDD, 0xBA, 0xDC, 0xFE]) := by decide

theorem test_st64 :
    shows (cmdOn (bench .default line [(.addr, 0x1001), (.val, 0x1122334455667788)]) 0x0C) 0x1001 8 =
      some (0, .unwritten, [0x88, 0x77, 0x66, 0x55, 0x44, 0x33, 0x22, 0x11]) := by decide

theorem test_st64_range_checked :
    shows (cmdOn (bench .default (zeros 0xFFFFFFFFFFFFFFFC 4) [(.addr, 0xFFFFFFFFFFFFFFFC), (.val, 5)]) 0x10C)
      0xFFFFFFFFFFFFFFFC 4 = some (4, .unwritten, [0, 0, 0, 0]) := by decide

theorem test_stf32 :
    shows (cmdOn (bench .default line [(.addr, 0x1002), (.val, 0xFF800000)]) 0x0D) 0x1001 8 =
      some (0, .unwritten, [0x10, 0x00, 0x00, 0x80, 0xFF, 0xBA, 0xDC, 0xFE]) := by decide

theorem test_stf64 :
    shows (cmdOn (bench .default line [(.addr, 0x1001), (.val, 0x7FF0000000000001)]) 0x0E) 0x1001 8 =
      some (0, .unwritten, [0x01, 0x00, 0x00, 0x00, 0x00, 0x00, 0xF0, 0x7F]) := by decide

theorem test_stbool_nonzero :
    shows (cmdOn (bench .default line [(.addr, 0x1002), (.val, 0x8000000000000000)]) 0x0F) 0x1001 3 =
      some (0, .unwritten, [0x10, 0x01, 0x54]) := by decide

theorem test_stbool_zero :
    shows (cmdOn (bench .default line [(.addr, 0x1002), (.val, 0)]) 0x0F) 0x1001 3 =
      some (0, .unwritten, [0x10, 0x00, 0x54]) := by decide

/-! ### Single bits and sizing (95 2.2) -/

/-- The buffer of 95 2.2. -/
abbrev pair : List Host.Cell := cellsFrom 0x2000 [0xA5, 0x0F]

theorem test_btst_position_counts_from_addr :
    shows (cmdOn (bench .default pair [(.addr, 0x1FFF), (.pos, 9)]) 0x10) 0 0 = some (0, ⟨0, true⟩, []) ∧
    shows (cmdOn (bench .default pair [(.addr, 0x2000), (.pos, 0x0B)]) 0x10) 0 0 = some (0, ⟨1, true⟩, []) := by decide

theorem test_btst_range :
    faultOf (cmdOn (bench .default [(0xFFFFFFFFFFFFFFFF, 1)] [(.addr, 0xFFFFFFFFFFFFFFFF), (.pos, 8)]) 0x10) =
      some (.range 0x10) := by decide

theorem test_bset :
    shows (cmdOn (bench .default pair [(.addr, 0x2000), (.pos, 1)]) 0x11) 0x2000 2 =
      some (0, ⟨0, true⟩, [0xA7, 0x0F]) := by decide

theorem test_bset_not_writable :
    faultOf (cmdOn (readOnly (bench .default pair [(.addr, 0x2000), (.pos, 0)])) 0x11) = some (.mem 0x2000 0x11) := by
  decide

theorem test_bclr :
    shows (cmdOn (bench .default pair [(.addr, 0x2000), (.pos, 0x0A)]) 0x12) 0x2000 2 =
      some (0, ⟨1, true⟩, [0xA5, 0x0B]) := by decide

theorem test_bmsize :
    shows (cmdOn (bench .default [] [(.len, 0x41)]) 0x13) 0 0 = some (0, ⟨0x10, true⟩, []) ∧
    shows (cmdOn (bench narrowWord [] [(.len, 0x21)]) 0x13) 0 0 = some (0, ⟨8, true⟩, []) ∧
    shows (cmdOn (bench .default [] [(.len, 0)]) 0x13) 0 0 = some (0, ⟨0, true⟩, []) := by decide

theorem test_bmsize_largest :
    shows (cmdOn (bench .default [] [(.len, 0xFFFFFFFFFFFFFFC0)]) 0x13) 0 0 =
      some (0, ⟨0x1FFFFFFFFFFFFFF8, true⟩, []) ∧
    faultOf (cmdOn (bench .default [] [(.len, 0xFFFFFFFFFFFFFFC1)]) 0x13) = some (.range 0x13) := by decide

/-! ### Range fill and copy (95 2.3, 2.4) -/

theorem test_bfill_ones :
    shows (cmdOn (bench .default (zeros 0x3000 4) [(.addr, 0x3000), (.pos, 3), (.len, 0x0A)]) 0x220) 0x3000 4 =
      some (0, .unwritten, [0xF8, 0x1F, 0x00, 0x00]) := by decide

theorem test_bfill_zeros :
    shows (cmdOn (bench .default (cellsFrom 0x3000 [0xFF, 0xFF, 0xFF, 0xFF]) [(.addr, 0x3000), (.pos, 3), (.len, 0x0A)])
      0x20) 0x3000 4 = some (0, .unwritten, [0x07, 0xE0, 0xFF, 0xFF]) := by decide

theorem test_bcopy_keeps_bits_outside :
    shows (cmdOn (bench .default (source ++ cellsFrom 0x200 [0xFF, 0xFF, 0xFF, 0xFF, 0xFF])
      [(.addr, 0x200), (.pos, 5), (.src, 0x100), (.spos, 3), (.len, 0x0C)]) 0x28) 0x200 5 =
      some (0, .unwritten, [0x9F, 0xF2, 0xFE, 0xFF, 0xFF]) := by decide

theorem test_bcopy_overlap :
    faultOf (cmdOn (bench .default source [(.addr, 0x100), (.pos, 4), (.src, 0x100), (.spos, 0), (.len, 8)]) 0x28) =
      some (.overlap 0x28) := by decide

/-- The slack byte below the source (44 R164). -/
theorem test_bcopy_slack :
    faultOf (cmdOn (bench { Params.default with copySlack := true } [(0x101, 0x3C), (0x200, 0)]
      [(.addr, 0x200), (.pos, 0), (.src, 0x100), (.spos, 8), (.len, 8)]) 0x28) = some (.mem 0x100 0x28) := by decide

/-! ### Zero detection and counts (95 2.5, 2.6) -/

theorem test_ctz32 :
    shows (cmdOn (bench .default [] [(.val, 0x80000000)]) 0x30) 0 0 = some (0, ⟨0x1F, true⟩, []) ∧
    faultOf (cmdOn (bench .default [] [(.val, 0x100000000)]) 0x30) = some (.zeroInput 0x30) := by decide

theorem test_ctz64 :
    shows (cmdOn (bench .default [] [(.val, 0x8000000000000000)]) 0x31) 0 0 = some (0, ⟨0x3F, true⟩, []) := by decide

theorem test_ctz64_zero_checked :
    shows (cmdOn (bench .default [] [(.val, 0)]) 0x131) 0 0 = some (2, .unwritten, []) := by decide

theorem test_clz32 :
    shows (cmdOn (bench .default [] [(.val, 0xFFFFFFFF00000001)]) 0x32) 0 0 = some (0, ⟨0x1F, true⟩, []) := by decide

theorem test_clz64 :
    shows (cmdOn (bench .default [] [(.val, 0xFFFFFFFF)]) 0x33) 0 0 = some (0, ⟨0x20, true⟩, []) := by decide

theorem test_popc32 :
    shows (cmdOn (bench .default [] [(.val, 0x12345678)]) 0x38) 0 0 = some (0, ⟨0x0D, true⟩, []) ∧
    shows (cmdOn (bench .default [] [(.val, 0xFFFFFFFF00000000)]) 0x38) 0 0 = some (0, ⟨0, true⟩, []) := by decide

theorem test_popc64 :
    shows (cmdOn (bench .default [] [(.val, 0xFFFFFFFFFFFFFFFF)]) 0x39) 0 0 = some (0, ⟨0x40, true⟩, []) := by decide

theorem test_bcount :
    shows (cmdOn (bench .default counted [(.addr, 0x4000), (.pos, 9), (.len, 5)]) 0x3A) 0 0 =
      some (0, ⟨3, true⟩, []) := by decide

theorem test_bcount_not_admitted :
    faultOf (cmdOn (bench .default counted [(.addr, 0x4000), (.pos, 0x24), (.len, 8)]) 0x3A) =
      some (.mem 0x4005 0x3A) := by decide

/-! ### Bit index (95 2.7) -/

theorem test_bidx32 :
    shows (cmdOn (bench bigEndian (zeros 0x5000 12) [(.addr, 0x5000), (.pos, 0x64), (.val, 0x89)]) 0x40) 0x5000 12 =
      some (0, ⟨0x500C, true⟩, [0, 0, 0, 0x64, 0, 0, 0, 0x67, 0, 0, 0, 0x6B]) := by decide

theorem test_bidx32_bias_wraps :
    shows (cmdOn (bench .default (zeros 0x5000 12) [(.addr, 0x5000), (.pos, 0xFFFFFFFE), (.val, 7)]) 0x40) 0x5000 12 =
      some (0, ⟨0x500C, true⟩, [0xFE, 0xFF, 0xFF, 0xFF, 0xFF, 0xFF, 0xFF, 0xFF, 0, 0, 0, 0]) := by decide

theorem test_bidx64_wide_elements :
    shows (cmdOn (bench { Params.default with idxElem := .w64 } (zeros 0x5000 16)
      [(.addr, 0x5000), (.pos, 0x100000005), (.val, 3)]) 0x41) 0x5000 16 =
      some (0, ⟨0x5010, true⟩, [5, 0, 0, 0, 1, 0, 0, 0, 6, 0, 0, 0, 1, 0, 0, 0]) := by decide

theorem test_bidx64_capacity :
    faultOf (cmdOn (bench .default (zeros 0x5000 4) [(.addr, 0x5000), (.pos, 0), (.val, 3)]) 0x41) =
      some (.mem 0x5004 0x41) := by decide

/-! ### The iterator: rows of the traces of 95 2.8 -/

/-- The buffer of trace T4, with WORD_W = 32. -/
abbrev traceT4 : List Host.Cell := cellsFrom 0x6000 [0, 0, 1, 0, 0, 0, 0, 0x80, 0, 0, 1]

/-- The engine before trace T4. -/
abbrev benchT4 : State := bench narrowWord traceT4 [(.addr, 0x6000), (.len, 11)]

theorem test_itinit_set :
    traceRow (cmdOn benchT4 0x248) = some (0, 0, .positioned, [0x10000, 0, 0x6003, 0x600B]) := by decide

theorem test_itinit_clear :
    traceRow (cmdOn (bench narrowWord (cellsFrom 0x6000 [0x01, 0x00, 0x80]) [(.addr, 0x6000), (.len, 3)]) 0x48) =
      some (0, 0, .positioned, [0x7FFFFE, 0, 0x6003, 0x6003]) := by decide

theorem test_itnext_loads_words :
    traceRow (cmdOn (benchT4.setCtx 0 (scanCtx 0 0 0 0x6003 0x600B)) 0x49) =
      some (63, 0, .positioned, [0x1000000, 56, 0x600B, 0x600B]) := by decide

theorem test_itnext_none :
    traceRow (cmdOn (benchT4.setCtx 0 (scanCtx 0 0 56 0x600B 0x600B)) 0x49) =
      some (0xFFFFFFFFFFFFFFFF, 0x100, .exhausted, [0, 56, 0x600B, 0x600B]) := by decide

/-- ITNEXT right after reset (95 2.9). -/
theorem test_itnext_uninit :
    faultOf (cmdOn State.reset 0x49) = some (.iterUninit 0 0x49) ∧
    shows (cmdOn State.reset 0x149) 0 0 = some (5, .unwritten, []) := by decide

/-- An engine write into a buffer being scanned invalidates the scan, one past it does not (95 2.9). -/
theorem test_write_invalidates :
    let s := (bench .default (zeros 0x6000 10) [(.addr, 0x6000), (.pos, 70), (.val, 7)]).setCtx 0
      (scanCtx 0 1 0 0x6001 0x6009)
    (nextHas (cmdOn s 0x11) (fun t => (t.ctx 0).itInv) = true) ∧
    (nextHas (cmdOn (s.setOp .addr 0x6009) 0x09) (fun t => !(t.ctx 0).itInv) = true) ∧
    faultOf (cmdOn (s.invalidate 0x6005) 0x149) = some (.iterInvalid 0 0x149) := by decide

/-! ### The port -/

/-- An illegal word ends with STATUS 1 although no operand was written, and CMD holds it (95 2.10). -/
theorem test_illegal :
    nextHas (cmdOn State.reset 0x14) (fun t => t.status == 1 && t.cmd == 0x14 && t.res == .unwritten) = true := by decide

/-- CFG of the default instance: VERSION 1, A64, W64, N_ITER - 1 = 3 at bits 15:12, CHK (10_state R26). -/
theorem test_cfg_default : Params.default.cfgWord = 0x23301 := by decide

/-- The offset of IT_NEXT of context 2 is 0x100 + 0x80 + 0x20 (10_state R37). -/
theorem test_register_map :
    slotAt Params.default 0x1A0 = .iterReg 2 .itNext ∧ slotAt Params.default 0x048 = .operand .val ∧
    slotAt Params.default 0x050 = .reserved ∧ slotAt Params.default 0x1F8 = .reserved ∧
    slotAt Params.default 0x200 = .reserved := by decide

/-- A recorded fault stops every step (10_state R35). -/
theorem test_faulted_is_stuck :
    faultOf (step { State.reset with fault := some (.range 3), pending := [.resetInput] }) = some (.range 3) := by decide

/-! ### Witnesses: for each statement with hypotheses, states and operands that meet them all

The name says which statement; where a statement has several clauses, each has its own state, at a boundary of its
range. -/

/-- The state before the step in which the host writes a word to CMD. -/
abbrev before (s : State) (w : Nat) : State := s.withFetchWord 32 w

/-- A state with every operand register written with 0, but for those given. -/
def full (p : Params) (cells : List Host.Cell) (regs : List (OpReg × Word64)) : State :=
  bench p cells ([(.addr, 0), (.src, 0), (.pos, 0), (.spos, 0), (.len, 0), (.val, 0)] ++ regs)

theorem witness_EncodeOfDecode : ∃ i, decode 0x00003149 = .ok i := ⟨.itnext true 3, rfl⟩

theorem witness_DecodeAgreesWithOpcodeTable :
    (∃ row ∈ opcodeRows, (0x0000F349 : Word32) &&& row.2.1 ≠ row.1 ∧ (0x0000F149 : Word32) &&& row.2.1 = row.1) ∧
    (∀ row ∈ opcodeRows, (0x00000008 : Word32) &&& row.2.1 ≠ row.1) := by decide

/-- One word for each condition of 30_encoding R77, next to a legal one. -/
theorem witness_IllegalExactlyAsListed :
    decodeLegal Params.default 0x00000014 = none ∧ decodeLegal Params.default 0x00000013 = some (.bmsize false) ∧
    decodeLegal Params.default 0x00000813 = none ∧ decodeLegal Params.default 0x00000213 = none ∧
    decodeLegal Params.default 0x0000F013 = none ∧ decodeLegal Params.default 0x00004048 = none ∧
    decodeLegal Params.default 0x00003048 = some (.itinit false false 3) ∧
    decodeLegal { Params.default with checkedMode := false } 0x00000113 = none := by decide

theorem witness_IllegalCommandChangesStatusAndCmd :
    State.reset.fault = none ∧ (before State.reset 0x14).pending = .regWrite 0x000 8 0x14 :: [] ∧
    illegalWord State.reset.params ((0x14 : Word64).setWidth 32) := by
  refine ⟨rfl, rfl, Or.inl ?_⟩
  decide

theorem witness_StepRunsDecodedCommand :
    (before State.reset 0x149).fault = none ∧ (before State.reset 0x149).pending = .regWrite 0x000 8 0x149 :: [] ∧
    decodeLegal (before State.reset 0x149).params ((0x149 : Word64).setWidth 32) = some (.itnext true 0) := by decide

theorem witness_ResetInputKeepsMemory :
    let s := { benchT4.setCtx 0 (scanCtx 0 0 0 0x6003 0x600B) with pending := [.resetInput] }
    s.fault = none ∧ s.pending = .resetInput :: [] := by decide

/-- A scan over a buffer in the middle of it, about to take its next command. -/
abbrev midScan : State := before (benchT4.setCtx 0 (scanCtx 0 0x1000000 56 0x600B 0x600B)) 0x49

theorem witness_StepKeepsInv : Inv midScan ∧ ∃ t, step midScan = .next t ∧ true = true := by
  exact ⟨⟨by decide, by decide, by decide, by decide, by decide⟩, next_of_nextHas (q := fun _ => true) (by decide)⟩

theorem witness_FaultIsQuiescent : ∃ f, step (before State.reset 0x49) = .fault f := ⟨.iterUninit 0 0x49, by rfl⟩

/-- A completing store, a completing ITNEXT and a checked error. -/
theorem witness_next_states :
    (∃ t, exec (.st64 false) (bench .default line [(.addr, 0x1001), (.val, 5)]) = .next t ∧
      (t.peek 0x1001 == 5) = true) ∧
    (∃ t, exec (.itnext true 0) midScan = .next t ∧ (t.res.val == 80) = true) ∧
    (∃ t, exec (.ctz64 true) (bench .default [] [(.val, 0)]) = .next t ∧ (t.status == 2) = true) :=
  ⟨next_of_nextHas (by decide), next_of_nextHas (by decide), next_of_nextHas (by decide)⟩

theorem witness_CommandsKeepOperandRegisters :
    ∃ t, exec (.bidx32 false) (bench .default (zeros 0x5000 4) [(.addr, 0x5000), (.pos, 0), (.val, 1)]) = .next t ∧
      (t.res.val == 0x5004) = true :=
  next_of_nextHas (by decide)

/-- ITINIT, ITNEXT and a store into the buffer: each changes the context. -/
theorem witness_OnlyIteratorCommandsMoveContexts :
    (∃ t, exec (.itinit false true 0) benchT4 = .next t ∧ (t.ctx 0 != benchT4.ctx 0) = true) ∧
    (∃ t, exec (.itnext false 0) midScan = .next t ∧ (t.ctx 0 != midScan.ctx 0) = true) ∧
    (∃ t, exec (.st8 false) ((midScan.setOp .val 1).setOp .addr 0x600A) = .next t ∧
      (t.ctx 0 != midScan.ctx 0 && (t.ctx 0).itInv) = true) :=
  ⟨next_of_nextHas (by decide), next_of_nextHas (by decide), next_of_nextHas (by decide)⟩

theorem witness_CheckedCommandReportsFaults :
    faultOf (exec (.ctz32 false) (bench .default [] [(.val, 0)])) = some (.zeroInput 0) ∧
    checkedCode (.zeroInput 0) = some 2 ∧
    faultOf (exec (.ctz32 true) State.reset) = some (.unwritten .val 0) ∧ checkedCode (.unwritten .val 0) = none := by
  decide

theorem witness_StatusOfEveryEnding :
    (∃ t, exec (.itnext false 0) (benchT4.setCtx 0 (scanCtx 0 0 56 0x600B 0x600B)) = .next t ∧
      (t.status == 0x100) = true) ∧
    (∃ t, exec (.popc32 true) (bench .default [] [(.val, 0)]) = .next t ∧ (t.status == 0) = true) :=
  ⟨next_of_nextHas (by decide), next_of_nextHas (by decide)⟩

/-- The byte just above the access set of a store. -/
theorem witness_WritesStayInAccessSet :
    (∃ t, exec (.st16 false) (bench .default line [(.addr, 0x1001), (.val, 5)]) = .next t ∧ (t.status == 0) = true) ∧
    0x1003 ∉ writeSet (.st16 false) (bench .default line [(.addr, 0x1001), (.val, 5)]) :=
  ⟨next_of_nextHas (by decide), by decide⟩

/-- A memory that differs just above the access set of a load. -/
theorem witness_ReadsStayInAccessSet :
    let s := bench .default line [(.addr, 0x1001)]
    let m := cellsFrom 0x1001 [0x10, 0x32, 0x55, 0x76]
    (∀ a ∈ readSet (.ld16 false) s, ({ s with mem := m } : State).peek a = s.peek a) ∧ m ≠ s.mem := by decide

/-- A write to the last byte of the buffer, one just past it, and admission taken away and given. -/
theorem witness_HostWriteInvalidatesScans :
    let s := benchT4.setCtx 0 (scanCtx 0 0 0 0x6003 0x600B)
    (nextHas (step { s with pending := [.memWrite 0x600A 7] }) (fun t => (t.ctx 0).itInv) = true) ∧
    (nextHas (step { s with pending := [.memWrite 0x600B 7] }) (fun t => !(t.ctx 0).itInv) = true) ∧
    (s.permAt 0x6000).read = true ∧ (s.permAt 0x6000).write = true ∧
    (nextHas (step { s with pending := [.setAdmission 0x6000 ⟨false, true⟩] }) (fun t => (t.ctx 0).itInv) = true) ∧
    (nextHas (step { s with pending := [.setAdmission 0x6000 ⟨true, false⟩] }) (fun t => (t.ctx 0).itInv) = true) := by
  decide

/-- A mapped instance: the register block of 0x200 bytes lies at 0x7000. -/
abbrev mapped : Params := { Params.default with engineBase := some 0x7000 }

/-- The last byte of the address space, and the bytes next to a mapped register block, on which the host acts; marks
taken away and marks granted on a byte of a scan. -/
theorem witness_HostReachesMemory :
    (let s := { benchT4 with pending := [.memWrite 0xFFFFFFFFFFFFFFFF 7] };
      s.fault = none ∧ 0xFFFFFFFFFFFFFFFF < s.params.space ∧ ¬ RegisterMapped s 0xFFFFFFFFFFFFFFFF) ∧
    (let s := bench mapped [] [];
      ¬ RegisterMapped s 0x6FFF ∧ RegisterMapped s 0x7000 ∧ RegisterMapped s 0x71FF ∧ ¬ RegisterMapped s 0x7200) ∧
    nextHas (step { benchT4 with pending := [.memRead 0x6007] }) (fun t => t.seen == [0x80]) = true ∧
    (let s := readOnly (benchT4.setCtx 0 (scanCtx 0 0 0 0x6003 0x600B));
      nextHas (step { s with pending := [.setAdmission 0x6007 ⟨false, true⟩] })
        (fun t => !t.canRead 0x6007 && t.canWrite 0x6007 && (t.ctx 0).itInv) = true ∧
      nextHas (step { s with pending := [.setAdmission 0x6007 ⟨true, true⟩] })
        (fun t => t.canWrite 0x6007 && t.ctx 0 == s.ctx 0) = true) := by decide

/-- An admission change inside the mapped block or outside the space is refused (log 13). -/
theorem test_admission_of_no_byte_refused :
    nextHas (step { bench mapped [] [] with pending := [.setAdmission 0x71FF ⟨true, true⟩] }) (fun _ => true) = false ∧
    nextHas (step { bench narrow [] [] with pending := [.setAdmission 0x100000000 ⟨true, true⟩] }) (fun _ => true) =
      false := by decide

/-- Each clause, with a register written and one not written; the last offset of the last context that exists. -/
theorem witness_MarkedRegisterReads :
    (5, OpReg.val) ∈ [(0, OpReg.addr), (1, .src), (2, .pos), (3, .spos), (4, .len), (5, .val)] ∧
    faultOf (step { benchT4 with pending := [.regRead 0x048 8] }) = some (.unwrittenRead (.operand .val)) ∧
    nextHas (step { benchT4 with pending := [.regRead 0x020 8] }) (fun t => t.seen == [0x6000]) = true ∧
    faultOf (step { benchT4 with pending := [.regRead 0x010 8] }) = some (.unwrittenRead .res) ∧
    (6, IterReg.itStart) ∈ [(1, IterReg.itXor), (2, .itWord), (3, .itBase), (4, .itNext), (5, .itEnd), (6, .itStart)] ∧
    (3 : BitVec 4).toNat < Params.default.nIter ∧ 0x1F0 = 0x100 + 0x40 * (3 : BitVec 4).toNat + 8 * 6 ∧
    faultOf (step { benchT4 with pending := [.regRead 0x1F0 8] }) = some (.unwrittenRead (.iter 3 .itStart)) := by
  decide

/-- Each clause: CMD, STATUS, CFG, IT_STATE of the last context, the first and last reserved offset below 0x100, the
slot of a context that holds no register, and the first offset above the contexts. -/
theorem witness_UnmarkedRegisterReads :
    nextHas (step { benchT4 with cmd := 3, pending := [.regRead 0x000 8] }) (fun t => t.seen == [3]) = true ∧
    nextHas (step { benchT4 with status := 0x100, pending := [.regRead 0x008 8] }) (fun t => t.seen == [0x100]) = true ∧
    nextHas (step { State.reset with pending := [.regRead 0x018 8] }) (fun t => t.seen == [0x23301]) = true ∧
    nextHas (step { benchT4.setCtx 3 (scanCtx 0 0 0 0x6003 0x6003) with pending := [.regRead 0x1C0 8] })
      (fun t => t.seen == [1]) = true ∧
    nextHas (step { benchT4 with pending := [.regRead 0x050 8] }) (fun t => t.seen == [0]) = true ∧
    nextHas (step { benchT4 with pending := [.regRead 0x0F8 8] }) (fun t => t.seen == [0]) = true ∧
    nextHas (step { benchT4 with pending := [.regRead 0x138 8] }) (fun t => t.seen == [0]) = true ∧
    nextHas (step { benchT4 with pending := [.regRead 0x200 8] }) (fun t => t.seen == [0]) = true := by decide

/-- An operand register, a read-only register and a reserved offset. -/
theorem witness_RegisterWrites :
    (0x048 % 8 = 0 ∧ 0x048 ≠ 0x000) ∧
    nextHas (step { benchT4 with pending := [.regWrite 0x048 8 9] }) (fun t => t.val == ⟨9, true⟩) = true ∧
    nextHas (step { benchT4 with pending := [.regWrite 0x010 8 9] }) (fun t => t.res == .unwritten) = true ∧
    nextHas (step { benchT4 with pending := [.regWrite 0x200 8 9] }) (fun t => t.addr == benchT4.addr) = true := by
  decide

/-- A write of 4 bytes, and a read at an offset that is not a multiple of 8. -/
theorem witness_NarrowAccessRefused :
    ({ benchT4 with pending := [.regWrite 0x020 7 9] }).fault = none ∧ 7 < 8 ∧ 0x024 % 8 ≠ 0 := by decide

/-- The last address, in both byte orders of the rule. -/
theorem witness_LoadsReadHostOrder :
    (Instr.ld64, 8) ∈ [(Instr.ld8, 1), (Instr.ld16, 2), (Instr.ld32, 4), (Instr.ld64, 8), (Instr.ldf32, 4),
      (Instr.ldf64, 8)] ∧
    let s := bench bigEndian (zeros 0xFFFFFFFFFFFFFFF8 8) [(.addr, 0xFFFFFFFFFFFFFFF8)];
    Written s [.addr] ∧ Fits s (s.use .addr + 8) ∧ AllRead s (accessAddrs (s.use .addr) 8) := by
  exact ⟨by simp, by decide⟩

theorem witness_StoresWriteHostOrder :
    (Instr.st64, 8) ∈ [(Instr.st8, 1), (Instr.st16, 2), (Instr.st32, 4), (Instr.st64, 8), (Instr.stf32, 4),
      (Instr.stf64, 8)] ∧
    let s := bench .default (zeros 0xFFFFFFFFFFFFFFF8 8) [(.addr, 0xFFFFFFFFFFFFFFF8), (.val, 5)];
    Written s [.addr, .val] ∧ Fits s (s.use .addr + 8) ∧ AllWrite s (accessAddrs (s.use .addr) 8) := by
  exact ⟨by simp, by decide⟩

/-- An integer store and STBOOL. -/
theorem witness_StoreThenLoadReturnsValue :
    let s := bench bigEndian line [(.addr, 0x1001), (.val, 0x1122334455667788)];
    (∃ t, exec (.st16 false) s = .next t ∧ (t.status == 0) = true) ∧ Fits s (s.use .addr + 2) ∧
    AllRead s (accessAddrs (s.use .addr) 2) ∧
    (∃ t, exec (.stbool true) s = .next t ∧ (t.status == 0) = true) :=
  ⟨next_of_nextHas (by decide), by decide, by decide, next_of_nextHas (by decide)⟩

/-- A byte 0, a byte 1 and another byte. -/
theorem witness_LdboolReadsZeroOrOne :
    ∀ b ∈ ([0, 1, 2, 0xFF] : List Byte), let s := bench .default [(0x20, b)] [(.addr, 0x20)];
      Written s [.addr] ∧ Fits s (s.use .addr + 1) ∧ s.canRead (s.use .addr) = true ∧ s.peek (s.use .addr) = b := by
  decide

/-- VAL 0, and VAL with only its highest bit set. -/
theorem witness_StboolStoresOneByte :
    (let s := bench .default [(0x20, 2)] [(.addr, 0x20), (.val, 0)];
      Written s [.addr, .val] ∧ Fits s (s.use .addr + 1) ∧ s.canWrite (s.use .addr) = true) ∧
    (let s := bench .default [(0x20, 2)] [(.addr, 0x20), (.val, 0x8000000000000000)];
      Written s [.addr, .val] ∧ Fits s (s.use .addr + 1) ∧ s.canWrite (s.use .addr) = true) := by decide

/-- Each clause: an unwritten register, one byte too many, the last byte of an access with its mark off, and the last
byte inside a mapped register block although its mark is set. -/
theorem witness_ScalarAccessStops :
    (State.reset.addr.written = false) ∧
    (let s := bench .default line [(.addr, 0x1001)];
      s.addr.written = true ∧ s.val.written = false) ∧
    (let s := bench .default [] [(.addr, 0xFFFFFFFFFFFFFFF9), (.val, 0)];
      s.addr.written = true ∧ s.val.written = true ∧ s.params.space < s.use .addr + 8 ∧
        s.use .addr + 7 ≤ s.params.space) ∧
    (let s := bench .default line [(.addr, 0x1002), (.val, 0)];
      s.use .addr + 8 ≤ s.params.space ∧
        (∀ j < 7, ¬ RegisterMapped s (s.use .addr + j) ∧ (s.permAt (s.use .addr + j)).read = true ∧
          (s.permAt (s.use .addr + j)).write = true) ∧
        (s.permAt (s.use .addr + 7)).read = false ∧ (s.permAt (s.use .addr + 7)).write = false) ∧
    (let s := bench mapped (zeros 0x6FF9 8) [(.addr, 0x6FF9), (.val, 0)];
      s.use .addr + 8 ≤ s.params.space ∧
        (∀ j < 7, ¬ RegisterMapped s (s.use .addr + j) ∧ (s.permAt (s.use .addr + j)).read = true ∧
          (s.permAt (s.use .addr + j)).write = true) ∧
        RegisterMapped s (s.use .addr + 7) ∧ (s.permAt (s.use .addr + 7)).read = true) := by decide

/-- A byte whose marks are set but where a register is mapped is not admitted (20_memory R50). -/
theorem test_register_block_not_admitted :
    faultOf (cmdOn (bench mapped (zeros 0x6FF9 8) [(.addr, 0x6FF9)]) 0x04) = some (.mem 0x7000 0x04) := by decide

theorem witness_BtstReturnsBit :
    let s := bench .default [(0xFFFFFFFFFFFFFFFF, 0x80)] [(.addr, 0xFFFFFFFFFFFFFFFF), (.pos, 7)];
    Written s [.addr, .pos] ∧ Fits s (s.use .addr + s.use .pos / 8 + 1) ∧
      s.canRead (s.use .addr + s.use .pos / 8) = true := by decide

theorem witness_BsetBclrUpdateOneBit :
    let s := bench .default [(0xFFFFFFFFFFFFFFFF, 0x80)] [(.addr, 0xFFFFFFFFFFFFFFFF), (.pos, 7)];
    Written s [.addr, .pos] ∧ Fits s (s.use .addr + s.use .pos / 8 + 1) ∧
      s.canRead (s.use .addr + s.use .pos / 8) = true ∧ s.canWrite (s.use .addr + s.use .pos / 8) = true := by decide

theorem witness_SingleBitLaws :
    let s := bench .default pair [(.addr, 0x2000), (.pos, 15)];
    s.use .addr + s.use .pos / 8 < s.params.space ∧ (∃ r, exec (.btst false) s = .next r ∧ (r.res.val == 0) = true) ∧
      (∃ t, exec (.bset false) s = .next t ∧ (t.status == 0) = true) ∧
      ∃ t, exec (.bclr false) s = .next t ∧ (t.status == 0) = true :=
  ⟨by decide, next_of_nextHas (by decide), next_of_nextHas (by decide), next_of_nextHas (by decide)⟩

/-- Each clause: unwritten registers, the first byte past the top, a byte not readable, a byte not writable. -/
theorem witness_SingleBitStops :
    State.reset.addr.written = false ∧
    (let s := bench .default [] [(.addr, 0)]; s.addr.written = true ∧ s.pos.written = false) ∧
    (let s := bench .default [] [(.addr, 0xFFFFFFFFFFFFFFFF), (.pos, 8)];
      s.addr.written = true ∧ s.pos.written = true ∧ s.params.space ≤ s.use .addr + s.use .pos / 8) ∧
    (let s := bench .default pair [(.addr, 0x2000), (.pos, 16)];
      s.use .addr + s.use .pos / 8 < s.params.space ∧ s.canRead (s.use .addr + s.use .pos / 8) = false) ∧
    (let s := readOnly (bench .default pair [(.addr, 0x2000), (.pos, 15)]);
      s.canRead (s.use .addr + s.use .pos / 8) = true ∧ s.canWrite (s.use .addr + s.use .pos / 8) = false) := by
  decide

/-- Each clause: unwritten, the least LEN out of range, the greatest legal one. -/
theorem witness_BmsizeIsLeastWordMultiple :
    State.reset.len.written = false ∧
    (let s := bench .default [] [(.len, 0xFFFFFFFFFFFFFFC1)];
      Written s [.len] ∧ s.params.space - s.params.wordW.bits < s.use .len) ∧
    (let s := bench .default [] [(.len, 0xFFFFFFFFFFFFFFC0)];
      Written s [.len] ∧ s.use .len ≤ s.params.space - s.params.wordW.bits) := by decide

/-- A range that ends on the last bit of the address space, with a head byte only partly inside. -/
theorem witness_BfillSetsExactlyTheRange :
    let s := bench .default (zeros 0xFFFFFFFFFFFFFFFE 2) [(.addr, 0xFFFFFFFFFFFFFFFE), (.pos, 3), (.len, 13)];
    Written s [.addr, .pos, .len] ∧ 0 < s.use .len ∧ RangeFits s (s.use .addr) (s.use .pos) (s.use .len) ∧
    AllWrite s (spanAddrs (s.use .addr) (s.use .pos) (s.use .len)) ∧
    AllRead s (partialAddrs (s.use .addr) (s.use .pos) (s.use .len)) := by decide

theorem witness_ZeroLengthRangesDoNothing :
    let s := full .default [] [(.addr, 0x9999), (.pos, 0xFFFFFFFFFFFFFFFF)];
    s.use .len = 0 ∧ Written s [.addr, .pos, .len] ∧ Written s [.src, .spos] := by decide

/-- Each clause: every register unwritten in turn, a position and a span out of range, a body byte not writable, a
partial byte not readable. -/
theorem witness_BfillStops :
    State.reset.addr.written = false ∧
    (let s := bench .default [] [(.addr, 0)]; Written s [.addr] ∧ s.pos.written = false) ∧
    (let s := bench .default [] [(.addr, 0), (.pos, 0)]; Written s [.addr, .pos] ∧ s.len.written = false) ∧
    (let s := full .default [] [(.pos, 0xFFFFFFFFFFFFFFFC), (.len, 5)];
      Written s [.addr, .pos, .len] ∧ 0 < s.use .len ∧ ¬ Fits s (s.use .pos + s.use .len)) ∧
    (let s := full .default [] [(.addr, 0xFFFFFFFFFFFFFFFF), (.len, 9)];
      0 < s.use .len ∧ ¬ RangeFits s (s.use .addr) (s.use .pos) (s.use .len)) ∧
    (let s := readOnly (full .default (zeros 0x3000 3) [(.addr, 0x3000), (.pos, 8), (.len, 8)]);
      RangeFits s (s.use .addr) (s.use .pos) (s.use .len) ∧
      0x3001 ∈ spanAddrs (s.use .addr) (s.use .pos) (s.use .len) ∧ s.canWrite 0x3001 = false ∧
      ∀ x ∈ spanAddrs (s.use .addr) (s.use .pos) (s.use .len), ¬ x < 0x3001) ∧
    (let s := { full .default [] [(.addr, 0x3000), (.pos, 0), (.len, 12)] with
        perm := [(0x3000, ⟨true, true⟩), (0x3001, ⟨false, true⟩)] };
      RangeFits s (s.use .addr) (s.use .pos) (s.use .len) ∧ s.canWrite 0x3001 = true ∧
      0x3001 ∈ partialAddrs (s.use .addr) (s.use .pos) (s.use .len) ∧ s.canRead 0x3001 = false ∧
      ∀ x ∈ spanAddrs (s.use .addr) (s.use .pos) (s.use .len), x < 0x3001 → s.canWrite x = true ∧
        (x ∈ partialAddrs (s.use .addr) (s.use .pos) (s.use .len) → s.canRead x = true)) := by decide

/-- A range inside one byte, exactly one byte, and one that ends on a byte boundary. -/
theorem witness_MasksOfHeadBodyTail :
    (0 < 3 ∧ 2 / 8 = (2 + 3 - 1) / 8) ∧ (0 < 8 ∧ 8 / 8 = (8 + 8 - 1) / 8) ∧ (0 < 11 ∧ 5 / 8 ≠ (5 + 11 - 1) / 8) ∧
    (0 < 29 ∧ 5 / 8 < 1 ∧ 1 < (5 + 29 - 1) / 8) := by decide

/-- Without slack, and with it; the destination bits start above and below the source bits. -/
theorem witness_BcopyCopiesBitByBit :
    CopyReady (bench .default (source ++ zeros 0x200 3) [(.addr, 0x200), (.src, 0x100), (.pos, 7), (.spos, 0), (.len, 9)]) ∧
    CopyReady (bench { Params.default with copySlack := true } (source ++ zeros 0x200 1)
      [(.addr, 0x200), (.src, 0x101), (.pos, 0), (.spos, 0), (.len, 8)]) := by decide

theorem witness_ShiftAlignmentEqualsBitCopy :
    1 ∈ spanOffsets ((full .default [] [(.pos, 7), (.len, 9)]).use .pos) ((full .default [] [(.pos, 7), (.len, 9)]).use .len) := by
  decide

/-- Each clause: a register unwritten after the others, a source position out of range, spans that share their last
byte, and a copy that is not ready because of a source byte, because of the slack byte below address 0, and because of
the slack byte above the top address. -/
theorem witness_BcopyStops :
    (let s := bench .default [] [(.addr, 0), (.src, 0), (.pos, 0)];
      [OpReg.addr, .src, .pos, .spos, .len] = [OpReg.addr, .src, .pos] ++ .spos :: [.len] ∧
        Written s [.addr, .src, .pos] ∧ (s.op .spos).written = false) ∧
    (let s := full .default [] [(.spos, 0xFFFFFFFFFFFFFFF8), (.len, 9)];
      Written s [.addr, .src, .pos, .spos, .len] ∧ 0 < s.use .len ∧
        ¬ RangeFits s (s.use .src) (s.use .spos) (s.use .len)) ∧
    (let s := full .default source [(.addr, 0x100), (.src, 0x101), (.len, 9)];
      RangeFits s (s.use .addr) (s.use .pos) (s.use .len) ∧ RangeFits s (s.use .src) (s.use .spos) (s.use .len) ∧
        ∃ a ∈ spanAddrs (s.use .addr) (s.use .pos) (s.use .len),
          a ∈ spanAddrs (s.use .src) (s.use .spos) (s.use .len)) ∧
    (let s := full .default (cellsFrom 0x100 [0xA5] ++ zeros 0x200 1)
        [(.addr, 0x200), (.src, 0x100), (.spos, 4), (.len, 8)];
      (∀ a ∈ spanAddrs (s.use .addr) (s.use .pos) (s.use .len),
        a ∉ spanAddrs (s.use .src) (s.use .spos) (s.use .len)) ∧ ¬ CopyReady s) ∧
    (let s := full { Params.default with copySlack := true } (zeros 0 2 ++ zeros 0x200 1) [(.addr, 0x200), (.len, 8)];
      (∀ a ∈ spanAddrs (s.use .addr) (s.use .pos) (s.use .len),
        a ∉ spanAddrs (s.use .src) (s.use .spos) (s.use .len)) ∧ s.params.copySlack = true ∧
        s.use .src + s.use .spos / 8 = 0 ∧ ¬ CopyReady s) ∧
    (let s := full { Params.default with copySlack := true } (zeros 0xFFFFFFFFFFFFFFFE 2 ++ zeros 0x200 1)
        [(.addr, 0x200), (.src, 0xFFFFFFFFFFFFFFFF), (.len, 8)];
      RangeFits s (s.use .src) (s.use .spos) (s.use .len) ∧
        (∀ a ∈ spanAddrs (s.use .addr) (s.use .pos) (s.use .len),
          a ∉ spanAddrs (s.use .src) (s.use .spos) (s.use .len)) ∧ s.params.copySlack = true ∧
        s.use .src + (s.use .spos + s.use .len - 1) / 8 + 1 = s.params.space ∧ ¬ CopyReady s) := by decide

/-- The highest bit alone, of each width. -/
theorem witness_CtzFindsLowestSetBit :
    ((Instr.ctz32, 32) ∈ [(Instr.ctz32, 32), (Instr.ctz64, 64)]) ∧
    (let s := bench .default [] [(.val, 0x80000000)]; Written s [.val] ∧ s.val.val.toNat % 2 ^ 32 ≠ 0) ∧
    (let s := bench .default [] [(.val, 0x8000000000000000)]; Written s [.val] ∧ s.val.val.toNat % 2 ^ 64 ≠ 0) := by
  exact ⟨by simp, by decide⟩

theorem witness_ClzCountsLeadingZeros :
    ((Instr.clz32, 32) ∈ [(Instr.clz32, 32), (Instr.clz64, 64)]) ∧
    (let s := bench .default [] [(.val, 1)]; Written s [.val] ∧ s.val.val.toNat % 2 ^ 32 ≠ 0 ∧
      s.val.val.toNat % 2 ^ 64 ≠ 0) := by
  exact ⟨by simp, by decide⟩

/-- Unwritten; and a VAL whose low 32 bits alone are 0. -/
theorem witness_ZeroInputStops :
    State.reset.val.written = false ∧
    (let s := bench .default [] [(.val, 0x100000000)]; s.val.written = true ∧ s.val.val.toNat % 2 ^ 32 = 0) ∧
    (let s := bench .default [] [(.val, 0)]; s.val.written = true ∧ s.val.val.toNat % 2 ^ 64 = 0) := by decide

theorem witness_PopcCountsSetBits :
    State.reset.val.written = false ∧ Written (bench .default [] [(.val, 0xFFFFFFFFFFFFFFFF)]) [.val] := by decide

theorem witness_BcountCountsRange :
    let s := bench .default counted [(.addr, 0x4000), (.pos, 1), (.len, 38)];
    Written s [.addr, .pos, .len] ∧ 0 < s.use .len ∧ RangeFits s (s.use .addr) (s.use .pos) (s.use .len) ∧
    AllRead s (spanAddrs (s.use .addr) (s.use .pos) (s.use .len)) := by decide

theorem witness_CountLaws :
    let s := bench .default (zeros 0x3000 2) [(.addr, 0x3000), (.pos, 3), (.len, 10)];
    (∃ t, exec (.bfill false true) s = .next t ∧ (t.status == 0) = true) ∧
    AllRead s (spanAddrs (s.use .addr) (s.use .pos) (s.use .len)) :=
  ⟨next_of_nextHas (by decide), by decide⟩

/-- Each clause: LEN unwritten, a position out of range, the byte just past the buffer not readable. -/
theorem witness_BcountStops :
    (let s := bench .default [] [(.addr, 0), (.pos, 0)];
      [OpReg.addr, .pos, .len] = [OpReg.addr, .pos] ++ .len :: [] ∧ Written s [.addr, .pos] ∧
        (s.op .len).written = false) ∧
    (let s := bench .default [] [(.addr, 0), (.pos, 0xFFFFFFFFFFFFFFFF), (.len, 2)];
      Written s [.addr, .pos, .len] ∧ 0 < s.use .len ∧ ¬ RangeFits s (s.use .addr) (s.use .pos) (s.use .len)) ∧
    (let s := bench .default counted [(.addr, 0x4000), (.pos, 0x24), (.len, 8)];
      RangeFits s (s.use .addr) (s.use .pos) (s.use .len) ∧
        0x4005 ∈ spanAddrs (s.use .addr) (s.use .pos) (s.use .len) ∧ s.canRead 0x4005 = false ∧
        ∀ x ∈ spanAddrs (s.use .addr) (s.use .pos) (s.use .len), x < 0x4005 → s.canRead x = true) := by decide

/-- Three set bits, none, and the largest end pointer. -/
theorem witness_BidxListsSetBits :
    ((Instr.bidx64, 64) ∈ [(Instr.bidx32, 32), (Instr.bidx64, 64)]) ∧
    (let s := bench .default (zeros 0x5000 12) [(.addr, 0x5000), (.pos, 0xFFFFFFFE), (.val, 7)];
      let js := (List.range 64).filter (fun j => s.val.val.getLsbD j);
      Written s [.addr, .pos, .val] ∧ s.use .addr + s.params.idxElem.bytes * js.length < s.params.space ∧
        AllWrite s (accessAddrs (s.use .addr) (s.params.idxElem.bytes * js.length)) ∧ js = [0, 1, 2]) ∧
    (let s := bench .default (zeros 0xFFFFFFFFFFFFFFFB 4) [(.addr, 0xFFFFFFFFFFFFFFFB), (.pos, 0), (.val, 1)];
      let js := (List.range 32).filter (fun j => s.val.val.getLsbD j);
      Written s [.addr, .pos, .val] ∧ s.use .addr + s.params.idxElem.bytes * js.length < s.params.space ∧
        AllWrite s (accessAddrs (s.use .addr) (s.params.idxElem.bytes * js.length))) := by
  exact ⟨by simp, by decide⟩

/-- Each clause: VAL unwritten, an end pointer of 2^64, the second element not writable. -/
theorem witness_BidxStops :
    (let s := bench .default [] [(.addr, 0), (.pos, 0)];
      [OpReg.addr, .pos, .val] = [OpReg.addr, .pos] ++ .val :: [] ∧ Written s [.addr, .pos] ∧
        (s.op .val).written = false) ∧
    (let s := bench .default [] [(.addr, 0xFFFFFFFFFFFFFFF8), (.pos, 0), (.val, 3)];
      Written s [.addr, .pos, .val] ∧ s.params.space ≤ s.use .addr + s.params.idxElem.bytes *
        ((List.range 32).filter (fun j => s.val.val.getLsbD j)).length) ∧
    (let s := bench .default (zeros 0x5000 4) [(.addr, 0x5000), (.pos, 0), (.val, 3)];
      s.use .addr + s.params.idxElem.bytes * ((List.range 32).filter (fun j => s.val.val.getLsbD j)).length <
        s.params.space ∧ s.canWrite (s.use .addr + 4) = false ∧ ∀ j < 4, s.canWrite (s.use .addr + j) = true) := by
  decide

/-- An empty buffer, a buffer of whole words, and one with a short first chunk that ends just below the top. -/
theorem witness_ItinitStartsScan :
    ScanReady (bench .default [] [(.addr, 0x6000), (.len, 0)]) ∧
    ScanReady (bench .default (zeros 0x6000 8) [(.addr, 0x6000), (.len, 16)]) ∧
    ScanReady (bench .default (zeros 0xFFFFFFFFFFFFFFFC 3) [(.addr, 0xFFFFFFFFFFFFFFFC), (.len, 3)]) := by decide

/-- Each clause: LEN unwritten, the least size out of range, an end of 2^64, the last byte of the first chunk not
readable. -/
theorem witness_ItinitStops :
    (let s := bench .default [] [(.addr, 0)];
      [OpReg.addr, .len] = [OpReg.addr] ++ .len :: [] ∧ Written s [.addr] ∧ (s.op .len).written = false) ∧
    (let s := bench .default [] [(.addr, 0x6000), (.len, 0x2000000000000000)];
      Written s [.addr, .len] ∧ s.params.space / 8 ≤ s.use .len) ∧
    (let s := bench .default [] [(.addr, 0xFFFFFFFFFFFFFFFC), (.len, 4)];
      Written s [.addr, .len] ∧ s.params.space ≤ s.use .addr + s.use .len) ∧
    (let s := bench .default (zeros 0x6000 3) [(.addr, 0x6000), (.len, 0x1FFFFFFFFFFFFFFC)];
      s.use .len < s.params.space / 8 ∧ s.use .addr + s.use .len < s.params.space ∧ 0 < s.use .len ∧
        3 < firstChunk s.params (s.use .len) ∧ s.canRead (s.use .addr + 3) = false ∧
        ∀ j < 3, s.canRead (s.use .addr + j) = true) := by decide

/-- Each case: a hit in a word still to load, the last hit of the last word, none left, and a context already
EXHAUSTED. -/
theorem witness_ItnextReturnsLeastRemainingHit :
    (NextReady (benchT4.setCtx 0 (scanCtx 0 0 0 0x6003 0x600B)) 0 ∧
      remaining benchT4 (scanCtx 0 0 0 0x6003 0x600B) = [63, 80]) ∧
    (NextReady midScan 0 ∧ remaining midScan (midScan.ctx 0) = [80]) ∧
    (NextReady (benchT4.setCtx 0 (scanCtx 0 0 56 0x600B 0x600B)) 0 ∧
      remaining benchT4 (scanCtx 0 0 56 0x600B 0x600B) = []) ∧
    NextReady (benchT4.setCtx 0 { scanCtx 0 0 56 0x600B 0x600B with itState := .exhausted }) 0 := by decide

/-- A buffer with hits, and an empty one. -/
theorem witness_IteratorTotality :
    ((∃ t, exec (.itinit false true 0) benchT4 = .next t ∧ (t.status == 0) = true) ∧
      AllRead benchT4 (accessAddrs (benchT4.use .addr) (benchT4.use .len)) ∧
      allHits benchT4 (benchT4.use .addr) (benchT4.use .len) true = [16, 63, 80]) ∧
    (∃ t, exec (.itinit false true 0) (bench .default [] [(.addr, 0x6000), (.len, 0)]) = .next t ∧
      (t.status == 0) = true) :=
  ⟨⟨next_of_nextHas (by decide), by decide, by decide⟩, next_of_nextHas (by decide)⟩

/-- The same bytes at two addresses, on two instances that differ in WORD_W, in two contexts. -/
theorem witness_ScanDependsOnBufferOnly :
    let s := benchT4;
    let r := bench .default (cellsFrom 0x8001 [0, 0, 1, 0, 0, 0, 0, 0x80, 0, 0, 1]) [(.addr, 0x8001), (.len, 11)];
    (∃ t, exec (.itinit false true 0) s = .next t ∧ (t.status == 0) = true) ∧
    (∃ u, exec (.itinit true true 3) r = .next u ∧ (u.status == 0) = true) ∧
    s.params.addrW = r.params.addrW ∧ s.use .len = r.use .len ∧
    (∀ k < s.use .len, s.peek (s.use .addr + k) = r.peek (r.use .addr + k)) ∧
    AllRead s (accessAddrs (s.use .addr) (s.use .len)) ∧ AllRead r (accessAddrs (r.use .addr) (r.use .len)) :=
  ⟨next_of_nextHas (by decide), next_of_nextHas (by decide), by decide, by decide, by decide, by decide, by decide⟩

theorem witness_ExhaustedStaysExhausted :
    let s := benchT4.setCtx 15 { scanCtx 0 0 56 0x600B 0x600B with itState := .exhausted };
    (s.ctx 15).itState = .exhausted ∧ (s.ctx 15).itInv = false := by decide

/-- Each clause: UNINIT, invalidated, the last byte of the next word not readable, and a byte of the word after it, the
next word being readable and without a hit. -/
theorem witness_ItnextStops :
    (State.reset.ctx 0).itState = .uninit ∧
    (let s := (benchT4.setCtx 0 (scanCtx 0 0 0 0x6003 0x600B)).invalidate 0x600A;
      (s.ctx 0).itState ≠ .uninit ∧ (s.ctx 0).itInv = true) ∧
    ∀ m ∈ [3, 6], let s := (bench narrowWord (traceT4.take (3 + m)) []).setCtx 0 (scanCtx 0 0 0 0x6003 0x600B);
      CtxOk s (s.ctx 0) ∧ (s.ctx 0).itState = .positioned ∧ (s.ctx 0).itInv = false ∧ (s.ctx 0).itWord.val = 0 ∧
        m < (s.ctx 0).itEnd.val.toNat - (s.ctx 0).itNext.val.toNat ∧
        (∀ j < m, s.canRead ((s.ctx 0).itNext.val.toNat + j) = true) ∧
        s.canRead ((s.ctx 0).itNext.val.toNat + m) = false ∧
        ∀ q < 8 * ((s.ctx 0).loaded + s.params.wb * (m / s.params.wb)), 8 * (s.ctx 0).loaded ≤ q →
          isHit s (s.ctx 0) q = false := by decide

/-- ITNEXT meets the unreadable byte 0x6009 in the second word it loads (47 R213). -/
theorem test_itnext_later_word_not_readable :
    faultOf (cmdOn ((bench narrowWord (traceT4.take 9) []).setCtx 0 (scanCtx 0 0 0 0x6003 0x600B)) 0x49) =
      some (.mem 0x6009 0x49) := by decide

end Sys2Proof.Tests
end

section
/-! What a command can do, said once: every way in which `exec` can answer a next state (10_state R40, 60_exceptions
R230 and R235). The frames of the commands and the invariant are read off from it. -/

namespace Sys2Proof.Machine

variable {i : Instr} {s t : State} {c : Bool}

/-- The ways in which a command can answer a next state. -/
inductive Completion (i : Instr) (s : State) : State → Prop where
  /-- A check failed in checked mode. -/
  | reported (e : ErrCode) (hc : i.checked = true) (he : e ≠ .illegal) : Completion i s (s.setStatus (statusErr e))
  /-- Bytes admitted for writing, or none, were written, and perhaps RES. -/
  | wrote (ws : List Host.Cell) (r : Marked) (hw : ∀ w ∈ ws, s.canWrite w.1 = true) :
      Completion i s (({ s.pokes ws with res := r } : State).setStatus statusOk)
  /-- ITINIT began a scan of an empty buffer. -/
  | emptyScan (c v : Bool) (it : BitVec 4) (hi : i = .itinit c v it) :
      Completion i s ((s.setCtx it (emptyScan s.params (s.use .addr) v)).setStatus statusOk)
  /-- ITINIT began a scan of a buffer of at least one byte. -/
  | startScan (c v : Bool) (it : BitVec 4) (hi : i = .itinit c v it) (hlen : 0 < s.use .len)
      (hlimit : s.use .len < sizeLimit s.params) (hfit : s.use .addr + s.use .len < s.params.space) :
      Completion i s ((s.setCtx it (startScan s (s.use .addr) (s.use .len) v)).setStatus statusOk)
  /-- ITNEXT returned a hit. -/
  | hit (c : Bool) (it : BitVec 4) (x : IterCtx) (hi : i = .itnext c it) (hp : (s.ctx it).itState = .positioned)
      (hv : (s.ctx it).itInv = false) (hx : search s (s.ctx it) = .hit x) :
      Completion i s (((s.setCtx it (takeHit x)).setRes (hitPosition s.params x)).setStatus statusOk)
  /-- ITNEXT found that no hit remains. -/
  | dry (c : Bool) (it : BitVec 4) (x : IterCtx) (hi : i = .itnext c it) (hp : (s.ctx it).itState = .positioned)
      (hv : (s.ctx it).itInv = false) (hx : search s (s.ctx it) = .dry x) :
      Completion i s (((s.setCtx it x.exhaust).setRes s.params.noneValue).setStatus statusNone)
  /-- ITNEXT on a scan that was over already. -/
  | exhausted (c : Bool) (it : BitVec 4) (hi : i = .itnext c it) :
      Completion i s ((s.setRes s.params.noneValue).setStatus statusNone)

/-! ### The endings that several commands share -/

theorem Completion.of_endedWith {e : ErrCode} (hc : i.checked = c) (he : e ≠ .illegal) (h : EndedWith c e s t) :
    Completion i s t := by
  obtain ⟨rfl, rfl⟩ := h
  exact .reported e hc he

theorem Completion.of_setRes {v : Word64} (h : t = (s.setRes v).setStatus statusOk) : Completion i s t :=
  h ▸ .wrote [] (.of v) (by simp)

theorem Completion.of_finish (h : t = s.setStatus statusOk) : Completion i s t := h ▸ .wrote [] s.res (by simp)

theorem Completion.of_pokes {ws : List Host.Cell} (hw : ∀ a ∈ ws.map Prod.fst, s.canWrite a = true)
    (h : t = (s.pokes ws).setStatus statusOk) : Completion i s t :=
  h ▸ .wrote ws (s.pokes ws).res (fun w hm => hw w.1 (List.mem_map_of_mem hm))

theorem Completion.of_pokes_setRes {ws : List Host.Cell} {v : Word64}
    (hw : ∀ a ∈ ws.map Prod.fst, s.canWrite a = true) (h : t = ((s.pokes ws).setRes v).setStatus statusOk) :
    Completion i s t :=
  h ▸ .wrote ws (.of v) (fun w hm => hw w.1 (List.mem_map_of_mem hm))

/-! ### The commands, family by family -/

theorem loadScalar_completion {n : Nat} (hc : i.checked = c) (h : loadScalar n c s = .next t) : Completion i s t := by
  simp only [loadScalar, scalarAccess_next, finish_next] at h
  obtain ⟨-, ⟨-, -, ht⟩ | ⟨-, he⟩⟩ := h
  · exact .of_setRes ht
  · exact .of_endedWith hc (by decide) he

theorem ldbool_completion (hc : i.checked = c) (h : execLdbool c s = .next t) : Completion i s t := by
  simp only [execLdbool, scalarAccess_next, check_next, finish_next] at h
  obtain ⟨-, ⟨-, -, ⟨-, ht⟩ | ⟨-, he⟩⟩ | ⟨-, he⟩⟩ := h
  · exact .of_setRes ht
  · exact .of_endedWith hc (by decide) he
  · exact .of_endedWith hc (by decide) he

theorem storeScalar_completion {n v : Nat} (hc : i.checked = c) (h : storeScalar n v c s = .next t) :
    Completion i s t := by
  simp only [storeScalar, scalarAccess_next, finish_next] at h
  obtain ⟨-, ⟨-, hw, ht⟩ | ⟨-, he⟩⟩ := h
  · exact .of_pokes (by rwa [storeCells_addrs]) ht
  · exact .of_endedWith hc (by decide) he

theorem btst_completion (hc : i.checked = c) (h : execBtst c s = .next t) : Completion i s t := by
  simp only [execBtst, bitAccess_next, finish_next] at h
  obtain ⟨-, ⟨-, -, ht⟩ | ⟨-, he⟩⟩ := h
  · exact .of_setRes ht
  · exact .of_endedWith hc (by decide) he

/-- BSET and BCLR differ only in the byte they write. -/
theorem bitUpdate_completion {b : Byte} {v : Word64} (hc : i.checked = c)
    (h : bitAccess s.canUpdate c s (finish ((s.poke (bitAddr s) b).setRes v)) = .next t) : Completion i s t := by
  simp only [bitAccess_next, finish_next, State.canUpdate, Bool.and_eq_true] at h
  obtain ⟨-, ⟨-, ⟨-, hw⟩, ht⟩ | ⟨-, he⟩⟩ := h
  · exact .of_pokes_setRes (ws := [(bitAddr s, b)]) (by simpa using hw) ht
  · exact .of_endedWith hc (by decide) he

theorem bmsize_completion (hc : i.checked = c) (h : execBmsize c s = .next t) : Completion i s t := by
  simp only [execBmsize, needs_next, inRange_next, finish_next] at h
  obtain ⟨-, ⟨-, ht⟩ | ⟨-, he⟩⟩ := h
  · exact .of_setRes ht
  · exact .of_endedWith hc (by decide) he

/-- A destination span without a bad byte is admitted for writing. -/
theorem badDest_none {b p n : Nat} (h : badDest b p n s = none) : ∀ a ∈ spanAddrs b p n, s.canWrite a = true := by
  intro a ha
  have := firstBad_none.1 h a ha
  simp only [State.canMerge, Bool.and_eq_true] at this
  exact this.1

theorem bfill_completion {v : Bool} (hc : i.checked = c) (h : execBfill c v s = .next t) : Completion i s t := by
  simp only [execBfill, needs_next] at h
  obtain ⟨-, h⟩ := h
  split at h
  · exact .of_finish (finish_next.1 h)
  · simp only [rangeAccess_next, admitted_next, finish_next] at h
    obtain ⟨-, hw, ht⟩ | ⟨-, he⟩ := h
    · exact .of_pokes (by rw [fillCells_addrs]; exact badDest_none hw) ht
    · exact .of_endedWith hc (by decide) he

theorem bcopy_completion (hc : i.checked = c) (h : execBcopy c s = .next t) : Completion i s t := by
  simp only [execBcopy, needs_next] at h
  obtain ⟨-, h⟩ := h
  split at h
  · exact .of_finish (finish_next.1 h)
  · simp only [inRange_next, check_next, admitted_next, lower_none, finish_next] at h
    obtain ⟨-, ⟨-, ⟨-, ⟨-, ⟨-, ⟨-, hw⟩, ht⟩ | ⟨-, he⟩⟩ | ⟨-, he⟩⟩ | ⟨-, he⟩⟩ | ⟨-, he⟩⟩ | ⟨-, he⟩ := h
    · exact .of_pokes (by rw [copyCells_addrs]; exact badDest_none hw) ht
    all_goals exact .of_endedWith hc (by decide) he

theorem zeroDetect_completion {w n : Nat} {x : BitVec w} (hc : i.checked = c) (h : zeroDetect x n c s = .next t) :
    Completion i s t := by
  obtain ⟨-, ⟨-, ht⟩ | ⟨-, he⟩⟩ := zeroDetect_next.1 h
  · exact .of_setRes ht
  · exact .of_endedWith hc (by decide) he

theorem bcount_completion (hc : i.checked = c) (h : execBcount c s = .next t) : Completion i s t := by
  simp only [execBcount, needs_next] at h
  obtain ⟨-, h⟩ := h
  split at h
  · exact .of_setRes (finish_next.1 h)
  · simp only [rangeAccess_next, admitted_next, finish_next] at h
    obtain ⟨-, -, ht⟩ | ⟨-, he⟩ := h
    · exact .of_setRes ht
    · exact .of_endedWith hc (by decide) he

theorem bitIndex_completion {js : List Nat} (hc : i.checked = c) (h : bitIndex js c s = .next t) :
    Completion i s t := by
  obtain ⟨-, ⟨-, hw, ht⟩ | ⟨-, he⟩⟩ := bitIndex_next.1 h
  · exact .of_pokes_setRes (by rwa [idxCells_addrs]) ht
  · exact .of_endedWith hc (by decide) he

theorem itinit_completion {v : Bool} {it : BitVec 4} (h : execItinit c v it s = .next t) :
    Completion (.itinit c v it) s t := by
  simp only [execItinit, needs_next, check_next, inRange_next, decide_eq_true_eq] at h
  obtain ⟨-, ⟨hlimit, ⟨hfit, h⟩ | ⟨-, he⟩⟩ | ⟨-, he⟩⟩ := h
  · split at h
    · rw [finish_next.1 h]
      exact .emptyScan c v it rfl
    · next hlen =>
      simp only [admitted_next, finish_next] at h
      rw [h.2]
      exact .startScan c v it rfl (Nat.pos_of_ne_zero hlen) hlimit hfit
  · exact .of_endedWith rfl (by decide) he
  · exact .of_endedWith rfl (by decide) he

theorem eq_positioned {x : IterState} (hu : x ≠ .uninit) (hx : x ≠ .exhausted) : x = .positioned := by
  cases x with
  | uninit => exact absurd rfl hu
  | positioned => rfl
  | exhausted => exact absurd rfl hx

theorem itnext_completion {it : BitVec 4} (h : execItnext c it s = .next t) : Completion (.itnext c it) s t := by
  simp only [execItnext, check_next, decide_eq_true_eq] at h
  obtain ⟨hu, h⟩ | ⟨-, he⟩ := h
  · split at h
    · cases h
    · next hv =>
      unfold nextHit at h
      split at h
      · rw [finishNone_next.1 h]
        exact .exhausted c it rfl
      · next hx =>
        have hp := eq_positioned hu hx
        have hv : (s.ctx it).itInv = false := by simpa using hv
        split at h
        · next hs =>
          rw [finish_next.1 h]
          exact .hit c it _ rfl hp hv hs
        · next hs =>
          rw [finishNone_next.1 h]
          exact .dry c it _ rfl hp hv hs
        · obtain ⟨hle, -⟩ | ⟨-, he⟩ := inRange_next.1 h
          · omega
          · exact .of_endedWith rfl (by decide) he
        · cases h
  · exact .of_endedWith rfl (by decide) he

/-- Every next state of a command is one of the listed completions. -/
theorem exec_completion (h : exec i s = .next t) : Completion i s t := by
  cases i with
  | ld8 c | ld16 c | ld32 c | ld64 c | ldf32 c | ldf64 c => exact loadScalar_completion rfl h
  | ldbool c => exact ldbool_completion rfl h
  | st8 c | st16 c | st32 c | st64 c | stf32 c | stf64 c | stbool c => exact storeScalar_completion rfl h
  | btst c => exact btst_completion rfl h
  | bset c | bclr c => exact bitUpdate_completion rfl h
  | bmsize c => exact bmsize_completion rfl h
  | bfill c v => exact bfill_completion rfl h
  | bcopy c => exact bcopy_completion rfl h
  | ctz32 c | ctz64 c | clz32 c | clz64 c => exact zeroDetect_completion rfl h
  | popc32 c => exact .of_setRes (finish_next.1 (needs_next.1 h).2)
  | popc64 c => exact .of_setRes (finish_next.1 (needs_next.1 h).2)
  | bcount c => exact bcount_completion rfl h
  | bidx32 c | bidx64 c => exact bitIndex_completion rfl h
  | itinit c v it => exact itinit_completion h
  | itnext c it => exact itnext_completion h

end Sys2Proof.Machine
end

section
/-! The frames of the commands, read off from the list of their completions. -/

namespace Sys2Proof.Machine

/-- Byte writes change memory and the contexts only. -/
theorem pokes_frame (s : State) (ws : List Host.Cell) :
    s.pokes ws = { s with iters := (s.pokes ws).iters, mem := (s.pokes ws).mem } := by
  induction ws generalizing s with
  | nil => rfl
  | cons w ws ih => rw [pokes_cons, ih]; rfl

/-- The error codes a command can report, ILLEGAL not being one of them (60_exceptions R236). -/
theorem statusErr_mem {e : ErrCode} (he : e ≠ .illegal) : statusErr e ∈ ([2, 3, 4, 5, 6] : List Word64) := by
  cases e with
  | illegal => exact absurd rfl he
  | zeroInput | overlap | range | iterState | boolRepr => decide

/-- Settles O13: every completion writes RES, STATUS, contexts and memory only. -/
theorem commandsKeepOperandRegisters : Obligations.CommandsKeepOperandRegisters := by
  intro i s t h
  cases exec_completion h with
  | wrote ws r hw => rw [pokes_frame]; rfl
  | reported | emptyScan | startScan | hit | dry | exhausted => rfl

/-- Settles O14: byte writes only mark a context, and ITINIT and ITNEXT set only the context they name. -/
theorem onlyIteratorCommandsMoveContexts : Obligations.OnlyIteratorCommandsMoveContexts := by
  intro i s t j h hne
  cases exec_completion h with
  | reported | exhausted => exact absurd rfl hne
  | wrote ws r hw =>
    have hctx : (({ s.pokes ws with res := r } : State).setStatus statusOk).ctx j = (s.pokes ws).ctx j := rfl
    rw [hctx, ctx_pokes] at hne ⊢
    cases hmark : (s.ctx j).itInv || (decide ((s.ctx j).itState = .positioned) &&
      ws.any (fun w => (s.ctx j).covers w.1)) with
    | true => exact .inr (.inr rfl)
    | false =>
      rw [hmark] at hne
      exact absurd (by rw [← (Bool.or_eq_false_iff.1 hmark).1]) hne
  | emptyScan c v it hi | startScan c v it hi =>
    obtain rfl | hj := eq_or_ne j it
    · exact .inl ⟨c, v, hi⟩
    · exact absurd (ctx_setCtx_ne s _ hj) hne
  | hit c it x hi | dry c it x hi =>
    obtain rfl | hj := eq_or_ne j it
    · exact .inr (.inl ⟨c, hi⟩)
    · exact absurd (ctx_setCtx_ne s _ hj) hne

/-- Settles O16: the STATUS of each completion. -/
theorem statusOfEveryEnding : Obligations.StatusOfEveryEnding := by
  intro i s t h
  cases exec_completion h with
  | reported e hc he => exact .inr (.inr ⟨hc, statusErr_mem he, rfl⟩)
  | wrote | emptyScan | startScan | hit => exact .inl rfl
  | dry c it x hi => exact .inr (.inl ⟨rfl, rfl, c, it, hi⟩)
  | exhausted c it hi => exact .inr (.inl ⟨rfl, rfl, c, it, hi⟩)

end Sys2Proof.Machine
end

section
/-! Words, addresses and the bits of a loaded word: the arithmetic the iterator's registers rest on (00_scope R6 to R8,
20_memory R56). -/

namespace Sys2Proof.Machine

theorem wb_pos (p : Params) : 0 < p.wb := by
  unfold Params.wb; cases p.wordW <;> decide

theorem wb_le (p : Params) : p.wb ≤ 8 := by
  unfold Params.wb; cases p.wordW <;> decide

theorem wordW_bits (p : Params) : p.wordW.bits = 8 * p.wb := by
  unfold Params.wb; cases p.wordW <;> rfl

theorem space_le (p : Params) : p.space ≤ 2 ^ 64 := by
  unfold Params.space; cases p.addrW <;> decide

theorem sizeLimit_pos (p : Params) : 0 < sizeLimit p := by
  unfold sizeLimit Params.space; cases p.addrW <;> decide

theorem sizeLimit_le (p : Params) : 8 * sizeLimit p ≤ p.space := Nat.mul_div_le _ _

theorem toNat_word64 {n : Nat} (h : n < 2 ^ 64) : (word64 n).toNat = n := Nat.mod_eq_of_lt h

/-- A number below the size of the address space is held whole by a register. -/
theorem toNat_word64_of_lt_space {p : Params} {n : Nat} (h : n < p.space) : (word64 n).toNat = n :=
  toNat_word64 (h.trans_le (space_le p))

/-- Bit `j` of a number of ones. -/
theorem word64_ones_bit (n : Nat) {j : Nat} (hj : j < 64) : (word64 (2 ^ n - 1)).getLsbD j = decide (j < n) := by
  simp only [word64, BitVec.getLsbD_ofNat, hj, Nat.testBit_two_pow_sub_one, decide_true, Bool.true_and]

theorem wordOnes_bit (p : Params) {j : Nat} (hj : j < 64) : p.wordOnes.getLsbD j = decide (j < 8 * p.wb) := by
  rw [← wordW_bits]; exact word64_ones_bit _ hj

theorem wordOnes_beq_zero (p : Params) : (p.wordOnes == 0#64) = false := by
  unfold Params.wordOnes; cases p.wordW <;> decide

/-- Bit `j` of the word of `n` bytes at `a` is bit `j` of the buffer there, and 0 beyond the bytes. -/
theorem loadValue_bit (s : State) (a : Nat) {n j : Nat} (hj : j < 64) :
    (word64 (s.loadValue .le a n)).getLsbD j = (decide (j < 8 * n) && s.bitAt a j) := by
  simp only [word64, BitVec.getLsbD_ofNat, hj, decide_true, Bool.true_and, State.loadValue, orderValue,
    leValue_testBit]
  by_cases hn : j < 8 * n
  · have hk : j / 8 < n := by omega
    simp [hn, State.bytesAt, State.bitAt, hk]
  · have hk : ¬ j / 8 < n := by omega
    simp [hn, State.bytesAt, hk]

/-- The rounds of ITNEXT's loop cover exactly the bytes left, when these are whole words (10_state R31). -/
theorem wordsLeft_mul {p : Params} {a limit : Nat} (h : (limit - a) % p.wb = 0) :
    wordsLeft p a limit * p.wb = limit - a := by
  have hpos := wb_pos p
  obtain ⟨q, hq⟩ := Nat.dvd_of_mod_eq_zero h
  have hrest : (p.wb - 1) / p.wb = 0 := Nat.div_eq_of_lt (by omega)
  rw [wordsLeft, hq, Nat.add_sub_assoc hpos, Nat.mul_add_div hpos, hrest, Nat.add_zero, Nat.mul_comm]

end Sys2Proof.Machine
end

section
/-! The iterator contexts keep their invariant (10_state R28 to R34). -/

namespace Sys2Proof.Machine

variable {s t : State} {x y z : IterCtx} {a : Nat}

/-! ### The invariant of a context, state by state -/

theorem ctxOk_of_positioned (hs : x.itState = .positioned) (hw : x.allWritten) (hb : x.bufferOk s.params)
    (hc : x.cursorOk s.params) (hk : x.wordOk s) : CtxOk s x :=
  ⟨by simp [hs], fun _ => ⟨hw, hb, hc, hk⟩, by simp [hs]⟩

theorem ctxOk_of_exhausted (hs : x.itState = .exhausted) (hw : x.allWritten) (hb : x.bufferOk s.params)
    (hz : x.itWord.val = 0) (he : x.itEnd.val.toNat ≤ x.itNext.val.toNat) (hv : x.itInv = false) : CtxOk s x :=
  ⟨by simp [hs], by simp [hs], fun _ => ⟨hw, hb, hz, he, hv⟩⟩

theorem ctxOk_reset (s : State) : CtxOk s IterCtx.reset :=
  ⟨fun _ => rfl, by simp [IterCtx.reset], by simp [IterCtx.reset]⟩

/-- The invariant of a context reads the parameters and memory only. -/
theorem ctxOk_congr (hp : t.params = s.params) (hm : t.mem = s.mem) (h : CtxOk s x) : CtxOk t x := by
  simpa only [CtxOk, IterCtx.wordOk, isHit, State.bitAt, State.peek, hp, hm] using h

/-! ### Byte writes and freed bytes (10_state R34) -/

/-- An invalidated context claims nothing about the bytes of its buffer, so it is legal over any memory. -/
theorem ctxOk_marked (hp : t.params = s.params) (hs : x.itState = .positioned) (h : CtxOk s x) :
    CtxOk t { x with itInv := true } := by
  obtain ⟨hw, hb, hc, hk⟩ := h.2.1 hs
  exact ctxOk_of_positioned hs hw (hp ▸ hb) (hp ▸ hc) (fun j hj hbit => ⟨(hk j hj hbit).1, nofun⟩)

theorem ctxOk_touch (a : Nat) (h : CtxOk s x) : CtxOk s (x.touch a) := by
  unfold IterCtx.touch
  split
  · next hs => exact ctxOk_marked rfl hs.1 h
  · exact h

/-- A loaded position's byte lies in the buffer. -/
theorem isHit_poke_of_not_covers {b : Byte} {q : Nat} (hc : x.covers a = false) (hq : q < 8 * x.loaded)
    (hn : x.itNext.val.toNat ≤ x.itEnd.val.toNat) : isHit (s.poke a b) x q = isHit s x q := by
  have hne : x.base + q / 8 ≠ a := by
    simp only [IterCtx.covers, Bool.and_eq_false_iff, decide_eq_false_iff_not] at hc
    simp only [IterCtx.loaded] at hq
    simp only [IterCtx.base]
    omega
  simp only [isHit, State.bitAt, peek_poke_ne s b hne]

theorem ctxOk_poke (b : Byte) (h : CtxOk s x) : CtxOk (s.poke a b) (x.touch a) := by
  cases hs : x.itState with
  | uninit =>
    rw [h.1 hs]
    exact ctxOk_reset _
  | exhausted =>
    obtain ⟨hw, hb, hz, he, hv⟩ := h.2.2 hs
    rw [IterCtx.touch, if_neg (by simp [hs])]
    exact ctxOk_of_exhausted hs hw hb hz he hv
  | positioned =>
    cases hcov : x.covers a with
    | true =>
      rw [IterCtx.touch, if_pos ⟨hs, hcov⟩]
      exact ctxOk_marked (s := s) rfl hs h
    | false =>
      obtain ⟨hw, hb, hc, hk⟩ := h.2.1 hs
      rw [touch_of_not_covers hcov]
      refine ctxOk_of_positioned hs hw hb hc (fun j hj hbit => ⟨(hk j hj hbit).1, fun hv => ?_⟩)
      rw [isHit_poke_of_not_covers hcov (hk j hj hbit).1 hc.2.1]
      exact (hk j hj hbit).2 hv

/-! ### ITINIT (47_bit_index_iterator R209, R210) -/

/-- IT_XOR holds one of the two masks of a mode (10_state R29). -/
theorem modeMask_cases (p : Params) (v : Bool) : modeMask p v = 0 ∨ modeMask p v = p.wordOnes := by
  cases v <;> simp [modeMask]

theorem ctxOk_emptyScan (v : Bool) (ha : a < s.params.space) : CtxOk s (emptyScan s.params a v) := by
  have hval := toNat_word64_of_lt_space ha
  refine ctxOk_of_exhausted rfl (by simp [IterCtx.allWritten, emptyScan, Marked.of]) ?_ rfl le_rfl rfl
  refine ⟨modeMask_cases _ _, le_rfl, by simpa [emptyScan, Marked.of, hval] using ha, ?_⟩
  simpa [IterCtx.size, emptyScan] using sizeLimit_pos s.params

/-- A first chunk is not empty, at most a word, and leaves whole words (47 R210). -/
theorem firstChunk_spec (p : Params) {sz : Nat} (h : 0 < sz) :
    firstChunk p sz ≤ p.wb ∧ firstChunk p sz ≤ sz ∧ (sz - firstChunk p sz) % p.wb = 0 := by
  have hpos := wb_pos p
  unfold firstChunk
  split
  · next hz =>
    have hle : p.wb ≤ sz := Nat.le_of_dvd h (Nat.dvd_of_mod_eq_zero hz)
    exact ⟨le_rfl, hle, by rw [← Nat.mod_eq_sub_mod hle]; exact hz⟩
  · exact ⟨(Nat.mod_lt _ hpos).le, Nat.mod_le _ _, Nat.sub_mod_eq_zero_of_mod_eq (Nat.mod_mod _ _).symm⟩

/-- Bit `j` of the first word: the bytes loaded, exclusive-ored with the mode's mask, and the no-match pattern above. -/
theorem firstWord_bit (s : State) (b c : Nat) (v : Bool) (hc : c ≤ s.params.wb) {j : Nat} (hj : j < 64) :
    (firstWord s b c (modeMask s.params v)).getLsbD j = (decide (j < 8 * c) && (s.bitAt b j == v)) := by
  have hmask : (modeMask s.params v).getLsbD j = (!v && decide (j < 8 * s.params.wb)) := by
    cases v <;> simp [modeMask, wordOnes_bit _ hj]
  simp only [firstWord, lowBytes, BitVec.getLsbD_xor, BitVec.getLsbD_or, BitVec.getLsbD_and, BitVec.getLsbD_not,
    word64_ones_bit _ hj, loadValue_bit s b hj, hj, hmask, decide_true, Bool.true_and]
  by_cases hlow : j < 8 * c
  · have hword : j < 8 * s.params.wb := by omega
    cases v <;> simp [hlow, hword]
  · simp [hlow]

/-- In set mode a hit is a 1 bit, in clear mode a 0 bit (47 R206). -/
theorem isHit_of_modeMask {p : Params} {v : Bool} {q : Nat} (h : x.itXor.val = modeMask p v) :
    isHit s x q = (s.bitAt x.base q == v) := by
  cases v <;> simp [isHit, h, modeMask, wordOnes_beq_zero]

theorem ctxOk_startScan {b sz : Nat} (v : Bool) (hsz : 0 < sz) (hlimit : sz < sizeLimit s.params)
    (hfit : b + sz < s.params.space) : CtxOk s (startScan s b sz v) := by
  obtain ⟨hcw, hcs, hmod⟩ := firstChunk_spec s.params hsz
  have hstart : (startScan s b sz v).itStart.val.toNat = b := toNat_word64_of_lt_space (p := s.params) (by omega)
  have hend : (startScan s b sz v).itEnd.val.toNat = b + sz := toNat_word64_of_lt_space hfit
  have hnext : (startScan s b sz v).itNext.val.toNat = b + firstChunk s.params sz :=
    toNat_word64_of_lt_space (p := s.params) (by omega)
  have hbase : (startScan s b sz v).itBase.val.toNat = 0 := rfl
  have hsize : (startScan s b sz v).size = sz := by rw [IterCtx.size, hend, hstart]; omega
  have hloaded : (startScan s b sz v).loaded = firstChunk s.params sz := by
    rw [IterCtx.loaded, hnext, hstart]; omega
  have hchunk : (startScan s b sz v).chunk s.params = firstChunk s.params sz := by
    rw [IterCtx.chunk, hloaded, hsize, firstChunk]
    split <;> simp_all
  refine ctxOk_of_positioned rfl (by simp [IterCtx.allWritten, startScan, Marked.of]) ?_ ?_ ?_
  · exact ⟨modeMask_cases _ _, by omega, by omega, by omega⟩
  · refine ⟨by omega, by omega, ?_, by omega, by omega⟩
    rw [hend, hnext, Nat.add_sub_add_left]
    exact hmod
  · intro j hj hbit
    rw [show (startScan s b sz v).itWord.val = firstWord s b _ (modeMask s.params v) from rfl,
      firstWord_bit s b _ v hcw hj, Bool.and_eq_true, decide_eq_true_eq] at hbit
    rw [hbase, hloaded, Nat.zero_add]
    refine ⟨hbit.1, fun _ => ?_⟩
    rw [isHit_of_modeMask (p := s.params) (v := v) rfl, IterCtx.base, hstart]
    exact hbit.2

/-! ### ITNEXT (47_bit_index_iterator R211 to R215) -/

theorem bufferOk_congr {p : Params} (hx : z.itXor = x.itXor) (hs : z.itStart = x.itStart) (he : z.itEnd = x.itEnd)
    (h : x.bufferOk p) : z.bufferOk p := by
  simpa only [IterCtx.bufferOk, IterCtx.size, hx, hs, he] using h

/-- Bit `j` of a word that ITNEXT loads. -/
theorem loadWord_bit (hx : z.itXor.val = 0 ∨ z.itXor.val = s.params.wordOnes) {j : Nat} (hj : j < 64)
    (h : (loadWord s a z).itWord.val.getLsbD j = true) :
    j < 8 * s.params.wb ∧ (s.bitAt a j == (z.itXor.val == 0)) = true := by
  simp only [loadWord, Marked.of, BitVec.getLsbD_xor, loadValue_bit s a hj] at h
  obtain hx | hx := hx
  · simpa [hx] using h
  · rw [hx, wordOnes_bit _ hj] at h
    simpa [hx, wordOnes_beq_zero] using h

/-- A context whose next whole word, inside the buffer, has been loaded. -/
theorem ctxOk_loadWord (hs : z.itState = .positioned) (hxw : z.itXor.written = true) (hsw : z.itStart.written = true)
    (hew : z.itEnd.written = true) (hb : z.bufferOk s.params) (hlo : z.itStart.val.toNat ≤ a)
    (hhi : a + s.params.wb ≤ z.itEnd.val.toNat) (hmod : (z.itEnd.val.toNat - (a + s.params.wb)) % s.params.wb = 0) :
    CtxOk s (loadWord s a z) := by
  obtain ⟨hxor, hse, hspace, hsize⟩ := id hb
  have hlim := sizeLimit_le s.params
  have hle := space_le s.params
  have hpos := wb_pos s.params
  simp only [IterCtx.size] at hsize
  have hnext : (loadWord s a z).itNext.val.toNat = a + s.params.wb := toNat_word64_of_lt_space (hhi.trans_lt hspace)
  have hbase : (loadWord s a z).itBase.val.toNat = 8 * (a - z.itStart.val.toNat) := toNat_word64 (by omega)
  have hloaded : (loadWord s a z).loaded = a - z.itStart.val.toNat + s.params.wb := by
    rw [IterCtx.loaded, hnext, loadWord_itStart]; omega
  have hchunk : (loadWord s a z).chunk s.params = s.params.wb := by
    have := Nat.mod_lt (loadWord s a z).size hpos
    rw [IterCtx.chunk, if_neg]
    omega
  refine ctxOk_of_positioned hs ⟨hxw, rfl, rfl, rfl, hew, hsw⟩ (bufferOk_congr rfl rfl rfl hb) ?_ ?_
  · rw [IterCtx.cursorOk, hchunk, hloaded, hbase, hnext, loadWord_itStart, loadWord_itEnd]
    exact ⟨by omega, hhi, hmod, by omega, by omega⟩
  · intro j hj hbit
    obtain ⟨hjw, hhit⟩ := loadWord_bit hxor hj hbit
    rw [hbase, hloaded]
    refine ⟨by omega, fun _ => ?_⟩
    have haddr : z.itStart.val.toNat + (8 * (a - z.itStart.val.toNat) + j) / 8 = a + j / 8 := by omega
    simp only [isHit, State.bitAt, IterCtx.base, loadWord_itStart, loadWord_itXor, haddr, Nat.mul_add_mod]
    exact hhit

/-- Taking a hit clears a bit of IT_WORD and changes nothing else. -/
theorem ctxOk_takeHit (hs : x.itState = .positioned) (h : CtxOk s x) : CtxOk s (takeHit x) := by
  obtain ⟨⟨h1, -, h3, h4, h5, h6⟩, hb, hc, hk⟩ := h.2.1 hs
  refine ctxOk_of_positioned hs ⟨h1, rfl, h3, h4, h5, h6⟩ hb hc (fun j hj hbit => hk j hj ?_)
  simp only [takeHit, Marked.of, BitVec.getLsbD_and, Bool.and_eq_true] at hbit
  exact hbit.1

/-- A search that ends with a hit leaves a context that holds one. -/
theorem ctxOk_of_search_hit (hs : x.itState = .positioned) (h : CtxOk s x) (hy : search s x = .hit y) :
    y.itState = .positioned ∧ CtxOk s y := by
  unfold search at hy
  split at hy
  · obtain ⟨r, hr, z, rfl, -, hzx, hzs, hze, -, hzt, -⟩ := searchWords_hit hy
    obtain ⟨⟨hxw, -, -, -, hew, hsw⟩, hb, ⟨hlo, hhi, hmod, -, -⟩, -⟩ := h.2.1 hs
    have hleft := wordsLeft_mul hmod
    have hsplit : (wordsLeft s.params x.itNext.val.toNat x.itEnd.val.toNat - (r + 1)) * s.params.wb +
        (r * s.params.wb + s.params.wb) = x.itEnd.val.toNat - x.itNext.val.toNat := by
      rw [← hleft, ← Nat.succ_mul, ← Nat.add_mul, Nat.sub_add_cancel hr]
    refine ⟨hzt.trans hs, ctxOk_loadWord (hzt.trans hs) (hzx ▸ hxw) (hzs ▸ hsw) (hze ▸ hew)
      (bufferOk_congr hzx hzs hze hb) ?_ ?_ ?_⟩
    · rw [hzs]; omega
    · rw [hze]; omega
    · rw [hze, show x.itEnd.val.toNat - (x.itNext.val.toNat + r * s.params.wb + s.params.wb) =
        (wordsLeft s.params x.itNext.val.toNat x.itEnd.val.toNat - (r + 1)) * s.params.wb by omega]
      exact Nat.mul_mod_left _ _
  · cases hy
    exact ⟨hs, h⟩

/-- A search that finds no hit has gone to the end of the buffer. -/
theorem ctxOk_of_search_dry (hs : x.itState = .positioned) (hv : x.itInv = false) (h : CtxOk s x)
    (hy : search s x = .dry y) : CtxOk s y.exhaust := by
  unfold search at hy
  split at hy
  · next hz =>
    obtain ⟨⟨hxw, hww, hbw, hnw, hew, hsw⟩, hb, ⟨hlo, hhi, hmod, -, -⟩, -⟩ := h.2.1 hs
    have hleft := wordsLeft_mul hmod
    obtain ⟨⟨hm, rfl⟩ | ⟨hm, z, rfl, hword, hzx, hzs, hze, hzv, -⟩, -⟩ := searchWords_dry hy
    · rw [hm, Nat.zero_mul] at hleft
      refine ctxOk_of_exhausted rfl ⟨hxw, hww, hbw, hnw, hew, hsw⟩ hb hz ?_ hv
      simp only [IterCtx.exhaust]
      omega
    · refine ctxOk_of_exhausted rfl ⟨hzx ▸ hxw, rfl, rfl, rfl, hze ▸ hew, hzs ▸ hsw⟩
        (bufferOk_congr hzx hzs hze hb) hword ?_ (hzv.trans hv)
      have hlast : x.itNext.val.toNat +
          (wordsLeft s.params x.itNext.val.toNat x.itEnd.val.toNat - 1) * s.params.wb + s.params.wb =
          x.itEnd.val.toNat := by
        rw [Nat.add_assoc, ← Nat.succ_mul, Nat.succ_eq_add_one, Nat.sub_add_cancel hm, hleft]
        omega
      simp only [IterCtx.exhaust, loadWord, Marked.of, hze, hlast]
      rw [toNat_word64 x.itEnd.val.isLt]
  · cases hy

end Sys2Proof.Machine
end

section
/-! What a step of the host can do, said once, and the accesses of the host port (10_state R25, R37, R38; 20_memory
R52). -/

namespace Sys2Proof.Machine

variable {s t : State}

/-! ### A step -/

/-- While no fault is recorded, a step performs the host's next action. -/
theorem step_of_pending {act : HostAction} {rest : List HostAction} (hf : s.fault = none)
    (hp : s.pending = act :: rest) : step s = hostAct act { s with pending := rest } := by
  simp only [step, hf, hostStep, hp]

/-- A next state is that of the host's next action, or of the idle engine. -/
theorem step_next (h : step s = .next t) :
    t = s ∨ ∃ act rest, hostAct act { s with pending := rest } = .next t := by
  unfold step at h
  split at h
  · cases h
  · unfold hostStep at h
    split at h
    · cases h
      exact .inl rfl
    · exact .inr ⟨_, _, h⟩

theorem step_of_fault {f : Fault} (h : s.fault = some f) : step s = .fault f := by simp only [step, h]

/-! ### Register accesses -/

theorem step_regRead {offset : Nat} {rest : List HostAction} (hf : s.fault = none)
    (hp : s.pending = .regRead offset 8 :: rest) (ho : offset % 8 = 0) :
    step s = readSlot (slotAt s.params offset) { s with pending := rest } := by
  rw [step_of_pending hf hp]
  exact if_pos ⟨rfl, ho⟩

theorem step_regWrite {offset : Nat} {v : Word64} {rest : List HostAction} (hf : s.fault = none)
    (hp : s.pending = .regWrite offset 8 v :: rest) (ho : offset % 8 = 0) :
    step s = writeSlot (slotAt s.params offset) v { s with pending := rest } := by
  rw [step_of_pending hf hp]
  exact if_pos ⟨rfl, ho⟩

theorem regAccess_next {offset bytes : Nat} {k : Result} :
    regAccess offset bytes k = .next t ↔ (bytes = 8 ∧ offset % 8 = 0) ∧ k = .next t := by
  unfold regAccess
  split <;> simp_all

/-- A host read changes nothing but the values read. -/
theorem readSlot_next {x : Slot} (h : readSlot x s = .next t) : ∃ v, t = { s with seen := s.seen ++ [v] } := by
  have hmarked {n : RegName} {m : Marked} (h : readMarked n m s = .next t) :
      ∃ v, t = { s with seen := s.seen ++ [v] } := by
    unfold readMarked at h
    split at h
    · cases h
      exact ⟨_, rfl⟩
    · cases h
  cases x with
  | res | operand | iterReg => exact hmarked h
  | cmd | status | cfg | iterState | reserved =>
    cases h
    exact ⟨_, rfl⟩

/-! ### The register map (10_state R37) -/

theorem slotAt_main (p : Params) {k : Nat} (h : k < 32) : slotAt p (8 * k) = mainSlot k := by
  rw [slotAt, if_pos (by omega), Nat.mul_div_cancel_left _ (by decide)]

theorem mainSlot_reserved {k : Nat} (h : 10 ≤ k) : mainSlot k = .reserved := by
  obtain ⟨n, rfl⟩ := Nat.exists_eq_add_of_le' h
  rfl

theorem slotAt_context (p : Params) {i k : Nat} (hi : i < p.nIter) (hk : k < 8) :
    slotAt p (0x100 + 0x40 * i + 8 * k) = iterSlot (BitVec.ofNat 4 i) k := by
  have hdiv : (0x100 + 0x40 * i + 8 * k - 0x100) / 0x40 = i := by omega
  have hmod : (0x100 + 0x40 * i + 8 * k - 0x100) % 0x40 / 8 = k := by omega
  rw [slotAt, if_neg (by omega), hdiv, hmod, if_pos hi]

theorem slotAt_above (p : Params) {offset : Nat} (h : 0x100 + 0x40 * p.nIter ≤ offset) :
    slotAt p offset = .reserved := by
  rw [slotAt, if_neg (by omega), if_neg (by omega)]

/-! ### Commands -/

theorem decodeLegal_wf {p : Params} {w : Word32} {i : Instr} (h : decodeLegal p w = some i) : i.wf p = true := by
  unfold decodeLegal at h
  split at h
  · split at h
    · next hwf =>
      cases h
      exact hwf
    · cases h
  · cases h

theorem issue_of_legal {w : Word32} {i : Instr} (h : decodeLegal s.params w = some i) :
    issue w s = exec i { s with cmd := w } := by
  simp only [issue, h]

theorem issue_of_illegal {w : Word32} (h : decodeLegal s.params w = none) :
    issue w s = illegal { s with cmd := w } := by
  simp only [issue, h]

/-! ### Accesses to data memory -/

theorem inBlock_iff {a : Nat} : s.params.inBlock a = true ↔ RegisterMapped s a := by
  unfold Params.inBlock RegisterMapped
  cases s.params.engineBase with
  | none => simp
  | some base =>
    rw [Bool.and_eq_true, decide_eq_true_eq, decide_eq_true_eq]
    simp [Params.blockBytes]

theorem byteAccess_next {a : Nat} {k : Result} (h : byteAccess a s k = .next t) :
    a < s.params.space ∧ k = .next t := by
  unfold byteAccess at h
  split at h
  · cases h
  · next ha =>
    split at h
    · cases h
    · exact ⟨Nat.lt_of_not_le ha, h⟩

theorem byteAccess_of_unmapped {a : Nat} {k : Result} (ha : a < s.params.space) (hm : ¬ RegisterMapped s a) :
    byteAccess a s k = k := by
  rw [byteAccess, if_neg (by omega), if_neg (by rwa [inBlock_iff])]

/-- Touching a context, with the addresses of its buffer written out (10_state R34). -/
theorem touch_eq_ite (a : Nat) (x : IterCtx) :
    x.touch a = if x.itState = .positioned ∧ x.itStart.val.toNat ≤ a ∧ a < x.itEnd.val.toNat
      then { x with itInv := true } else x := by
  simp only [IterCtx.touch, IterCtx.covers, Bool.and_eq_true, decide_eq_true_eq]

end Sys2Proof.Machine
end

section
/-! Every step keeps the invariant: one lemma for each update of the state, one for each completion of a command. -/

namespace Sys2Proof.Machine

variable {s t : State}

/-! ### The updates of the state -/

/-- The invariant reads five fields only. -/
theorem inv_congr (h : Inv s) (hparams : t.params = s.params) (hmem : t.mem = s.mem) (hperm : t.perm = s.perm)
    (hstatus : t.status = s.status) (hiters : t.iters = s.iters) : Inv t := by
  have hctx (i : BitVec 4) : t.ctx i = s.ctx i := by simp only [State.ctx, hiters]
  refine ⟨?_, ?_, ?_, fun i => ?_, fun i hi => ?_⟩
  · simpa only [hparams, hmem] using h.mem
  · simpa only [hparams, hperm] using h.perm
  · simpa only [hstatus] using h.status
  · rw [hctx]
    exact ctxOk_congr hparams hmem (h.contexts i)
  · rw [hctx]
    exact h.absent i (hparams ▸ hi)

theorem inv_setRes (v : Word64) (h : Inv s) : Inv (s.setRes v) := inv_congr h rfl rfl rfl rfl rfl

theorem inv_setOp (r : OpReg) (v : Word64) (h : Inv s) : Inv (s.setOp r v) := by
  cases r <;> exact inv_congr h rfl rfl rfl rfl rfl

theorem inv_setStatus {v : Word64} (hv : statusLegal v) (h : Inv s) : Inv (s.setStatus v) :=
  ⟨h.mem, h.perm, hv, fun i => ctxOk_congr rfl rfl (h.contexts i), h.absent⟩

theorem inv_setCtx {it : BitVec 4} {x : IterCtx} (hit : it.toNat < s.params.nIter) (hx : CtxOk s x) (h : Inv s) :
    Inv (s.setCtx it x) := by
  refine ⟨h.mem, h.perm, h.status, fun j => ctxOk_congr rfl rfl ?_, fun j hj => ?_⟩
  · obtain rfl | hj := eq_or_ne j it
    · rwa [ctx_setCtx_same]
    · rw [ctx_setCtx_ne s x hj]
      exact h.contexts j
  · have hne : j ≠ it := by
      rintro rfl
      exact absurd hit (Nat.not_lt.2 hj)
    rw [ctx_setCtx_ne s x hne]
    exact h.absent j hj

/-- A context that does not exist holds no buffer. -/
theorem touch_reset (a : Nat) : IterCtx.reset.touch a = IterCtx.reset := if_neg (by simp [IterCtx.reset])

theorem inv_poke {a : Nat} (b : Byte) (ha : a < s.params.space) (h : Inv s) : Inv (s.poke a b) where
  mem := poke_wf s h.mem ha
  perm := h.perm
  status := h.status
  contexts i := by
    rw [ctx_poke]
    exact ctxOk_poke b (h.contexts i)
  absent i hi := by rw [ctx_poke, h.absent i hi, touch_reset]

theorem inv_pokes {ws : List Host.Cell} (hw : ∀ w ∈ ws, w.1 < s.params.space) (h : Inv s) : Inv (s.pokes ws) := by
  induction ws generalizing s with
  | nil => exact h
  | cons w ws ih =>
    rw [List.forall_mem_cons] at hw
    exact ih hw.2 (inv_poke w.2 hw.1 h)

theorem inv_setPerm {a : Nat} (p : Perm) (ha : a < s.params.space) (h : Inv s) : Inv (s.setPerm a p) where
  mem := by simpa using h.mem
  perm := by simpa using setPerm_wf s h.perm ha
  status := by simpa using h.status
  contexts i := by
    refine ctxOk_congr (setPerm_params s a p) (setPerm_mem s a p) ?_
    rw [ctx_setPerm]
    split
    · exact ctxOk_touch a (h.contexts i)
    · exact h.contexts i
  absent i hi := by
    rw [ctx_setPerm, h.absent i (by simpa using hi), touch_reset, ite_self]

/-! ### The commands -/

/-- The context of a legal iterator command exists (30_encoding R74). -/
theorem context_exists {p : Params} {i : Instr} (h : i.wf p = true) : i.context.toNat < p.nIter := by
  simp only [Instr.wf, Instr.contextOk, Bool.and_eq_true, decide_eq_true_eq] at h
  exact h.2

theorem statusLegal_statusErr (e : ErrCode) : statusLegal (statusErr e) := by
  cases e <;> decide

/-- A completion of a legal command keeps the invariant. -/
theorem inv_completion {i : Instr} (hwf : i.wf s.params = true) (h : Inv s) (hc : Completion i s t) : Inv t := by
  cases hc with
  | reported e => exact inv_setStatus (statusLegal_statusErr e) h
  | wrote ws r hw =>
    have hpokes : Inv (s.pokes ws) := inv_pokes (fun w hm => canWrite_lt s (hw w hm)) h
    exact inv_setStatus (by decide) (inv_congr hpokes rfl rfl rfl rfl rfl)
  | emptyScan c v it hi =>
    subst hi
    exact inv_setStatus (by decide) (inv_setCtx (context_exists hwf) (ctxOk_emptyScan v (use_lt s .addr)) h)
  | startScan c v it hi hlen hlimit hfit =>
    subst hi
    exact inv_setStatus (by decide) (inv_setCtx (context_exists hwf) (ctxOk_startScan v hlen hlimit hfit) h)
  | hit c it x hi hp hv hx =>
    subst hi
    obtain ⟨hxp, hxok⟩ := ctxOk_of_search_hit hp (h.contexts it) hx
    exact inv_setStatus (by decide) (inv_setRes _ (inv_setCtx (context_exists hwf) (ctxOk_takeHit hxp hxok) h))
  | dry c it x hi hp hv hx =>
    subst hi
    have hxok := ctxOk_of_search_dry hp hv (h.contexts it) hx
    exact inv_setStatus (by decide) (inv_setRes _ (inv_setCtx (context_exists hwf) hxok h))
  | exhausted => exact inv_setStatus (by decide) (inv_setRes _ h)

theorem inv_issue {w : Word32} (h : Inv s) (hn : issue w s = .next t) : Inv t := by
  have hcmd : Inv { s with cmd := w } := inv_congr h rfl rfl rfl rfl rfl
  cases hd : decodeLegal s.params w with
  | some i =>
    rw [issue_of_legal hd] at hn
    exact inv_completion (s := { s with cmd := w }) (decodeLegal_wf hd) hcmd (exec_completion hn)
  | none =>
    rw [issue_of_illegal hd] at hn
    rw [endError_next.1 hn]
    exact inv_setStatus (statusLegal_statusErr _) hcmd

/-! ### The host's actions -/

theorem inv_writeSlot {x : Slot} {v : Word64} (h : Inv s) (hn : writeSlot x v s = .next t) : Inv t := by
  cases x with
  | cmd => exact inv_issue h hn
  | operand r =>
    cases hn
    exact inv_setOp r v h
  | status | res | cfg | iterState | iterReg | reserved =>
    cases hn
    exact h

/-- The reset state meets the invariant, over any memory and admission in canonical form. -/
theorem inv_resetEngine (h : Inv s) : Inv (resetEngine s) := by
  have hctx (i : BitVec 4) : (resetEngine s).ctx i = IterCtx.reset := by
    simp [State.ctx, resetEngine, State.reset]
  refine ⟨h.mem, h.perm, .inl (Nat.zero_le 6), fun i => ?_, fun i _ => hctx i⟩
  rw [hctx]
  exact ctxOk_reset _

theorem inv_hostAct {act : HostAction} (h : Inv s) (hn : hostAct act s = .next t) : Inv t := by
  cases act with
  | regWrite offset bytes v => exact inv_writeSlot h (regAccess_next.1 hn).2
  | regRead offset bytes =>
    obtain ⟨v, rfl⟩ := readSlot_next (regAccess_next.1 hn).2
    exact inv_congr h rfl rfl rfl rfl rfl
  | memWrite a b =>
    obtain ⟨ha, hn⟩ := byteAccess_next hn
    cases hn
    exact inv_poke b ha h
  | memRead a =>
    obtain ⟨-, hn⟩ := byteAccess_next hn
    cases hn
    exact inv_congr h rfl rfl rfl rfl rfl
  | setAdmission a p =>
    obtain ⟨ha, hn⟩ := byteAccess_next hn
    cases hn
    exact inv_setPerm p ha h
  | resetInput =>
    cases hn
    exact inv_resetEngine h

/-- Settles O11: the idle engine holds its state, and each action of the host keeps the invariant. -/
theorem stepKeepsInv : Obligations.StepKeepsInv := by
  intro s t h hn
  obtain rfl | ⟨act, rest, hn⟩ := step_next hn
  · exact h
  · exact inv_hostAct (s := { s with pending := rest }) (inv_congr h rfl rfl rfl rfl rfl) hn

end Sys2Proof.Machine
end

section
/-! The host port: commands issued, register reads and writes, accesses to data memory (10_state R21 to R26, R34 to
R38), and the reset values (10_state R42). -/

namespace Sys2Proof.Machine

/-! ### CFG (10_state R26) -/

theorem cfgBit_eq (b : Bool) (k : Nat) : cfgBit b k = b.toNat * 2 ^ k := by cases b <;> simp [cfgBit]

/-- Every field of CFG fits its width, so that the fields do not overlap. -/
theorem cfgFields_fit (p : Params) : p.nIterLess1.toNat < 2 ^ 4 ∧ (p.addrW == .w64).toNat ≤ 1 ∧
    (p.wordW == .w64).toNat ≤ 1 ∧ (p.hostOrder == .be).toNat ≤ 1 ∧ p.copySlack.toNat ≤ 1 ∧
    (p.idxElem == .w64).toNat ≤ 1 ∧ p.checkedMode.toNat ≤ 1 :=
  ⟨p.nIterLess1.isLt, Bool.toNat_le _, Bool.toNat_le _, Bool.toNat_le _, Bool.toNat_le _, Bool.toNat_le _,
    Bool.toNat_le _⟩

/-- CFG as a sum of its fields. -/
theorem cfgWord_toNat (p : Params) : p.cfgWord.toNat =
    1 + (p.addrW == .w64).toNat * 2 ^ 8 + (p.wordW == .w64).toNat * 2 ^ 9 + (p.hostOrder == .be).toNat * 2 ^ 10 +
      p.copySlack.toNat * 2 ^ 11 + p.nIterLess1.toNat * 2 ^ 12 + (p.idxElem == .w64).toNat * 2 ^ 16 +
      p.checkedMode.toNat * 2 ^ 17 := by
  have hfields := cfgFields_fit p
  simp only [Params.cfgWord, cfgBit_eq, BitVec.toNat_ofNat]
  omega

/-- A one-bit field, from the number of the word. -/
theorem getLsbD_of_div_mod {w : Nat} {x : BitVec w} {k : Nat} {b : Bool} (h : x.toNat / 2 ^ k % 2 = b.toNat) :
    x.getLsbD k = b := by
  rw [BitVec.getLsbD, Nat.testBit_eq_decide_div_mod_eq, h]
  cases b <;> rfl

/-- Settles O25: each field by arithmetic on the sum. -/
theorem cfgReportsParameters : Obligations.CfgReportsParameters := by
  intro p
  have hsum := cfgWord_toNat p
  have hfields := cfgFields_fit p
  refine ⟨BitVec.eq_of_toNat_eq ?_, getLsbD_of_div_mod ?_, getLsbD_of_div_mod ?_, getLsbD_of_div_mod ?_,
    getLsbD_of_div_mod ?_, ?_, getLsbD_of_div_mod ?_, getLsbD_of_div_mod ?_, BitVec.eq_of_toNat_eq ?_⟩
  case refine_1 | refine_6 | refine_9 =>
    simp only [BitVec.extractLsb'_toNat, Nat.shiftRight_eq_div_pow, Params.nIter, BitVec.toNat_ofNat]
    omega
  all_goals omega

/-! ### Reset (10_state R42) -/

theorem ctx_reset (i : BitVec 4) : State.reset.ctx i = IterCtx.reset := by simp [State.ctx, State.reset]

/-- Settles O8. -/
theorem resetValuesAsListed : Obligations.ResetValuesAsListed := by
  refine ⟨⟨fun r => ?_, rfl, rfl, rfl, fun i => ?_, rfl⟩, rfl⟩
  · cases r <;> rfl
  · rw [ctx_reset]
    exact ⟨rfl, rfl, fun f => by cases f <;> rfl⟩

/-- Settles O10. -/
theorem resetMeetsInv : Obligations.ResetMeetsInv where
  mem := reset_mem_wf
  perm := by simp [State.reset, cellsWf]
  status := .inl (Nat.zero_le 6)
  contexts i := by
    rw [ctx_reset]
    exact ctxOk_reset _
  absent i _ := ctx_reset i

/-! ### Commands and faults -/

/-- Settles O6: offset 0 is CMD, and a legal word is issued. -/
theorem stepRunsDecodedCommand : Obligations.StepRunsDecodedCommand := by
  intro s v rest i hf hp hd
  rw [step_regWrite hf hp rfl]
  exact issue_of_legal (s := { s with pending := rest }) hd

/-- Settles O12: the state that records a fault answers that fault at its first step. -/
theorem faultIsQuiescent : Obligations.FaultIsQuiescent := by
  intro s f h
  have hlatch : (latch s (step s)).fault = some f := by rw [h]; rfl
  refine ⟨hlatch, fun n => ?_⟩
  have hstep : Sys2Proof.core.step (latch s (step s)) = .fault f := step_of_fault hlatch
  simp only [Host.Core.run, hstep]

/-! ### Data memory and admission -/

/-- A mark is taken away, as `setPerm` tests it and as the statements say it (log 7). -/
theorem withdraws_iff {old new : Perm} : (old.read && !new.read || old.write && !new.write) = true ↔
    old.read = true ∧ new.read = false ∨ old.write = true ∧ new.write = false := by
  simp

/-- What a change of admission makes of a context, in the words of the statements. -/
theorem ctx_setPerm_eq_ite (s : State) (a : Nat) (p : Perm) (i : BitVec 4) :
    (s.setPerm a p).ctx i =
      if ((s.permAt a).read = true ∧ p.read = false ∨ (s.permAt a).write = true ∧ p.write = false) ∧
          (s.ctx i).itState = .positioned ∧ (s.ctx i).itStart.val.toNat ≤ a ∧ a < (s.ctx i).itEnd.val.toNat
        then { s.ctx i with itInv := true } else s.ctx i := by
  simp only [ctx_setPerm, withdraws_iff, touch_eq_ite, ite_and]

/-- An admission change writes admission and the contexts only. -/
theorem setPerm_frame (s : State) (a : Nat) (p : Perm) :
    s.setPerm a p = { s with perm := (s.setPerm a p).perm, iters := (s.setPerm a p).iters } := by
  unfold State.setPerm
  dsimp only
  split <;> rfl

/-- Writing one byte, as a run of one write. -/
theorem poke_writesOnly (s : State) (a : Nat) (b : Byte) : WritesOnly [a] s (s.poke a b) := by
  refine ⟨rfl, fun x hx => peek_poke_ne s b (by simpa using hx), fun i => ?_⟩
  rw [show s.poke a b = s.pokes [(a, b)] from rfl, ctx_pokes]
  rfl

/-- Settles O19: a host write touches every context, and so does an admission change that takes a mark away. -/
theorem hostWriteInvalidatesScans : Obligations.HostWriteInvalidatesScans := by
  intro s t act rest a hf hp hact hn i
  rw [step_of_pending hf hp] at hn
  obtain ⟨b, rfl⟩ | ⟨p, rfl, hw⟩ := hact
  · obtain ⟨-, ht⟩ := byteAccess_next hn
    cases ht
    rw [ctx_poke, touch_eq_ite]
    rfl
  · obtain ⟨-, ht⟩ := byteAccess_next hn
    cases ht
    exact (ctx_setPerm_eq_ite _ a p i).trans (if_congr (and_iff_right hw) rfl rfl)

/-- Settles O20: an access to an existing, unmapped byte is the update it names. -/
theorem hostReachesMemory : Obligations.HostReachesMemory := by
  intro s a rest hf ha hm
  have hbyte (k : Result) : byteAccess a { s with pending := rest } k = k := byteAccess_of_unmapped ha hm
  refine ⟨fun b hp => ?_, fun hp => ?_, fun p hp => ?_⟩
  · rw [step_of_pending hf hp, hostAct, hbyte]
    exact ⟨_, rfl, peek_poke_same _ a b, poke_writesOnly _ a b, rfl, rfl⟩
  · rw [step_of_pending hf hp, hostAct, hbyte]
    rfl
  · rw [step_of_pending hf hp, hostAct, hbyte]
    refine ⟨_, rfl, ?_, fun x hx => ?_, setPerm_frame _ a p, fun i => ctx_setPerm_eq_ite _ a p i⟩
    · rw [permAt_setPerm, if_pos rfl]
    · rw [permAt_setPerm, if_neg hx]
      rfl

/-! ### Register reads and writes -/

/-- Settles O21: at each offset of the map stands the register named. -/
theorem markedRegisterReads : Obligations.MarkedRegisterReads := by
  intro s offset rest n m hf hp hreg
  have hread {x : Slot} (hx : slotAt s.params offset = x) (ho : offset % 8 = 0) :
      step s = readSlot x { s with pending := rest } := hx ▸ step_regRead hf hp ho
  obtain ⟨k, r, hkr, rfl, rfl, rfl⟩ | ⟨rfl, rfl, rfl⟩ | ⟨i, k, f, hi, hkf, rfl, rfl, rfl⟩ := hreg
  · have hk : k < 6 ∧ mainSlot (4 + k) = .operand r := by
      simp only [List.mem_cons, Prod.mk.injEq, List.not_mem_nil, or_false] at hkr
      obtain ⟨rfl, rfl⟩ | ⟨rfl, rfl⟩ | ⟨rfl, rfl⟩ | ⟨rfl, rfl⟩ | ⟨rfl, rfl⟩ | ⟨rfl, rfl⟩ := hkr <;> decide
    have hslot : slotAt s.params (0x020 + 8 * k) = .operand r := by
      rw [show 0x020 + 8 * k = 8 * (4 + k) by omega, slotAt_main _ (by omega), hk.2]
    rw [hread hslot (by omega)]
    cases r <;> rfl
  · exact hread (slotAt_main _ (k := 2) (by decide)) rfl
  · have hk : k < 8 ∧ iterSlot i k = .iterReg i f := by
      simp only [List.mem_cons, Prod.mk.injEq, List.not_mem_nil, or_false] at hkf
      obtain ⟨rfl, rfl⟩ | ⟨rfl, rfl⟩ | ⟨rfl, rfl⟩ | ⟨rfl, rfl⟩ | ⟨rfl, rfl⟩ | ⟨rfl, rfl⟩ := hkf <;>
        exact ⟨by decide, rfl⟩
    have hslot : slotAt s.params (0x100 + 0x40 * i.toNat + 8 * k) = .iterReg i f := by
      rw [slotAt_context _ hi hk.1, BitVec.ofNat_toNat, BitVec.setWidth_eq, hk.2]
    exact hread hslot (by omega)

/-- Settles O22: CMD, STATUS, CFG, IT_STATE and the three reserved ranges. -/
theorem unmarkedRegisterReads : Obligations.UnmarkedRegisterReads := by
  intro s offset rest v hf hp hreg
  have hread {x : Slot} (hx : slotAt s.params offset = x) (ho : offset % 8 = 0) :
      step s = readSlot x { s with pending := rest } := hx ▸ step_regRead hf hp ho
  obtain ⟨rfl, rfl⟩ | ⟨rfl, rfl⟩ | ⟨rfl, rfl⟩ | ⟨i, hi, rfl, rfl⟩ | ⟨ho, rfl, hres⟩ := hreg
  · exact hread (slotAt_main _ (k := 0) (by decide)) rfl
  · exact hread (slotAt_main _ (k := 1) (by decide)) rfl
  · exact hread (slotAt_main _ (k := 3) (by decide)) rfl
  · have hslot : slotAt s.params (0x100 + 0x40 * i.toNat) = .iterState i := by
      have := slotAt_context s.params (k := 0) hi (by decide)
      rwa [BitVec.ofNat_toNat, BitVec.setWidth_eq] at this
    rw [hread hslot (by omega)]
    change observe (s.ctx i).itState.code _ = _
    cases (s.ctx i).itState <;> rfl
  · have hslot : slotAt s.params offset = .reserved := by
      obtain ⟨hlo, hhi⟩ | ⟨i, hi, rfl⟩ | habove := hres
      · obtain ⟨k, rfl⟩ := Nat.dvd_of_mod_eq_zero ho
        rw [slotAt_main _ (by omega), mainSlot_reserved (by omega)]
      · exact slotAt_context _ (k := 7) hi (by decide)
      · exact slotAt_above _ habove
    exact hread hslot ho

/-- A host write of a slot below 0x100 other than CMD (10_state R37). -/
theorem writeSlot_main (s : State) (v : Word64) {k : Nat} (hk : 0 < k) :
    writeSlot (mainSlot k) v s = .next { s with
      addr := if 8 * k = 0x020 then ⟨v, true⟩ else s.addr
      src := if 8 * k = 0x028 then ⟨v, true⟩ else s.src
      pos := if 8 * k = 0x030 then ⟨v, true⟩ else s.pos
      spos := if 8 * k = 0x038 then ⟨v, true⟩ else s.spos
      len := if 8 * k = 0x040 then ⟨v, true⟩ else s.len
      val := if 8 * k = 0x048 then ⟨v, true⟩ else s.val } := by
  obtain hlow | hhigh := Nat.lt_or_ge k 10
  · interval_cases k <;> rfl
  · have hoff : 8 * k ≠ 0x020 ∧ 8 * k ≠ 0x028 ∧ 8 * k ≠ 0x030 ∧ 8 * k ≠ 0x038 ∧ 8 * k ≠ 0x040 ∧ 8 * k ≠ 0x048 := by
      omega
    simp only [mainSlot_reserved hhigh, writeSlot, hoff, if_false]

/-- A host write at or above 0x100 is ignored (10_state R37). -/
theorem writeSlot_above (s : State) (p : Params) (v : Word64) {offset : Nat} (h : 0x100 ≤ offset) :
    writeSlot (slotAt p offset) v s = .next s := by
  rw [slotAt, if_neg (by omega)]
  split
  · unfold iterSlot
    split <;> rfl
  · rfl

/-- Settles O23: below 0x100 by slot number, above it every write is ignored. -/
theorem registerWrites : Obligations.RegisterWrites := by
  intro s offset v rest hf hp ho hne
  rw [step_regWrite hf hp ho]
  obtain hlow | hhigh := Nat.lt_or_ge offset 0x100
  · obtain ⟨k, rfl⟩ := Nat.dvd_of_mod_eq_zero ho
    rw [slotAt_main _ (by omega)]
    exact writeSlot_main _ v (by omega)
  · have hoff : offset ≠ 0x020 ∧ offset ≠ 0x028 ∧ offset ≠ 0x030 ∧ offset ≠ 0x038 ∧ offset ≠ 0x040 ∧
        offset ≠ 0x048 := by omega
    simp only [writeSlot_above _ _ v hhigh, hoff, if_false]

/-- Settles O24: both accesses pass the same gate. -/
theorem narrowAccessRefused : Obligations.NarrowAccessRefused := by
  intro s act offset bytes v rest hf hp hact hbad
  have hgate (k : Result) : regAccess offset bytes k = .refused (.registerAccess offset bytes) :=
    if_neg (by omega)
  rw [step_of_pending hf hp]
  obtain rfl | rfl := hact <;> exact hgate _

end Sys2Proof.Machine
end

section
/-! Access sets (20_memory R51): a command run from two memories that agree on its read set. That no byte outside the
write set changes is the case of one memory twice. -/

namespace Sys2Proof.Machine

variable {s t u : State} {m : List Host.Cell} {c : Bool} {k k' : Result} {ws : List Nat}

/-- The same state over another memory. -/
def State.withMem (s : State) (m : List Host.Cell) : State := { s with mem := m }

@[simp] theorem withMem_params : (s.withMem m).params = s.params := rfl
@[simp] theorem withMem_use (r : OpReg) : (s.withMem m).use r = s.use r := by cases r <;> rfl
@[simp] theorem withMem_ctx (it : BitVec 4) : (s.withMem m).ctx it = s.ctx it := rfl
@[simp] theorem withMem_canRead : (s.withMem m).canRead = s.canRead := rfl

/-- The runs `r` from `s` and `r'` from `s` over the memory `m` have the outcome that R51 asks of a command with the
write set `ws`. A refusal is not among the cases: no command is refused. -/
inductive SameOutcome (ws : List Nat) (s : State) (m : List Host.Cell) : Result → Result → Prop where
  /-- Both end, with no other difference than memory. -/
  | next {t : State} {m' : List Host.Cell}
      (h : ∀ a, (t.withMem m').peek a = if t.status = 0 ∧ a ∈ ws then t.peek a else (s.withMem m).peek a) :
      SameOutcome ws s m (.next t) (.next (t.withMem m'))
  /-- Both stop with the same fault. -/
  | fault (f : Fault) : SameOutcome ws s m (.fault f) (.fault f)

/-! ### The checks see no memory -/

theorem statusErr_ne_zero (e : ErrCode) : statusErr e ≠ 0 := by cases e <;> decide

theorem SameOutcome.needs {rs : List OpReg} (h : SameOutcome ws s m k k') :
    SameOutcome ws s m (needs rs s k) (needs rs (s.withMem m) k') := by
  induction rs with
  | nil => exact h
  | cons r rs ih =>
    have hop : (s.withMem m).op r = s.op r := by cases r <;> rfl
    simp only [Machine.needs, hop]
    split
    · exact ih
    · exact .fault _

theorem SameOutcome.check {ok : Bool} {e : ErrCode} {f : Fault} (h : SameOutcome ws s m k k') :
    SameOutcome ws s m (check c s ok e f k) (check c (s.withMem m) ok e f k') := by
  unfold Machine.check
  split
  · exact h
  · split
    · exact .next (m' := m) fun a => (if_neg fun h => statusErr_ne_zero e h.1).symm
    · exact .fault f

theorem SameOutcome.inRange {limit : Nat} (h : SameOutcome ws s m k k') :
    SameOutcome ws s m (inRange c s limit k) (inRange c (s.withMem m) limit k') := h.check

theorem SameOutcome.admitted {bad : Option Int} (h : SameOutcome ws s m k k') :
    SameOutcome ws s m (admitted bad s k) (admitted bad (s.withMem m) k') := by
  cases bad with
  | none => exact h
  | some a => exact .fault _

/-- A choice that both runs make alike. -/
theorem SameOutcome.ite {p : Prop} [Decidable p] {r r' : Result} (hr : p → SameOutcome ws s m r r')
    (hk : ¬ p → SameOutcome ws s m k k') : SameOutcome ws s m (if p then r else k) (if p then r' else k') := by
  split
  · next hp => exact hr hp
  · next hp => exact hk hp

theorem SameOutcome.scalarAccess {rs : List OpReg} {ok : Nat → Bool} {n : Nat} (h : SameOutcome ws s m k k') :
    SameOutcome ws s m (scalarAccess rs ok n c s k) (scalarAccess rs ok n c (s.withMem m) k') :=
  h.admitted.inRange.needs

theorem SameOutcome.bitAccess {ok : Nat → Bool} (h : SameOutcome ws s m k k') :
    SameOutcome ws s m (bitAccess ok c s k) (bitAccess ok c (s.withMem m) k') :=
  h.admitted.inRange.needs

theorem SameOutcome.rangeAccess {b p n : Nat} (h : SameOutcome ws s m k k') :
    SameOutcome ws s m (rangeAccess b p n c s k) (rangeAccess b p n c (s.withMem m) k') :=
  h.inRange.inRange

/-! ### How the runs end -/

/-- A command without a write set leaves each memory as it was. -/
theorem sameOutcome_memKept : SameOutcome [] s m (.next t) (.next (t.withMem m)) :=
  .next fun _ => (if_neg fun h => List.not_mem_nil h.2).symm

/-- After the same writes, a byte they name is the same, and any other byte is where it was so before. -/
theorem peek_pokes_congr {cells : List Host.Cell} {a : Nat} (h : a ∈ cells.map Prod.fst ∨ s.peek a = t.peek a) :
    (s.pokes cells).peek a = (t.pokes cells).peek a := by
  induction cells generalizing s t with
  | nil => simpa using h
  | cons w cells ih =>
    refine ih ?_
    by_cases ha : a = w.1
    · simp [ha]
    · simpa [peek_poke, ha] using h

/-- A byte after the same writes over two memories. -/
theorem peek_pokes_withMem (s : State) (m cells : List Host.Cell) (a : Nat) :
    ((s.withMem m).pokes cells).peek a =
      if a ∈ cells.map Prod.fst then (s.pokes cells).peek a else (s.withMem m).peek a := by
  split
  · next h => exact peek_pokes_congr (.inl h)
  · next h => exact peek_pokes_of_notMem _ h

theorem pokes_withMem (s : State) (m cells : List Host.Cell) :
    (s.withMem m).pokes cells = (s.pokes cells).withMem ((s.withMem m).pokes cells).mem := by
  induction cells generalizing s m with
  | nil => rfl
  | cons w cells ih => exact ih (s.poke w.1 w.2) ((s.withMem m).poke w.1 w.2).mem

/-- A command that writes the same bytes over either memory, at the addresses of its write set. -/
theorem sameOutcome_pokes (cells : List Host.Cell) (hws : cells.map Prod.fst = ws) :
    SameOutcome ws s m (finish (s.pokes cells)) (finish ((s.withMem m).pokes cells)) := by
  have hpeek := peek_pokes_withMem s m cells
  rw [pokes_withMem, hws] at hpeek
  rw [pokes_withMem]
  exact .next fun a => (hpeek a).trans (if_congr (and_iff_right rfl).symm rfl rfl)

/-- The runs may put the same value into RES. -/
theorem SameOutcome.setRes (v : Word64) (h : SameOutcome ws s m (finish t) (finish u)) :
    SameOutcome ws s m (finish (t.setRes v)) (finish (u.setRes v)) := by
  unfold finish at h
  generalize hu : u.setStatus statusOk = u' at h
  cases h with
  | next hpeek =>
    rw [show finish (u.setRes v) = .next ((u.setStatus statusOk).setRes v) from rfl, hu]
    exact .next hpeek

/-! ### What a command computes from its read set -/

/-- Memory `m` holds the bytes of `s` at the addresses `as`. -/
abbrev AgreeOn (as : List Nat) (s : State) (m : List Host.Cell) : Prop := ∀ a ∈ as, (s.withMem m).peek a = s.peek a

theorem loadValue_withMem {o : ByteOrder} {a n : Nat} (h : AgreeOn (accessAddrs a n) s m) :
    (s.withMem m).loadValue o a n = s.loadValue o a n := by
  have hbytes : (s.withMem m).bytesAt a n = s.bytesAt a n :=
    List.map_congr_left fun k hk => h (a + k) (mem_accessAddrs.2 (by rw [List.mem_range] at hk; omega))
  rw [State.loadValue, hbytes, State.loadValue]

theorem bitAt_withMem {b p : Nat} (h : (s.withMem m).peek (b + p / 8) = s.peek (b + p / 8)) :
    (s.withMem m).bitAt b p = s.bitAt b p := by
  rw [State.bitAt, h, State.bitAt]

/-- A bit of a range lies in the range's span. -/
theorem bitAt_withMem_of_span {b p n q : Nat} (h : AgreeOn (spanAddrs b p n) s m) (hp : p ≤ q) (hq : q < p + n) :
    (s.withMem m).bitAt b q = s.bitAt b q :=
  bitAt_withMem (h _ (mem_spanAddrs.2 (by omega)))

theorem countBits_withMem {b p n : Nat} (h : AgreeOn (spanAddrs b p n) s m) :
    (s.withMem m).countBits b p n = s.countBits b p n :=
  List.countP_congr fun i hi => by
    rw [List.mem_range] at hi
    rw [bitAt_withMem_of_span h (by omega) (by omega)]

/-- A span byte whose old bits are kept is one of the partial bytes. -/
theorem mergeByte_withMem {b p n k : Nat} (new : Byte) (h : AgreeOn (partialAddrs b p n) s m)
    (hk : k ∈ spanOffsets p n) :
    mergeByte (rangeMask p n k) ((s.withMem m).peek (b + k)) new =
      mergeByte (rangeMask p n k) (s.peek (b + k)) new := by
  by_cases hmask : rangeMask p n k = 0xFF
  · simp only [mergeByte, hmask, if_true]
  · have hmem : b + k ∈ partialAddrs b p n :=
      List.mem_filter.2 ⟨List.mem_map_of_mem hk, by simpa using hmask⟩
    rw [h _ hmem]

theorem fillCells_withMem {v : Bool} (h : AgreeOn (partialAddrs (s.use .addr) (s.use .pos) (s.use .len)) s m) :
    fillCells v (s.withMem m) = fillCells v s :=
  List.map_congr_left fun _ hk => congrArg (Prod.mk _) (mergeByte_withMem _ h hk)

theorem copyByte_withMem (h : AgreeOn (spanAddrs (s.use .src) (s.use .spos) (s.use .len)) s m) (k : Nat) :
    copyByte (s.withMem m) k = copyByte s k := by
  refine congrArg byteOfBits (funext fun j => ?_)
  simp only [withMem_use]
  cases hj : inBitRange (s.use .pos) (s.use .len) (8 * k + j) with
  | false => rfl
  | true =>
    obtain ⟨hlo, hhi⟩ := inBitRange_iff.1 hj
    rw [bitAt_withMem_of_span h (by omega) (by omega)]

theorem copyCells_withMem (hsrc : AgreeOn (spanAddrs (s.use .src) (s.use .spos) (s.use .len)) s m)
    (hdst : AgreeOn (partialAddrs (s.use .addr) (s.use .pos) (s.use .len)) s m) :
    copyCells (s.withMem m) = copyCells s := by
  refine List.map_congr_left fun k hk => congrArg (Prod.mk _) ?_
  rw [copyByte_withMem hsrc]
  exact mergeByte_withMem _ hdst hk

theorem searchWords_withMem {n a : Nat} {x : IterCtx} (h : AgreeOn (accessAddrs a (s.params.wb * n)) s m) :
    searchWords (s.withMem m) n a x = searchWords s n a x := by
  induction n generalizing a x with
  | zero => rfl
  | succ n ih =>
    have hfirst : AgreeOn (accessAddrs a s.params.wb) s m := fun e he =>
      h e (mem_accessAddrs.2 (by rw [mem_accessAddrs] at he; rw [Nat.mul_succ]; omega))
    have hrest : AgreeOn (accessAddrs (a + s.params.wb) (s.params.wb * n)) s m := fun e he =>
      h e (mem_accessAddrs.2 (by rw [mem_accessAddrs] at he; rw [Nat.mul_succ]; omega))
    have hload : loadWord (s.withMem m) a x = loadWord s a x := by
      simp only [loadWord, withMem_params, loadValue_withMem hfirst]
    simp only [searchWords, withMem_params, withMem_canRead, hload, ih hrest]

theorem search_withMem {x : IterCtx} (h : AgreeOn (accessAddrs x.itNext.val.toNat
      (s.params.wb * wordsLeft s.params x.itNext.val.toNat x.itEnd.val.toNat)) s m) :
    search (s.withMem m) x = search s x := by
  simp only [search, withMem_params, searchWords_withMem h]

/-! ### The commands, family by family -/

theorem loadScalar_sameOutcome {n : Nat} (h : AgreeOn (accessAddrs (s.use .addr) n) s m) :
    SameOutcome [] s m (loadScalar n c s) (loadScalar n c (s.withMem m)) := by
  refine SameOutcome.scalarAccess ?_
  rw [withMem_use, loadValue_withMem h]
  exact sameOutcome_memKept

theorem storeScalar_sameOutcome (n v : Nat) :
    SameOutcome (accessAddrs (s.use .addr) n) s m (storeScalar n v c s) (storeScalar n v c (s.withMem m)) :=
  (sameOutcome_pokes _ (storeCells_addrs ..)).scalarAccess

theorem ldbool_sameOutcome (h : AgreeOn (accessAddrs (s.use .addr) 1) s m) :
    SameOutcome [] s m (execLdbool c s) (execLdbool c (s.withMem m)) := by
  refine SameOutcome.scalarAccess ?_
  rw [withMem_use, h _ (by simp)]
  exact sameOutcome_memKept.check

theorem bitResult_withMem (h : AgreeOn [bitAddr s] s m) : bitResult (s.withMem m) = bitResult s :=
  congrArg (fun b => (BitVec.ofBool b).setWidth 64) (bitAt_withMem (h _ (List.mem_singleton_self _)))

theorem btst_sameOutcome (h : AgreeOn [bitAddr s] s m) :
    SameOutcome [] s m (execBtst c s) (execBtst c (s.withMem m)) := by
  refine SameOutcome.bitAccess ?_
  rw [bitResult_withMem h]
  exact sameOutcome_memKept

/-- BSET and BCLR differ only in what they make of the byte. -/
theorem bitUpdate_sameOutcome (f : Byte → Byte) (h : AgreeOn [bitAddr s] s m) :
    SameOutcome [bitAddr s] s m
      (bitAccess s.canUpdate c s <|
        finish ((s.poke (bitAddr s) (f (s.peek (bitAddr s)))).setRes (bitResult s)))
      (bitAccess s.canUpdate c (s.withMem m) <|
        finish (((s.withMem m).poke (bitAddr s) (f ((s.withMem m).peek (bitAddr s)))).setRes
          (bitResult (s.withMem m)))) := by
  rw [bitResult_withMem h, h _ (List.mem_singleton_self _)]
  exact ((sameOutcome_pokes [(bitAddr s, f (s.peek (bitAddr s)))] rfl).setRes _).bitAccess

theorem bmsize_sameOutcome : SameOutcome [] s m (execBmsize c s) (execBmsize c (s.withMem m)) :=
  sameOutcome_memKept.inRange.needs

/-- A fill or a copy of no bits completes without an access, and its destination span is empty (43 R153, 44 R166). -/
theorem sameOutcome_emptySpan {b p n : Nat} (h : n = 0) :
    SameOutcome (spanAddrs b p n) s m (finish s) (finish (s.withMem m)) := by
  rw [spanAddrs, spanOffsets, if_pos h]
  exact sameOutcome_memKept

theorem bfill_sameOutcome {v : Bool} (h : AgreeOn (partialAddrs (s.use .addr) (s.use .pos) (s.use .len)) s m) :
    SameOutcome (spanAddrs (s.use .addr) (s.use .pos) (s.use .len)) s m (execBfill c v s)
      (execBfill c v (s.withMem m)) := by
  rw [execBfill, execBfill, fillCells_withMem h]
  exact (SameOutcome.ite sameOutcome_emptySpan
    fun _ => (sameOutcome_pokes _ (fillCells_addrs v s)).admitted.rangeAccess).needs

theorem bcopy_sameOutcome (hsrc : AgreeOn (spanAddrs (s.use .src) (s.use .spos) (s.use .len)) s m)
    (hdst : AgreeOn (partialAddrs (s.use .addr) (s.use .pos) (s.use .len)) s m) :
    SameOutcome (spanAddrs (s.use .addr) (s.use .pos) (s.use .len)) s m (execBcopy c s)
      (execBcopy c (s.withMem m)) := by
  rw [execBcopy, execBcopy, copyCells_withMem hsrc hdst]
  exact (SameOutcome.ite sameOutcome_emptySpan
    fun _ => (sameOutcome_pokes _ (copyCells_addrs s)).admitted.check.inRange.inRange.inRange.inRange).needs

theorem zeroDetect_sameOutcome {w n : Nat} {x : BitVec w} :
    SameOutcome [] s m (zeroDetect x n c s) (zeroDetect x n c (s.withMem m)) :=
  sameOutcome_memKept.check.needs

theorem bcount_sameOutcome (h : AgreeOn (spanAddrs (s.use .addr) (s.use .pos) (s.use .len)) s m) :
    SameOutcome [] s m (execBcount c s) (execBcount c (s.withMem m)) := by
  refine SameOutcome.needs (SameOutcome.ite (fun _ => sameOutcome_memKept)
    fun _ => SameOutcome.rangeAccess (SameOutcome.admitted ?_))
  exact countBits_withMem h ▸ sameOutcome_memKept

theorem bitIndex_sameOutcome (js : List Nat) :
    SameOutcome (accessAddrs (s.use .addr) (idxBytes s * js.length)) s m (bitIndex js c s)
      (bitIndex js c (s.withMem m)) :=
  ((sameOutcome_pokes _ (idxCells_addrs js s)).setRes _).admitted.inRange.needs

theorem itinit_sameOutcome {v : Bool} {it : BitVec 4} (h : AgreeOn (readSet (.itinit c v it) s) s m) :
    SameOutcome [] s m (execItinit c v it s) (execItinit c v it (s.withMem m)) := by
  refine SameOutcome.needs (SameOutcome.check (SameOutcome.inRange
    (SameOutcome.ite (fun _ => sameOutcome_memKept) fun hlen => SameOutcome.admitted ?_)))
  rw [readSet, if_neg hlen] at h
  have hscan : startScan (s.withMem m) (s.use .addr) (s.use .len) v = startScan s (s.use .addr) (s.use .len) v := by
    simp only [startScan, firstWord, withMem_params, loadValue_withMem h]
  exact hscan ▸ sameOutcome_memKept

theorem nextHit_sameOutcome {it : BitVec 4} (h : AgreeOn (readSet (.itnext c it) s) s m) :
    SameOutcome [] s m (nextHit c it s) (nextHit c it (s.withMem m)) := by
  refine SameOutcome.ite (fun _ => sameOutcome_memKept) fun _ => ?_
  simp only [withMem_ctx, search_withMem h]
  cases search s (s.ctx it) with
  | hit x => exact sameOutcome_memKept
  | dry x => exact sameOutcome_memKept
  | outside => exact sameOutcome_memKept.inRange
  | blocked a => exact .fault _

theorem itnext_sameOutcome {it : BitVec 4} (h : AgreeOn (readSet (.itnext c it) s) s m) :
    SameOutcome [] s m (execItnext c it s) (execItnext c it (s.withMem m)) :=
  SameOutcome.check (SameOutcome.ite (fun _ => .fault _) fun _ => nextHit_sameOutcome h)

/-- Every command, run from two memories that agree on its read set. -/
theorem exec_sameOutcome (i : Instr) (h : AgreeOn (readSet i s) s m) :
    SameOutcome (writeSet i s) s m (exec i s) (exec i (s.withMem m)) := by
  cases i with
  | ld8 c | ld16 c | ld32 c | ld64 c | ldf32 c | ldf64 c => exact loadScalar_sameOutcome h
  | ldbool c => exact ldbool_sameOutcome h
  | st8 c | st16 c | st32 c | st64 c | stf32 c | stf64 c | stbool c => exact storeScalar_sameOutcome _ _
  | btst c => exact btst_sameOutcome h
  | bset c => exact bitUpdate_sameOutcome (· ||| bitMask s) h
  | bclr c => exact bitUpdate_sameOutcome (· &&& ~~~bitMask s) h
  | bmsize c => exact bmsize_sameOutcome
  | bfill c v => exact bfill_sameOutcome h
  | bcopy c =>
    obtain ⟨hsrc, hdst⟩ := List.forall_mem_append.1 h
    exact bcopy_sameOutcome hsrc hdst
  | ctz32 c | ctz64 c | clz32 c | clz64 c => exact zeroDetect_sameOutcome
  | popc32 c | popc64 c => exact sameOutcome_memKept.needs
  | bcount c => exact bcount_sameOutcome h
  | bidx32 c | bidx64 c =>
    rw [writeSet, ← setBits_length]
    exact bitIndex_sameOutcome _
  | itinit c v it => exact itinit_sameOutcome h
  | itnext c it => exact itnext_sameOutcome h

/-- The bytes after two runs that both answer a next state. -/
theorem SameOutcome.peek_eq (h : SameOutcome ws s m (.next t) (.next u)) (a : Nat) :
    u.peek a = if t.status = 0 ∧ a ∈ ws then t.peek a else (s.withMem m).peek a := by
  cases h with
  | next hpeek => exact hpeek a

/-- Settles O18: the two runs have the same outcome. -/
theorem readsStayInAccessSet : Obligations.ReadsStayInAccessSet := by
  intro i s m h
  have hrun : SameOutcome (writeSet i s) s m (exec i s) (exec i { s with mem := m }) := exec_sameOutcome i h
  generalize exec i s = r, exec i { s with mem := m } = r' at hrun ⊢
  cases hrun with
  | next hpeek => exact ⟨_, rfl, hpeek⟩
  | fault f => rfl

/-- Settles O17: two runs from one memory are the same run, so a byte outside the write set is that memory's. -/
theorem writesStayInAccessSet : Obligations.WritesStayInAccessSet := by
  intro i s t a hnext ha
  have hrun : SameOutcome (writeSet i s) s s.mem (exec i s) (exec i s) := exec_sameOutcome i fun _ _ => rfl
  rw [hnext] at hrun
  exact (hrun.peek_eq a).trans (if_neg fun h => ha h.2)

end Sys2Proof.Machine
end

section
/-! What the engine may access, and where a load or a store stops (20_memory R50, R52; 41_unaligned_access R101). -/

namespace Sys2Proof.Machine

variable {s : State} {c : Bool} {k : Result}

/-- The admission mark that a store, or a load, asks for (20_memory R52). -/
abbrev State.mark (s : State) (isStore : Bool) (a : Nat) : Bool :=
  if isStore then (s.permAt a).write else (s.permAt a).read

/-- The operand registers that a store, or a load, reads (41 R101). -/
def scalarOperands (isStore : Bool) : List OpReg := if isStore then [.addr, .val] else [.addr]

/-- The bytes that a store, or a load, may access. -/
def State.canAccess (s : State) (isStore : Bool) : Nat → Bool := if isStore then s.canWrite else s.canRead

theorem canRead_iff {a : Nat} :
    s.canRead a = true ↔ a < s.params.space ∧ ¬ RegisterMapped s a ∧ (s.permAt a).read = true := by
  simp only [State.canRead, Bool.and_eq_true, decide_eq_true_eq, Bool.not_eq_true', ← inBlock_iff, Bool.not_eq_true,
    and_assoc]

theorem canWrite_iff {a : Nat} :
    s.canWrite a = true ↔ a < s.params.space ∧ ¬ RegisterMapped s a ∧ (s.permAt a).write = true := by
  simp only [State.canWrite, Bool.and_eq_true, decide_eq_true_eq, Bool.not_eq_true', ← inBlock_iff, Bool.not_eq_true,
    and_assoc]

theorem canAccess_iff {isStore : Bool} {a : Nat} :
    s.canAccess isStore a = true ↔ a < s.params.space ∧ ¬ RegisterMapped s a ∧ s.mark isStore a = true := by
  cases isStore with
  | false => exact canRead_iff
  | true => exact canWrite_iff

/-- A command faults on the first operand register that has not been written. -/
theorem needs_of_unwritten {r : OpReg} {rs : List OpReg} (h : (s.op r).written = false) :
    needs (r :: rs) s k = .fault (.unwritten r s.cmd) := by
  simp [needs, h]

theorem needs_cons_of_written {r : OpReg} {rs : List OpReg} (h : (s.op r).written = true) :
    needs (r :: rs) s k = needs rs s k := if_pos h

/-- A range past the top of the address space stops a command as 60_exceptions R237 says. -/
theorem inRange_eq_rangeStop {limit : Nat} (h : s.params.space < limit) : inRange c s limit k = rangeStop c s :=
  inRange_of_lt h

theorem scalarOperands_written {isStore : Bool} (ha : s.addr.written = true)
    (hv : isStore = true → s.val.written = true) : ∀ r ∈ scalarOperands isStore, (s.op r).written = true := by
  cases isStore with
  | false => simpa [scalarOperands, State.op] using ha
  | true => simpa [scalarOperands, State.op] using ⟨ha, hv rfl⟩

/-- Settles O32: every load and every store begins with the checks of `scalarAccess`. -/
theorem scalarAccessStops : Obligations.ScalarAccessStops := by
  refine ⟨fun s a => ⟨canRead_iff, canWrite_iff⟩, fun i n isStore hmem c s => ?_⟩
  obtain ⟨k, hexec⟩ : ∃ k, exec (i c) s =
      scalarAccess (scalarOperands isStore) (s.canAccess isStore) n c s k := by
    simp only [List.mem_cons, Prod.mk.injEq, List.not_mem_nil, or_false] at hmem
    obtain ⟨rfl, rfl, rfl⟩ | ⟨rfl, rfl, rfl⟩ | ⟨rfl, rfl, rfl⟩ | ⟨rfl, rfl, rfl⟩ | ⟨rfl, rfl, rfl⟩ |
      ⟨rfl, rfl, rfl⟩ | ⟨rfl, rfl, rfl⟩ | ⟨rfl, rfl, rfl⟩ | ⟨rfl, rfl, rfl⟩ | ⟨rfl, rfl, rfl⟩ |
      ⟨rfl, rfl, rfl⟩ | ⟨rfl, rfl, rfl⟩ | ⟨rfl, rfl, rfl⟩ | ⟨rfl, rfl, rfl⟩ := hmem <;> exact ⟨_, rfl⟩
  rw [hexec, scalarAccess]
  refine ⟨fun ha => ?_, fun ha hs hv => ?_, fun ha hv => ?_⟩
  · cases isStore <;> exact needs_of_unwritten ha
  · subst hs
    exact (needs_cons_of_written (r := .addr) ha).trans (needs_of_unwritten hv)
  · rw [needs_of_written (scalarOperands_written ha hv)]
    refine ⟨inRange_eq_rangeStop, fun hfit k hk hgood hbad => ?_⟩
    have hbefore : ∀ j < k, s.canAccess isStore (s.use .addr + j) = true := fun j hj =>
      canAccess_iff.2 ⟨by omega, hgood j hj⟩
    have hstop : s.canAccess isStore (s.use .addr + k) = false := by
      rw [← Bool.not_eq_true, canAccess_iff]
      rintro ⟨-, hmapped, hmark⟩
      exact hbad.elim hmapped (Bool.eq_false_iff.1 · hmark)
    rw [inRange_of_le hfit, firstBad_accessAddrs hk hbefore hstop, admitted_some]

end Sys2Proof.Machine
end

section
/-! The command words: decoder and encoder are inverse to each other, the decoder is the opcode table, and the words
without a command are those of the spec's list (30_encoding R70 to R78, R81, R82). -/

namespace Sys2Proof.Machine

open Sys2Proof.Laws.EncodedFields (packFields_bit packFields_fields)

variable {p : Params} {w : Word32} {i : Instr}

/-! ### Decoder and encoder (30_encoding R70, R76) -/

/-- A bit of a field, counted from the start of the word. -/
theorem getLsbD_field {n a len j : Nat} {x : BitVec n} (ha : a ≤ j) (hj : j < a + len) :
    (x.extractLsb' a len).getLsbD (j - a) = x.getLsbD j := by
  rw [BitVec.getLsbD_extractLsb', Nat.add_sub_cancel' ha, decide_eq_true (by omega), Bool.true_and]

/-- A word whose reserved bits are 0 is packed from its own fields. -/
theorem packFields_of_fields (h : reservedZero w = true) :
    packFields (fieldOpc w) (fieldC w) (fieldV w) (fieldIt w) = w := by
  simp only [reservedZero, Bool.and_eq_true, beq_iff_eq] at h
  obtain ⟨hlow, hhigh⟩ := h
  refine BitVec.eq_of_getLsbD_eq fun j hj => ?_
  rw [packFields_bit]
  split_ifs with h8 hc hv h12 h16
  · exact getLsbD_field (a := 0) (Nat.zero_le j) (by omega)
  · rw [hc, fieldC]
  · rw [hv, fieldV]
  · rw [← getLsbD_field (a := 10) (len := 2) (by omega) (by omega), hlow, BitVec.getLsbD_zero]
  · exact getLsbD_field (by omega) (by omega)
  · rw [← getLsbD_field (a := 16) (len := 16) (by omega) (by omega), hhigh, BitVec.getLsbD_zero]

/-- A row whose only free field is `c` gives the command of its opcode, whose other fields are 0. -/
theorem plainCommand_fields {n : Nat} {c : Bool} (h : plainCommand n c = some i) :
    i.opc.toNat = n ∧ i.checked = c ∧ i.valueBit = false ∧ i.context = 0 := by
  unfold plainCommand at h
  split at h <;> cases h <;> exact ⟨rfl, rfl, rfl, rfl⟩

/-- The decoder answers exactly the command that has the fields it is given. -/
theorem decodeFields_eq_ok_iff {n : Nat} {c v : Bool} {it : BitVec 4} :
    decodeFields n c v it = .ok i ↔ i.opc.toNat = n ∧ i.checked = c ∧ i.valueBit = v ∧ i.context = it := by
  constructor
  · intro h
    unfold decodeFields at h
    split at h
    · cases h
      exact ⟨rfl, rfl, rfl, rfl⟩
    · split_ifs at h with hv
      cases h
      exact ⟨rfl, rfl, (Bool.eq_false_iff.2 hv).symm, rfl⟩
    · split_ifs at h with hit
      cases h
      exact ⟨rfl, rfl, rfl, hit.symm⟩
    · split at h
      · cases h
      · next hplain =>
        split_ifs at h with hv hit
        cases h
        obtain ⟨hopc, hc, hv0, hit0⟩ := plainCommand_fields hplain
        exact ⟨hopc, hc, hv0.trans (Bool.eq_false_iff.2 hv).symm, hit0.trans hit.symm⟩
  · rintro ⟨rfl, rfl, rfl, rfl⟩
    cases i <;> rfl

/-- A word decodes to a command when its reserved bits are 0 and its fields are those of the command. -/
theorem decode_eq_ok_iff_fields : decode w = .ok i ↔
    reservedZero w = true ∧ fieldOpc w = i.opc ∧ fieldC w = i.checked ∧ fieldV w = i.valueBit ∧
      fieldIt w = i.context := by
  unfold decode
  split
  · next hr =>
    rw [decodeFields_eq_ok_iff, BitVec.toNat_inj]
    exact ⟨fun ⟨ho, hc, hv, hit⟩ => ⟨hr, ho.symm, hc.symm, hv.symm, hit.symm⟩,
      fun ⟨_, ho, hc, hv, hit⟩ => ⟨ho.symm, hc.symm, hv.symm, hit.symm⟩⟩
  · next hr => exact ⟨nofun, fun ⟨h, _⟩ => absurd h hr⟩

/-- The words that decode are the words of the commands, each of its own command only. -/
theorem decode_eq_ok_iff : decode w = .ok i ↔ encode i = w := by
  rw [decode_eq_ok_iff_fields]
  constructor
  · rintro ⟨hr, ho, hc, hv, hit⟩
    rw [encode, ← ho, ← hc, ← hv, ← hit, packFields_of_fields hr]
  · rintro rfl
    exact packFields_fields _ _ _ _

/-- Settles O1: the fields of a packed word are those it was packed from, and the decoder reads them back. -/
theorem decodeOfEncode : Obligations.DecodeOfEncode := fun _ => decode_eq_ok_iff.2 rfl

/-- Settles O2: a word that decodes has its reserved bits 0, so it is packed from its fields. -/
theorem encodeOfDecode : Obligations.EncodeOfDecode := fun _ _ => decode_eq_ok_iff.1

/-- Settles O7: each word printed is the encoding of the command named for it. -/
theorem printedWordsDecode : Obligations.PrintedWordsDecode :=
  ⟨decodeOfEncode (.ld32 false), decodeOfEncode (.ld32 true), decodeOfEncode (.bfill false false),
    decodeOfEncode (.bfill false true), decodeOfEncode (.bfill true true), decodeOfEncode (.itinit false false 2),
    decodeOfEncode (.itinit false true 0), decodeOfEncode (.itnext true 3)⟩

/-! ### The opcode table (30_encoding R76) -/

/-- A row of `opcodeRows`. -/
abbrev OpcodeRow := Word32 × Word32 × (Bool → Bool → BitVec 4 → Instr)

/-- The opcode of a row's command. -/
def OpcodeRow.opc (row : OpcodeRow) : BitVec 8 := (row.2.2 false false 0).opc

/-- Whether a row leaves `v` free. -/
def OpcodeRow.freeV (row : OpcodeRow) : Bool := (row.2.2 false true 0).valueBit

/-- Whether a row leaves `it` free. -/
def OpcodeRow.freeIt (row : OpcodeRow) : Bool := (row.2.2 false false 1).context == 1

variable {row : OpcodeRow}

/-- The match value of a row holds the opcode of its command. -/
theorem opcodeRows_match (h : row ∈ opcodeRows) : row.1 = packFields row.opc false false 0 := by
  fin_cases h <;> rfl

/-- The mask of a row leaves out the free fields. -/
theorem opcodeRows_mask (h : row ∈ opcodeRows) :
    row.2.1 = ~~~ packFields 0 true row.freeV (if row.freeIt then BitVec.allOnes 4 else 0) := by
  fin_cases h <;> rfl

/-- The command of a row takes the free fields, and its other fields are 0. -/
theorem encode_opcodeRows (h : row ∈ opcodeRows) (c v : Bool) (it : BitVec 4) :
    encode (row.2.2 c v it) = packFields row.opc c (row.freeV && v) (if row.freeIt then it else 0) := by
  fin_cases h <;> rfl

/-- Every command is that of a row. -/
theorem exists_opcodeRow (i : Instr) : ∃ row ∈ opcodeRows, row.2.2 i.checked i.valueBit i.context = i := by
  have hmem : i ∈ opcodeRows.map fun row => row.2.2 i.checked i.valueBit i.context := by
    cases i <;> simp only [opcodeRows, List.cons_append, List.nil_append, List.map_cons, List.mem_cons,
      Instr.checked, Instr.valueBit, Instr.context, true_or, or_true]
  exact List.mem_map.1 hmem

/-- A word is an opcode outside the free fields exactly when it is packed from the opcode and its own free fields. -/
theorem and_mask_eq_iff {opc : BitVec 8} {fv fit : Bool} :
    w &&& ~~~ packFields 0 true fv (if fit then BitVec.allOnes 4 else 0) = packFields opc false false 0 ↔
      packFields opc (fieldC w) (fv && fieldV w) (if fit then fieldIt w else 0) = w := by
  rw [eq_comm (b := w)]
  simp only [BitVec.eq_of_getLsbD_eq_iff]
  refine forall₂_congr fun j hj => ?_
  simp only [BitVec.getLsbD_and, BitVec.getLsbD_not, packFields_bit, hj]
  split_ifs with h8 hc hv h12 h16 hfit
  · simp
  · simp [hc, fieldC]
  · cases fv <;> simp [hv, fieldV]
  · simp
  · rw [fieldIt, getLsbD_field (by omega) (by omega), BitVec.getLsbD_allOnes]
    simp [show j - 12 < 4 by omega]
  · simp
  · simp

/-- A word matches a row exactly when it is the word of the row's command, with the fields of the word. -/
theorem opcodeRows_match_iff (h : row ∈ opcodeRows) :
    w &&& row.2.1 = row.1 ↔ encode (row.2.2 (fieldC w) (fieldV w) (fieldIt w)) = w := by
  rw [opcodeRows_match h, opcodeRows_mask h, and_mask_eq_iff, encode_opcodeRows h]

/-- Settles O3: a word that matches a row is the word of its command, and the word of a command matches the row of the
command. -/
theorem decodeAgreesWithOpcodeTable : Obligations.DecodeAgreesWithOpcodeTable := by
  refine fun w => ⟨fun row hrow hm => decode_eq_ok_iff.2 ((opcodeRows_match_iff hrow).1 hm), fun hno => ?_, ⟨_, rfl⟩⟩
  cases hd : decode w with
  | error r => exact ⟨r, rfl⟩
  | ok i =>
    obtain ⟨row, hrow, hi⟩ := exists_opcodeRow i
    obtain ⟨-, -, hc, hv, hit⟩ := decode_eq_ok_iff_fields.1 hd
    have hm : w &&& row.2.1 = row.1 := (opcodeRows_match_iff hrow).2 (by rw [hc, hv, hit, hi, decode_eq_ok_iff.1 hd])
    exact absurd hm (hno row hrow)

/-! ### Illegal words (30_encoding R77, R78) -/

theorem fieldOpc_toNat (w : Word32) : (fieldOpc w).toNat = w.toNat % 256 := by
  rw [fieldOpc, BitVec.extractLsb'_toNat, Nat.shiftRight_zero]

theorem fieldIt_toNat (w : Word32) : (fieldIt w).toNat = w.toNat / 2 ^ 12 % 16 := by
  rw [fieldIt, BitVec.extractLsb'_toNat, Nat.shiftRight_eq_div_pow]

theorem fieldIt_ne_zero_iff (w : Word32) : fieldIt w ≠ 0 ↔ w.toNat / 2 ^ 12 % 16 ≠ 0 := by
  rw [← fieldIt_toNat, ne_eq, ← BitVec.toNat_inj]
  rfl

/-- A bit of a word, from the number of the word. -/
theorem getLsbD_eq_true_iff {n k : Nat} {x : BitVec n} : x.getLsbD k = true ↔ x.toNat / 2 ^ k % 2 = 1 := by
  rw [BitVec.getLsbD, Nat.testBit_eq_decide_div_mod_eq, decide_eq_true_iff]

theorem reservedZero_iff (w : Word32) :
    reservedZero w = true ↔ w.toNat / 2 ^ 10 % 4 = 0 ∧ w.toNat / 2 ^ 16 = 0 := by
  have hw := w.isLt
  simp only [reservedZero, Bool.and_eq_true, beq_iff_eq, ← BitVec.toNat_inj, BitVec.extractLsb'_toNat,
    Nat.shiftRight_eq_div_pow, BitVec.toNat_ofNat]
  omega

/-- The fields that some command has: `v` and `it` are 0 where the opcode does not use them. -/
theorem exists_decodeFields_iff {n : Nat} {c v : Bool} {it : BitVec 4} : (∃ i, decodeFields n c v it = .ok i) ↔
    n ∈ legalOpcodes ∧ (v = true → n = 0x20 ∨ n = 0x48) ∧ (it ≠ 0 → n = 0x48 ∨ n = 0x49) := by
  constructor
  · rintro ⟨i, h⟩
    obtain ⟨rfl, rfl, rfl, rfl⟩ := decodeFields_eq_ok_iff.1 h
    cases i <;> simp [legalOpcodes, Instr.opc, Instr.valueBit, Instr.context]
  · rintro ⟨hn, hv, hit⟩
    fin_cases hn <;> simp_all [decodeFields, plainCommand]

/-- A word decodes exactly when its reserved bits are 0 and its fields are those of a command. -/
theorem exists_decode_iff : (∃ i, decode w = .ok i) ↔ reservedZero w = true ∧ (fieldOpc w).toNat ∈ legalOpcodes ∧
    (fieldV w = true → (fieldOpc w).toNat = 0x20 ∨ (fieldOpc w).toNat = 0x48) ∧
    (fieldIt w ≠ 0 → (fieldOpc w).toNat = 0x48 ∨ (fieldOpc w).toNat = 0x49) := by
  rw [← exists_decodeFields_iff (c := fieldC w), decode]
  split <;> simp [*]

/-- A word has a command exactly when it decodes and names a mode and a context that exist. -/
theorem decodeLegal_eq_none_iff : decodeLegal p w = none ↔
    ¬ ((∃ i, decode w = .ok i) ∧ (fieldC w = true → p.checkedMode = true) ∧ (fieldIt w).toNat < p.nIter) := by
  unfold decodeLegal
  cases hd : decode w with
  | error r => simp
  | ok i =>
    obtain ⟨-, -, hc, -, hit⟩ := decode_eq_ok_iff_fields.1 hd
    have hwf : i.wf p = true ↔ (fieldC w = true → p.checkedMode = true) ∧ (fieldIt w).toNat < p.nIter := by
      rw [Instr.wf, Instr.checkedOk, Instr.contextOk, ← hc, ← hit]
      cases fieldC w <;> simp
    simp [hwf]

/-- Settles O4: the list negates what a legal word needs. The list asks for an existing context on ITINIT
and ITNEXT only; elsewhere `it` is 0, and context 0 exists. -/
theorem illegalExactlyAsListed : Obligations.IllegalExactlyAsListed := by
  intro p w
  have hzero : w.toNat / 2 ^ 12 % 16 = 0 → w.toNat / 2 ^ 12 % 16 < p.nIter := fun h => h ▸ Nat.succ_pos _
  rw [decodeLegal_eq_none_iff, exists_decode_iff, reservedZero_iff, fieldIt_ne_zero_iff, fieldOpc_toNat,
    fieldIt_toNat, fieldC, fieldV, getLsbD_eq_true_iff, getLsbD_eq_true_iff]
  grind [illegalWord]

/-- Settles O5: offset 0 is CMD, and a word that no command has ends with ILLEGAL in STATUS. -/
theorem illegalCommandChangesStatusAndCmd : Obligations.IllegalCommandChangesStatusAndCmd := by
  intro s v rest hf hp hill
  rw [step_regWrite hf hp rfl]
  exact issue_of_illegal (s := { s with pending := rest }) ((illegalExactlyAsListed _ _).2 hill)

end Sys2Proof.Machine
end

section
/-! Loads and stores of 1, 2, 4 and 8 bytes: the bytes of a number in HOST_ORDER, the state after a store, and what a
load finds there (41_unaligned_access R102 to R118, 20_memory R54 and R56). -/

namespace Sys2Proof.Machine

variable {s t : State} {c : Bool} {n v k a : Nat} {as : List Nat} {load store : Bool → Instr}

/-! ### Bytes and their weights (20_memory R56) -/

theorem bytesAt_succ (s : State) (a n : Nat) : s.bytesAt a (n + 1) = s.peek a :: s.bytesAt (a + 1) n := by
  simp only [State.bytesAt, List.range_succ_eq_map, List.map_cons, List.map_map, Function.comp_def, Nat.add_zero,
    Nat.succ_eq_add_one, Nat.add_comm 1, Nat.add_assoc]

/-- The first of several bytes of a sum, in either order. -/
theorem loadO_succ (s : State) (a n : Nat) (o : ByteOrder) : loadO s a (n + 1) o =
    (s.peek a).toNat * byteWeight o (n + 1) 0 +
      ((List.range n).map fun k => (s.peek (a + 1 + k)).toNat * byteWeight o (n + 1) (k + 1)).sum := by
  simp only [loadO, List.range_succ_eq_map, List.map_cons, List.map_map, Function.comp_def, List.sum_cons, Nat.add_zero,
    Nat.succ_eq_add_one, Nat.add_comm 1, Nat.add_assoc]

theorem two_pow_bits (n : Nat) : 2 ^ (8 * n) = 256 ^ n := pow_mul 2 8 n

theorem byteWeight_le_succ (n k : Nat) : byteWeight .le (n + 1) (k + 1) = byteWeight .le n k * 256 := by
  simp only [byteWeight, Nat.mul_add, pow_add]; rfl

theorem byteWeight_be_succ (n k : Nat) : byteWeight .be (n + 1) (k + 1) = byteWeight .be n k := by
  simp only [byteWeight, Nat.add_sub_cancel, Nat.sub_sub, Nat.add_comm k 1]

/-- The sum of R56 is the number that the bytes stand for. -/
theorem loadO_eq_loadValue (s : State) (a n : Nat) (o : ByteOrder) : loadO s a n o = s.loadValue o a n := by
  induction n generalizing a with
  | zero => cases o <;> rfl
  | succ n ih =>
    rw [State.loadValue, bytesAt_succ, loadO_succ]
    cases o with
    | le =>
      simp only [byteWeight_le_succ, ← Nat.mul_assoc, List.sum_map_mul_right]
      rw [← loadO, ih, State.loadValue, orderValue, orderValue, leValue, Nat.mul_comm 256]
      simp [byteWeight]
    | be =>
      simp only [byteWeight_be_succ]
      rw [← loadO, ih, State.loadValue, orderValue, orderValue, List.reverse_cons, leValue_append]
      simp only [byteWeight, leValue, two_pow_bits, List.length_reverse, bytesAt_length, Nat.add_sub_cancel,
        Nat.sub_zero]
      ring

/-- Byte `k` of a number is the one of weight `byteWeight o n k`. -/
theorem orderBytes_getElem (o : ByteOrder) (v : Nat) (hk : k < (orderBytes o n v).length) :
    (orderBytes o n v)[k] = BitVec.ofNat 8 (v / byteWeight o n k) := by
  cases o <;> simp [orderBytes, leBytes, byteWeight]

/-! ### What byte writes change -/

theorem WritesOnly.setStatus (h : WritesOnly as s t) (w : Word64) : WritesOnly as s (t.setStatus w) := by
  obtain ⟨hframe, hpeek, hctx⟩ := h
  exact ⟨congrArg (State.setStatus · w) hframe, hpeek, hctx⟩

theorem writesOnly_pokes (s : State) (ws : List Host.Cell) : WritesOnly (ws.map Prod.fst) s (s.pokes ws) := by
  refine ⟨?_, fun a ha => peek_pokes_of_notMem s ha, fun i => ?_⟩
  · rw [pokes_frame]
  · rw [ctx_pokes, List.any_map]; rfl

/-! ### Stores -/

/-- The state after a completing store of the low `8n` bits of `v`. -/
def State.stored (s : State) (n v : Nat) : State :=
  (s.pokes (cellsFrom (s.use .addr) (orderBytes s.params.hostOrder n v))).setStatus statusOk

@[simp] theorem stored_params : (s.stored n v).params = s.params := pokes_params ..
@[simp] theorem stored_op (r : OpReg) : (s.stored n v).op r = s.op r := op_pokes ..
@[simp] theorem stored_use (r : OpReg) : (s.stored n v).use r = s.use r := use_pokes ..
@[simp] theorem stored_canRead : (s.stored n v).canRead a = s.canRead a := canRead_pokes ..
@[simp] theorem stored_res : (s.stored n v).res = s.res := pokes_res ..

theorem stored_peek (hk : k < n) :
    (s.stored n v).peek (s.use .addr + k) = BitVec.ofNat 8 (v / byteWeight s.params.hostOrder n k) := by
  have hlen : k < (orderBytes s.params.hostOrder n v).length := by rwa [orderBytes_length]
  rw [← orderBytes_getElem _ _ hlen]
  exact peek_pokes_of_mem s (cellsFrom_nodup ..) (mem_cellsFrom hlen)

theorem stored_writesOnly : WritesOnly (accessAddrs (s.use .addr) n) s (s.stored n v) := by
  rw [← storeCells_addrs s.params.hostOrder _ n v]
  exact (writesOnly_pokes ..).setStatus _

theorem stored_bytesAt : (s.stored n v).bytesAt (s.use .addr) n = orderBytes s.params.hostOrder n v := by
  refine List.ext_getElem (by simp) fun k hk _ => ?_
  rw [bytesAt_length] at hk
  rw [orderBytes_getElem, ← stored_peek hk]
  simp [State.bytesAt]

/-- Where a store has been, a number of that many bytes is the value stored. -/
theorem stored_loadValue : (s.stored n v).loadValue s.params.hostOrder (s.use .addr) n = v % 2 ^ (8 * n) := by
  rw [State.loadValue, stored_bytesAt, orderValue_orderBytes, two_pow_bits]

theorem storeScalar_eq_stored (hw : Written s [.addr, .val]) (hfit : Fits s (s.use .addr + n))
    (hok : AllWrite s (accessAddrs (s.use .addr) n)) : storeScalar n v c s = .next (s.stored n v) :=
  scalarAccess_next.2 ⟨hw, .inl ⟨hfit, hok, rfl⟩⟩

/-- A store within the address space that answers a next state had its operands written and has completed. -/
theorem eq_stored_of_storeScalar (hfit : Fits s (s.use .addr + n)) (h : storeScalar n v c s = .next t) :
    Written s [.addr, .val] ∧ t = s.stored n v := by
  obtain ⟨hw, ⟨-, -, ht⟩ | ⟨hover, -⟩⟩ := scalarAccess_next.1 h
  · exact ⟨hw, finish_next.1 ht⟩
  · exact absurd hfit hover.not_ge

theorem exec_store (h : (store, n) ∈ [(Instr.st8, 1), (Instr.st16, 2), (Instr.st32, 4), (Instr.st64, 8),
    (Instr.stf32, 4), (Instr.stf64, 8)]) : exec (store c) s = storeScalar n s.val.val.toNat c s := by
  simp only [List.mem_cons, Prod.mk.injEq, List.not_mem_nil, or_false] at h
  obtain ⟨rfl, rfl⟩ | ⟨rfl, rfl⟩ | ⟨rfl, rfl⟩ | ⟨rfl, rfl⟩ | ⟨rfl, rfl⟩ | ⟨rfl, rfl⟩ := h <;> rfl

/-- Settles O27: every store is `storeScalar` of its width on VAL. -/
theorem storesWriteHostOrder : Obligations.StoresWriteHostOrder := by
  intro store n hmem c s hw hfit hok
  refine ⟨s.stored n s.val.val.toNat, ?_, fun k hk => stored_peek hk, stored_writesOnly, stored_res, rfl⟩
  rw [exec_store hmem, storeScalar_eq_stored hw hfit hok]

/-- The one byte that a store of width 1 writes. -/
theorem stored_one_peek : (s.stored 1 v).peek (s.use .addr) = BitVec.ofNat 8 v := by
  have hweight : byteWeight s.params.hostOrder 1 0 = 1 := by cases s.params.hostOrder <;> rfl
  have hpeek := stored_peek (s := s) (v := v) Nat.one_pos
  rwa [hweight, Nat.div_one] at hpeek

/-- Settles O30: STBOOL is `storeScalar` of width 1 on 0 or 1. -/
theorem stboolStoresOneByte : Obligations.StboolStoresOneByte := by
  intro c s hw hfit hok
  refine ⟨_, storeScalar_eq_stored hw hfit (List.forall_mem_singleton.2 hok), ?_, stored_writesOnly, stored_res, rfl⟩
  rw [stored_one_peek, ite_not]
  exact apply_ite (BitVec.ofNat 8) ..

/-! ### Loads -/

theorem loadScalar_of_readable (hw : Written s [.addr]) (hfit : Fits s (s.use .addr + n))
    (hok : AllRead s (accessAddrs (s.use .addr) n)) : loadScalar n c s =
      .next ((s.setRes (word64 (s.loadValue s.params.hostOrder (s.use .addr) n))).setStatus statusOk) :=
  scalarAccess_next.2 ⟨hw, .inl ⟨hfit, hok, rfl⟩⟩

theorem exec_load (h : (load, n) ∈ [(Instr.ld8, 1), (Instr.ld16, 2), (Instr.ld32, 4), (Instr.ld64, 8),
    (Instr.ldf32, 4), (Instr.ldf64, 8)]) : exec (load c) s = loadScalar n c s := by
  simp only [List.mem_cons, Prod.mk.injEq, List.not_mem_nil, or_false] at h
  obtain ⟨rfl, rfl⟩ | ⟨rfl, rfl⟩ | ⟨rfl, rfl⟩ | ⟨rfl, rfl⟩ | ⟨rfl, rfl⟩ | ⟨rfl, rfl⟩ := h <;> rfl

/-- Settles O26: every load is `loadScalar` of its width, whose number is the sum of R56. -/
theorem loadsReadHostOrder : Obligations.LoadsReadHostOrder := by
  intro load n hmem c s hw hfit hok
  rw [exec_load hmem, loadScalar_of_readable hw hfit hok, loadO_eq_loadValue]
  rfl

/-- Settles O29: past the checks of R101, the byte decides. -/
theorem ldboolReadsZeroOrOne : Obligations.LdboolReadsZeroOrOne := by
  intro c s hw hfit hok
  have hbad : firstBad s.canRead (accessAddrs (s.use .addr) 1) = none :=
    firstBad_none.2 (List.forall_mem_singleton.2 hok)
  rw [exec, execLdbool, scalarAccess, needs_of_written hw, inRange_of_le hfit, hbad, admitted_none]
  split
  · next h0 => rw [check_of_ok (by simp [h0]), h0]; rfl
  · next h0 =>
    split
    · next h1 => rw [check_of_ok (by simp [h1]), h1]; rfl
    · next h1 => rw [check_of_not (decide_eq_false (not_or.2 ⟨h0, h1⟩))]; rfl

/-! ### A store, then a load -/

/-- The operands of a store hold those of a load. -/
theorem stored_written (hw : Written s [.addr, .val]) : Written (s.stored n v) [.addr] :=
  List.forall_mem_singleton.2 (by simpa using hw .addr (by simp))

/-- The operands and the readable bytes of a load are the same after a store. -/
theorem loadScalar_stored (hw : Written s [.addr, .val]) (hfit : Fits s (s.use .addr + n))
    (hok : AllRead s (accessAddrs (s.use .addr) n)) : loadScalar n c (s.stored n v) =
      .next (((s.stored n v).setRes (word64 (v % 2 ^ (8 * n)))).setStatus statusOk) := by
  rw [loadScalar_of_readable (stored_written hw) (by simpa using hfit) (by simpa [AllRead] using hok),
    stored_params, stored_use, stored_loadValue]

/-- LDBOOL reads the 0 or 1 that was stored. -/
theorem ldbool_stored (hw : Written s [.addr, .val]) (hfit : Fits s (s.use .addr + 1))
    (hok : s.canRead (s.use .addr) = true) (hv : v = 0 ∨ v = 1) : exec (.ldbool c) (s.stored 1 v) =
      .next { s.stored 1 v with res := ⟨word64 v, true⟩, status := 0 } := by
  rw [ldboolReadsZeroOrOne c (s.stored 1 v) (stored_written hw) (by simpa using hfit)
    (by simpa using hok), stored_use, stored_one_peek]
  obtain rfl | rfl := hv <;> rfl

/-- Settles O28: the store completed, and the load finds its bytes. -/
theorem storeThenLoadReturnsValue : Obligations.StoreThenLoadReturnsValue := by
  rintro store load n val (⟨hmem, hval⟩ | ⟨hbool, hval⟩) c c' s t hfit hstore hok
  · rw [exec_store (List.mem_map_of_mem (f := fun x => (x.1, x.2.2)) hmem)] at hstore
    obtain ⟨hw, rfl⟩ := eq_stored_of_storeScalar hfit hstore
    rw [exec_load (List.mem_map_of_mem (f := Prod.snd) hmem), loadScalar_stored hw hfit hok, hval]
    rfl
  · obtain ⟨rfl, rfl, rfl⟩ : store = .stbool ∧ load = .ldbool ∧ n = 1 := by simpa using hbool
    obtain ⟨hw, rfl⟩ := eq_stored_of_storeScalar hfit hstore
    rw [hval]
    exact ldbool_stored hw hfit (hok _ (by simp)) (ite_eq_or_eq ..)

/-- Settles O31: the moves of one width are one meaning. -/
theorem floatMovesEqualIntegerMoves : Obligations.FloatMovesEqualIntegerMoves :=
  fun _ _ => ⟨rfl, rfl, rfl, rfl⟩

end Sys2Proof.Machine
end

section
/-! The single-bit commands: what BTST reads, the state after BSET and BCLR, and where the three stop
(42_single_bit_sizing R130 to R134). -/

namespace Sys2Proof.Machine

variable {s t : State} {c v writes : Bool} {a j : Nat} {command : Bool → Instr}

/-! ### The bit addressed -/

theorem bitResult_eq_ite (s : State) : bitResult s = if s.bitAt (s.use .addr) (s.use .pos) then 1 else 0 := by
  unfold bitResult
  cases s.bitAt (s.use .addr) (s.use .pos) <;> rfl

theorem bitMask_bit (s : State) (j : Nat) : (bitMask s).getLsbD j = decide (s.use .pos % 8 = j) := by
  have hbyte : s.use .pos % 8 < 8 := Nat.mod_lt _ (by decide)
  rw [bitMask, ← BitVec.twoPow_eq, BitVec.getLsbD_twoPow, decide_eq_true hbyte, Bool.true_and]

/-- The byte that BSET (`v` is true) or BCLR (`v` is false) writes (42 R132, R133). -/
def bitByte (v : Bool) (s : State) : Byte :=
  if v then s.peek (bitAddr s) ||| bitMask s else s.peek (bitAddr s) &&& ~~~bitMask s

theorem bitByte_bit (hj : j < 8) : (bitByte v s).getLsbD j =
    if j = s.use .pos % 8 then v else (s.peek (bitAddr s)).getLsbD j := by
  cases v with
  | true =>
    simp only [bitByte, if_true, BitVec.getLsbD_or, bitMask_bit]
    split
    · next h => rw [decide_eq_true h.symm, Bool.or_true]
    · next h => rw [decide_eq_false (Ne.symm h), Bool.or_false]
  | false =>
    simp only [bitByte, Bool.false_eq_true, if_false, BitVec.getLsbD_and, BitVec.getLsbD_not, bitMask_bit, hj,
      decide_true, Bool.true_and]
    split
    · next h => rw [decide_eq_true h.symm, Bool.not_true, Bool.and_false]
    · next h => rw [decide_eq_false (Ne.symm h), Bool.not_false, Bool.and_true]

/-! ### The state after BSET or BCLR -/

/-- The state after a completing BSET (`v` is true) or BCLR (`v` is false). -/
def State.withBit (s : State) (v : Bool) : State :=
  ((s.poke (bitAddr s) (bitByte v s)).setRes (bitResult s)).setStatus statusOk

@[simp] theorem withBit_params : (s.withBit v).params = s.params := rfl
@[simp] theorem withBit_op (x : OpReg) : (s.withBit v).op x = s.op x := by cases x <;> rfl
@[simp] theorem withBit_use (x : OpReg) : (s.withBit v).use x = s.use x := by cases x <;> rfl
@[simp] theorem withBit_bitAddr : bitAddr (s.withBit v) = bitAddr s := by simp only [bitAddr, withBit_use]
@[simp] theorem withBit_canRead : (s.withBit v).canRead a = s.canRead a := rfl
@[simp] theorem withBit_res : (s.withBit v).res = Marked.of (bitResult s) := rfl

theorem withBit_written {rs : List OpReg} (h : Written s rs) : Written (s.withBit v) rs := fun x hx => by
  rw [withBit_op, h x hx]

theorem withBit_peek_bit (hj : j < 8) : ((s.withBit v).peek a).getLsbD j =
    if a = bitAddr s ∧ j = s.use .pos % 8 then v else (s.peek a).getLsbD j := by
  rw [State.withBit, peek_setStatus, peek_setRes, peek_poke]
  split
  · next ha => rw [bitByte_bit hj, ha]; simp only [true_and]
  · next ha => rw [if_neg (ha ·.1)]

theorem withBit_bitAt (s : State) (v : Bool) (b p : Nat) : (s.withBit v).bitAt b p =
    if b + p / 8 = bitAddr s ∧ p % 8 = s.use .pos % 8 then v else s.bitAt b p :=
  withBit_peek_bit (Nat.mod_lt _ (by decide))

theorem withBit_writesOnly : WritesOnly [bitAddr s] s (s.withBit v) := by
  obtain ⟨-, hpeek, hctx⟩ := poke_writesOnly s (bitAddr s) (bitByte v s)
  exact ⟨rfl, hpeek, hctx⟩

/-! ### The commands complete -/

/-- BSET and BCLR are the checks of R130, then the write of one byte. -/
theorem exec_bitUpdate (h : (command, v) ∈ [(Instr.bset, true), (Instr.bclr, false)]) :
    exec (command c) s = bitAccess s.canUpdate c s (.next (s.withBit v)) := by
  simp only [List.mem_cons, Prod.mk.injEq, List.not_mem_nil, or_false] at h
  obtain ⟨rfl, rfl⟩ | ⟨rfl, rfl⟩ := h <;> rfl

theorem btst_of_readable (hw : Written s [.addr, .pos]) (hfit : Fits s (bitAddr s + 1))
    (hok : s.canRead (bitAddr s) = true) : exec (.btst c) s =
      .next { s with res := ⟨if s.bitAt (s.use .addr) (s.use .pos) then 1 else 0, true⟩, status := 0 } := by
  rw [← bitResult_eq_ite]
  exact bitAccess_next.2 ⟨hw, .inl ⟨hfit, hok, rfl⟩⟩

/-- A BTST of a byte that exists and that answers a next state has completed. -/
theorem btst_next (hfit : Fits s (bitAddr s + 1)) (h : exec (.btst c) s = .next t) :
    Written s [.addr, .pos] ∧ s.canRead (bitAddr s) = true ∧ t.res = Marked.of (bitResult s) := by
  obtain ⟨hw, ⟨-, hok, ht⟩ | ⟨hover, -⟩⟩ := bitAccess_next.1 h
  · exact ⟨hw, hok, congrArg State.res (finish_next.1 ht)⟩
  · exact absurd hfit hover.not_ge

/-- A BSET or BCLR in a byte that exists and that answers a next state has completed. -/
theorem eq_withBit_of_exec (hcmd : (command, v) ∈ [(Instr.bset, true), (Instr.bclr, false)])
    (hfit : Fits s (bitAddr s + 1)) (h : exec (command c) s = .next t) : t = s.withBit v := by
  rw [exec_bitUpdate hcmd] at h
  obtain ⟨-, ⟨-, -, ht⟩ | ⟨hover, -⟩⟩ := bitAccess_next.1 h
  · exact (Host.Outcome.next.inj ht).symm
  · exact absurd hfit hover.not_ge

/-- Settles O33: past the checks of R130, BTST gives the bit. -/
theorem btstReturnsBit : Obligations.BtstReturnsBit := fun _ _ hw hfit hok => btst_of_readable hw hfit hok

/-- Settles O34: past the checks of R130, BSET and BCLR give `withBit`. -/
theorem bsetBclrUpdateOneBit : Obligations.BsetBclrUpdateOneBit := by
  intro command v hcmd c s hw hfit hread hwrite
  have hok : s.canUpdate (bitAddr s) = true := Bool.and_eq_true_iff.2 ⟨hread, hwrite⟩
  refine ⟨s.withBit v, ?_, fun a j hj => withBit_peek_bit hj, withBit_writesOnly, ?_, rfl⟩
  · rw [exec_bitUpdate hcmd]
    exact bitAccess_next.2 ⟨hw, .inl ⟨hfit, hok, rfl⟩⟩
  · rw [withBit_res, bitResult_eq_ite]
    rfl

/-- Settles O35: the set or the clear gave `withBit`, in which BTST finds the new bit. -/
theorem singleBitLaws : Obligations.SingleBitLaws := by
  intro command v hcmd c s r t hfit htest hupdate
  obtain ⟨hw, hok, hres⟩ := btst_next hfit htest
  obtain rfl := eq_withBit_of_exec hcmd hfit hupdate
  refine ⟨hres.symm, ?_, fun b p hne => ?_⟩
  · have hbit : (s.withBit v).bitAt ((s.withBit v).use .addr) ((s.withBit v).use .pos) = v := by
      rw [withBit_bitAt, withBit_use, withBit_use, if_pos ⟨rfl, rfl⟩]
    rw [btst_of_readable (withBit_written hw) (by rwa [withBit_bitAddr]) (by rwa [withBit_bitAddr]), hbit]
  · rw [withBit_bitAt]
    exact if_neg (not_and_or.2 hne)

/-! ### The commands stop -/

/-- The bytes that a single-bit command may touch: readable, and writable where it writes (42 R130). -/
def State.canTouch (s : State) (writes : Bool) : Nat → Bool := if writes then s.canUpdate else s.canRead

theorem exec_singleBit
    (h : (command, writes) ∈ [(Instr.btst, false), (Instr.bset, true), (Instr.bclr, true)]) (c : Bool) (s : State) :
    ∃ k, exec (command c) s = bitAccess (s.canTouch writes) c s k := by
  simp only [List.mem_cons, Prod.mk.injEq, List.not_mem_nil, or_false] at h
  obtain ⟨rfl, rfl⟩ | ⟨rfl, rfl⟩ | ⟨rfl, rfl⟩ := h <;> exact ⟨_, rfl⟩

theorem canTouch_eq_false (h : s.canRead a = false ∨ writes = true ∧ s.canWrite a = false) :
    s.canTouch writes a = false := by
  cases writes with
  | false => exact h.resolve_right (nofun)
  | true => exact Bool.and_eq_false_iff.2 (h.imp_right And.right)

theorem firstBad_singleton {ok : Nat → Bool} (h : ok a = false) : firstBad ok [a] = some (a : Int) :=
  firstBad_accessAddrs (n := 1) (k := 0) Nat.one_pos nofun h

/-- Settles O36: the three commands begin with the checks of `bitAccess`. -/
theorem singleBitStops : Obligations.SingleBitStops := by
  intro command writes hcmd c s
  obtain ⟨k, hexec⟩ := exec_singleBit hcmd c s
  rw [hexec, bitAccess]
  refine ⟨fun ha => needs_of_unwritten (r := .addr) ha, fun ha hp => ?_, fun ha hp => ?_⟩
  · exact (needs_cons_of_written (r := .addr) ha).trans (needs_of_unwritten hp)
  · rw [needs_cons_of_written (r := .addr) ha, needs_cons_of_written (r := .pos) hp, needs]
    refine ⟨fun hover => inRange_eq_rangeStop (Nat.lt_succ_of_le hover), fun hfit hbad => ?_⟩
    have hstop : s.canTouch writes (bitAddr s) = false := canTouch_eq_false hbad
    rw [inRange_of_le (limit := bitAddr s + 1) hfit, firstBad_singleton hstop, admitted_some]
    rfl

end Sys2Proof.Machine
end

section
/-! Bitmap sizing: the number of whole words that hold a number of bits (42_single_bit_sizing R135, R136). -/

namespace Sys2Proof.Machine

variable {s : State} {p : Params} {n k : Nat}

theorem bitmapBytes_eq_ceilDiv (p : Params) (n : Nat) : bitmapBytes p n = n ⌈/⌉ (8 * p.wb) * p.wb := by
  rw [bitmapBytes, wordW_bits, Nat.ceilDiv_eq_add_pred_div]

theorem bitmapBytes_mod_wb (p : Params) (n : Nat) : bitmapBytes p n % p.wb = 0 := Nat.mul_mod_left _ _

/-- Among whole words, those that hold `n` bits are those from `bitmapBytes` upwards. -/
theorem bitmapBytes_le_iff (hk : k % p.wb = 0) : bitmapBytes p n ≤ k ↔ n ≤ 8 * k := by
  obtain ⟨q, rfl⟩ := Nat.dvd_of_mod_eq_zero hk
  have hpos := wb_pos p
  rw [bitmapBytes_eq_ceilDiv, Nat.mul_comm p.wb q, Nat.mul_le_mul_right_iff hpos,
    ceilDiv_le_iff_le_mul (by omega), Nat.mul_comm q, Nat.mul_assoc]

theorem le_bitmapBytes (p : Params) (n : Nat) : n ≤ 8 * bitmapBytes p n :=
  (bitmapBytes_le_iff (bitmapBytes_mod_wb p n)).1 le_rfl

/-- One word less does not hold `n` bits. -/
theorem bitmapBytes_lt (p : Params) (n : Nat) : bitmapBytes p n < (n + 7) / 8 + p.wb := by
  by_cases hword : p.wb ≤ bitmapBytes p n
  · have hless : (bitmapBytes p n - p.wb) % p.wb = 0 := by
      rw [← Nat.mod_eq_sub_mod hword, bitmapBytes_mod_wb]
    have hshort := (bitmapBytes_le_iff (n := n) hless).not.1 (by have := wb_pos p; omega)
    omega
  · omega

theorem wordW_bits_le_space (p : Params) : p.wordW.bits ≤ p.space := by
  unfold Params.space
  cases p.wordW <;> cases p.addrW <;> decide

/-- Settles O37: past the checks of R135, the result is `bitmapBytes`. -/
theorem bmsizeIsLeastWordMultiple : Obligations.BmsizeIsLeastWordMultiple := by
  intro c s
  have hspace := wordW_bits_le_space s.params
  rw [exec, execBmsize]
  refine ⟨fun hn => needs_of_unwritten (r := .len) hn, fun hw hover => ?_, fun hw hfit => ?_⟩
  · rw [needs_of_written hw]
    exact inRange_eq_rangeStop (by omega)
  · rw [needs_of_written hw, inRange_of_le (by omega)]
    have hlt := bitmapBytes_lt s.params (s.use .len)
    have hbits := wordW_bits s.params
    have hpos := wb_pos s.params
    exact ⟨bitmapBytes s.params (s.use .len), rfl, rfl, by omega, bitmapBytes_mod_wb _ _, le_bitmapBytes _ _, hlt,
      fun k hk => (bitmapBytes_le_iff hk).2⟩

end Sys2Proof.Machine
end

section
/-! Bit ranges: the masks of their bytes, the checks of a range, and the state after the bytes of a range have been
merged (00_scope R11 and R12, 43_range_fill R150 to R152). -/

namespace Sys2Proof.Machine

variable {s : State} {c : Bool} {k : Result} {b p n : Nat}

/-! ### Masks (00_scope R12, 43 R152) -/

/-- `m` one bits from bit `i` upwards are the mask of the bit range `[i, i + m)`. -/
theorem ofNat_ones_bit (m i : Nat) {j : Nat} (hj : j < 8) :
    (BitVec.ofNat 8 ((2 ^ m - 1) * 2 ^ i)).getLsbD j = inBitRange i m j := by
  rw [BitVec.getLsbD_ofNat, Nat.testBit_mul_two_pow, Nat.testBit_two_pow_sub_one, decide_eq_true hj, Bool.true_and,
    Bool.eq_iff_iff, inBitRange_iff, Bool.and_eq_true, decide_eq_true_eq, decide_eq_true_eq]
  omega

/-- The mask of a span byte in which the range takes the bits `[i, i + m)`. -/
theorem rangeMask_eq_ones {q i m : Nat} (h : ∀ j < 8, p ≤ 8 * q + j ∧ 8 * q + j < p + n ↔ i ≤ j ∧ j < i + m) :
    rangeMask p n q = BitVec.ofNat 8 ((2 ^ m - 1) * 2 ^ i) := by
  refine BitVec.eq_of_getLsbD_eq fun j hj => ?_
  rw [rangeMask_bit _ _ _ hj, ofNat_ones_bit _ _ hj, Bool.eq_iff_iff, inBitRange_iff, inBitRange_iff]
  exact h j hj

/-- A mask is full where all 8 bits of the byte lie in the range. -/
theorem rangeMask_eq_full_iff {q : Nat} : rangeMask p n q = 0xFF ↔ p ≤ 8 * q ∧ 8 * q + 8 ≤ p + n := by
  constructor
  · intro hfull
    have hbit : ∀ j < 8, p ≤ 8 * q + j ∧ 8 * q + j < p + n := fun j hj => by
      rw [← inBitRange_iff, ← rangeMask_bit p n q hj, hfull]
      interval_cases j <;> rfl
    have hlow := hbit 0 (by decide)
    have hhigh := hbit 7 (by decide)
    omega
  · rintro ⟨hlow, hhigh⟩
    exact rangeMask_eq_ones (i := 0) (m := 8) fun j hj => by omega

/-- Settles O41: the bits that the range takes of each span byte. -/
theorem masksOfHeadBodyTail : Obligations.MasksOfHeadBodyTail := by
  intro p n hn
  refine ⟨fun hone => ⟨rangeMask_eq_ones fun j hj => by omega, ?_⟩, fun hmany => ⟨?_, ?_, ?_⟩, ?_⟩
  · rw [rangeMask_eq_full_iff]
    omega
  · exact rangeMask_eq_ones (m := 8) fun j hj => by omega
  · intro k hfirst hlast
    exact rangeMask_eq_full_iff.2 (by omega)
  · split
    · next hend => exact rangeMask_eq_full_iff.2 (by omega)
    · next hend =>
      rw [← Nat.mul_one (2 ^ _ - 1)]
      exact rangeMask_eq_ones (i := 0) fun j hj => by omega
  · intro k hlast hmem
    exact (mem_spanOffsets.1 hmem).2.2.not_gt hlast

/-! ### The checks of a range (43 R150) -/

/-- A command faults on the first of its operand registers that has not been written. -/
theorem needs_of_first_unwritten {pre rs : List OpReg} {r : OpReg} (hpre : Written s pre)
    (hr : (s.op r).written = false) : needs (pre ++ r :: rs) s k = .fault (.unwritten r s.cmd) := by
  induction pre with
  | nil => exact needs_of_unwritten hr
  | cons x pre ih =>
    obtain ⟨hx, hpre⟩ := List.forall_mem_cons.1 hpre
    exact (needs_cons_of_written hx).trans (ih hpre)

theorem rangeAccess_of_fits (h : RangeFits s b p n) : rangeAccess b p n c s k = k := by
  obtain ⟨hpos, haddr⟩ := h
  rw [rangeAccess, inRange_of_le hpos, inRange_of_le haddr]

theorem rangeAccess_eq_rangeStop (h : ¬ RangeFits s b p n) : rangeAccess b p n c s k = rangeStop c s := by
  rw [rangeAccess]
  by_cases hpos : Fits s (p + n)
  · rw [inRange_of_le hpos]
    exact inRange_eq_rangeStop (not_le.1 fun haddr => h ⟨hpos, haddr⟩)
  · exact inRange_eq_rangeStop (not_le.1 hpos)

/-- The span of a range of at least one bit is an access. -/
theorem spanAddrs_eq_accessAddrs (hn : 0 < n) :
    spanAddrs b p n = accessAddrs (b + p / 8) ((p + n - 1) / 8 - p / 8 + 1) := by
  rw [spanAddrs, spanOffsets, if_neg hn.ne', List.map_add_range', accessAddrs]

/-- The lowest span byte that fails a test. -/
theorem firstBad_spanAddrs {ok : Nat → Bool} {a : Nat} (ha : a ∈ spanAddrs b p n) (hbad : ok a = false)
    (hlow : ∀ x ∈ spanAddrs b p n, x < a → ok x = true) : firstBad ok (spanAddrs b p n) = some (a : Int) := by
  obtain ⟨hn, hfirst, hlast⟩ := mem_spanAddrs.1 ha
  obtain ⟨m, rfl⟩ := Nat.exists_eq_add_of_le hfirst
  rw [spanAddrs_eq_accessAddrs hn]
  exact firstBad_accessAddrs (by omega) (fun j hj => hlow _ (mem_spanAddrs.2 (by omega)) (by omega)) hbad

theorem mem_partialAddrs {a : Nat} :
    a ∈ partialAddrs b p n ↔ a ∈ spanAddrs b p n ∧ rangeMask p n (a - b) ≠ 0xFF := by
  rw [partialAddrs, List.mem_filter, bne_iff_ne]

/-- What a fill or a copy asks of a byte of its destination span. -/
theorem canMerge_iff {a : Nat} (ha : a ∈ spanAddrs b p n) : s.canMerge b p n a = true ↔
    s.canWrite a = true ∧ (a ∈ partialAddrs b p n → s.canRead a = true) := by
  simp only [State.canMerge, mem_partialAddrs, ha, Bool.and_eq_true, Bool.or_eq_true, decide_eq_true_eq, true_and,
    Classical.or_iff_not_imp_left, ne_eq]

theorem badDest_of_admitted (hwrite : AllWrite s (spanAddrs b p n)) (hread : AllRead s (partialAddrs b p n)) :
    badDest b p n s = none :=
  firstBad_none.2 fun a ha => (canMerge_iff ha).2 ⟨hwrite a ha, hread a⟩

/-- The lowest byte of a destination span that is not writable, or partial and not readable. -/
theorem badDest_eq_some {a : Nat} (ha : a ∈ spanAddrs b p n)
    (hbad : s.canWrite a = false ∨ a ∈ partialAddrs b p n ∧ s.canRead a = false)
    (hlow : ∀ x ∈ spanAddrs b p n, x < a → s.canWrite x = true ∧ (x ∈ partialAddrs b p n → s.canRead x = true)) :
    badDest b p n s = some (a : Int) := by
  refine firstBad_spanAddrs ha ?_ fun x hx hxa => (canMerge_iff hx).2 (hlow x hx hxa)
  rw [← Bool.not_eq_true, canMerge_iff ha]
  rintro ⟨hw, hr⟩
  obtain hw' | ⟨hpart, hr'⟩ := hbad
  · exact Bool.eq_false_iff.1 hw' hw
  · exact Bool.eq_false_iff.1 hr' (hr hpart)

/-! ### The bytes of a range merged (43 R151, 44 R161) -/

/-- The bytes that a fill or a copy writes: span byte `q` takes the bits of `f q` inside its mask. -/
def mergeCells (f : Nat → Byte) (s : State) : List Host.Cell :=
  (spanOffsets (s.use .pos) (s.use .len)).map fun q =>
    (s.use .addr + q, mergeByte (rangeMask (s.use .pos) (s.use .len) q) (s.peek (s.use .addr + q)) (f q))

theorem fillCells_eq_mergeCells (v : Bool) (s : State) : fillCells v s = mergeCells (fun _ => fillByte v) s := rfl

theorem copyCells_eq_mergeCells (s : State) : copyCells s = mergeCells (copyByte s) s := rfl

theorem mergeCells_addrs (f : Nat → Byte) (s : State) :
    (mergeCells f s).map Prod.fst = spanAddrs (s.use .addr) (s.use .pos) (s.use .len) := by
  simp [mergeCells, spanAddrs, Function.comp_def]

/-- The state after a fill or a copy that completes. -/
def State.merged (s : State) (f : Nat → Byte) : State := (s.pokes (mergeCells f s)).setStatus statusOk

variable {f : Nat → Byte} {q j : Nat}

@[simp] theorem merged_res : (s.merged f).res = s.res := pokes_res ..

theorem merged_writesOnly :
    WritesOnly (spanAddrs (s.use .addr) (s.use .pos) (s.use .len)) s (s.merged f) := by
  rw [← mergeCells_addrs f s]
  exact (writesOnly_pokes ..).setStatus _

theorem merged_peek (hq : q ∈ spanOffsets (s.use .pos) (s.use .len)) : (s.merged f).peek (s.use .addr + q) =
    mergeByte (rangeMask (s.use .pos) (s.use .len) q) (s.peek (s.use .addr + q)) (f q) := by
  refine peek_pokes_of_mem s ?_ (List.mem_map_of_mem hq)
  rw [mergeCells_addrs]
  exact spanAddrs_nodup ..

/-- A bit of the range is the one of `f`, and a bit outside stays. -/
theorem merged_peek_bit (hj : j < 8) : ((s.merged f).peek (s.use .addr + q)).getLsbD j =
    if inBitRange (s.use .pos) (s.use .len) (8 * q + j) then (f q).getLsbD j
      else (s.peek (s.use .addr + q)).getLsbD j := by
  by_cases hq : q ∈ spanOffsets (s.use .pos) (s.use .len)
  · rw [merged_peek hq, mergeByte_bit _ _ _ hj, rangeMask_bit _ _ _ hj]
  · have hspan : s.use .addr + q ∉ spanAddrs (s.use .addr) (s.use .pos) (s.use .len) := by
      rw [mem_spanOffsets] at hq
      rw [mem_spanAddrs]
      omega
    have hout : ¬ inBitRange (s.use .pos) (s.use .len) (8 * q + j) = true := by
      rw [mem_spanOffsets] at hq
      rw [inBitRange_iff]
      omega
    obtain ⟨-, hpeek, -⟩ := merged_writesOnly (s := s) (f := f)
    rw [hpeek _ hspan, if_neg hout]

/-- Bit `q` of the range, counted from its first bit. -/
theorem merged_bitAt (hq : q < s.use .len) : (s.merged f).bitAt (s.use .addr) (s.use .pos + q) =
    (f ((s.use .pos + q) / 8)).getLsbD ((s.use .pos + q) % 8) := by
  rw [State.bitAt, merged_peek_bit (Nat.mod_lt _ (by decide)), if_pos (inBitRange_iff.2 (by omega))]

/-- A bit that is none of the range's stays. -/
theorem merged_peek_bit_outside {a : Nat} (hj : j < 8)
    (hout : ∀ m < s.use .len, a ≠ s.use .addr + (s.use .pos + m) / 8 ∨ j ≠ (s.use .pos + m) % 8) :
    ((s.merged f).peek a).getLsbD j = (s.peek a).getLsbD j := by
  obtain hbelow | habove := Nat.lt_or_ge a (s.use .addr)
  · obtain ⟨-, hpeek, -⟩ := merged_writesOnly (s := s) (f := f)
    rw [hpeek a (by rw [mem_spanAddrs]; omega)]
  · obtain ⟨q, rfl⟩ := Nat.exists_eq_add_of_le habove
    rw [merged_peek_bit hj, if_neg]
    intro hin
    rw [inBitRange_iff] at hin
    have hbit := hout (8 * q + j - s.use .pos) (by omega)
    omega

end Sys2Proof.Machine
end

section
/-! BFILL: the state it leaves and where it stops; and the three range commands with LEN = 0 (43_range_fill R150 to
R155, 44_range_copy R166, 46_popcount R193). -/

namespace Sys2Proof.Machine

variable {s : State} {c v : Bool}

theorem fillByte_bit {j : Nat} (hj : j < 8) : (fillByte v).getLsbD j = v := by
  cases v <;> interval_cases j <;> rfl

/-- With its operands written and LEN above 0, BFILL is the checks of R150, then the merge. -/
theorem exec_bfill_of_written (hw : Written s [.addr, .pos, .len]) (hn : 0 < s.use .len) : exec (.bfill c v) s =
    rangeAccess (s.use .addr) (s.use .pos) (s.use .len) c s
      (admitted (badDest (s.use .addr) (s.use .pos) (s.use .len) s) s (.next (s.merged fun _ => fillByte v))) := by
  rw [exec, execBfill, needs_of_written hw, if_neg hn.ne', fillCells_eq_mergeCells]
  rfl

/-- Settles O38: past the checks of R150, BFILL gives `merged`. -/
theorem bfillSetsExactlyTheRange : Obligations.BfillSetsExactlyTheRange := by
  intro c v s hw hn hfit hwrite hread
  refine ⟨s.merged fun _ => fillByte v, ?_, fun q hq => ?_, fun a j hj => merged_peek_bit_outside hj, merged_writesOnly,
    merged_res, rfl⟩
  · rw [exec_bfill_of_written hw hn, rangeAccess_of_fits hfit, badDest_of_admitted hwrite hread, admitted_none]
  · rw [merged_bitAt hq, fillByte_bit (Nat.mod_lt _ (by decide))]

/-- Settles O40: the operands, then the checks of R150 in their order. -/
theorem bfillStops : Obligations.BfillStops := by
  intro c v s
  refine ⟨fun ha => needs_of_unwritten (r := .addr) ha, fun hw hp => ?_, fun hw hl => ?_,
    fun hw hn => ⟨fun hover => ?_, fun hfit a ha hbad hlow => ?_⟩⟩
  · exact needs_of_first_unwritten (r := .pos) hw hp
  · exact needs_of_first_unwritten (r := .len) hw hl
  · rw [exec_bfill_of_written hw hn, rangeAccess_eq_rangeStop hover]
  · rw [exec_bfill_of_written hw hn, rangeAccess_of_fits hfit, badDest_eq_some ha hbad hlow, admitted_some]

/-- Settles O39: each of the three commands tests LEN right after its operands. -/
theorem zeroLengthRangesDoNothing : Obligations.ZeroLengthRangesDoNothing := by
  intro c v s hzero hw
  refine ⟨?_, fun hsrc => ?_, ?_⟩
  · rw [exec, execBfill, needs_of_written hw, if_pos hzero]
    rfl
  · have hall : Written s [.addr, .src, .pos, .spos, .len] := by
      simp only [Written, List.forall_mem_cons] at hw hsrc ⊢
      tauto
    rw [exec, execBcopy, needs_of_written hall, if_pos hzero]
    rfl
  · rw [exec, execBcount, needs_of_written hw, if_pos hzero]
    rfl

end Sys2Proof.Machine
end

section
/-! The shift-alignment datapath of BCOPY gives the byte of the per-bit rule (44_range_copy R161 to R163). -/

namespace Sys2Proof.Machine

variable {s : State} {q j : Nat}

/-- Bit `j` of a copied byte. -/
theorem copyByte_bit (hj : j < 8) : (copyByte s q).getLsbD j =
    (inBitRange (s.use .pos) (s.use .len) (8 * q + j) &&
      s.bitAt (s.use .src) (s.use .spos + (8 * q + j - s.use .pos))) :=
  byteOfBits_bit _ hj

/-- Two bytes merged at the offset `off`: the window of 8 bits that begins at bit `off` of the first byte and goes on in
the second. -/
theorem shiftMerge_bit (x y : Byte) {off : Nat} (hoff : off < 8) (hj : j < 8) :
    (x >>> off ||| y <<< (8 - off)).getLsbD j =
      if off + j < 8 then x.getLsbD (off + j) else y.getLsbD (off + j - 8) := by
  rw [BitVec.getLsbD_or, BitVec.getLsbD_ushiftRight, BitVec.getLsbD_shiftLeft]
  split
  · next hin =>
    simp [show j < 8 - off by omega]
  · next hout =>
    have hx : x.getLsbD (off + j) = false := BitVec.getLsbD_of_ge _ _ (by omega)
    simp [hx, hj, show ¬ j < 8 - off by omega, show j - (8 - off) = off + j - 8 by omega]

/-- Both formulas of R162 are one merge, at the offset `S % 8` of the source position `S` that lands on bit 0. -/
theorem shiftByte_eq_merge (s : State) {first : Int} (hfirst : first = s.use .spos + 8 * q - s.use .pos) :
    shiftByte s q = shiftSource s (first / 8) >>> (first % 8).toNat |||
      shiftSource s (first / 8 + 1) <<< (8 - (first % 8).toNat) := by
  rw [shiftByte, ← hfirst]
  dsimp only
  split
  · next hahead =>
    rw [show (-(((s.use .pos % 8 : Nat) : Int) - (s.use .spos % 8 : Nat))).toNat = (first % 8).toNat by omega]
  · next hbehind =>
    rw [show (((s.use .pos % 8 : Nat) : Int) - (s.use .spos % 8 : Nat)).toNat = 8 - (first % 8).toNat by omega,
      show 8 - (8 - (first % 8).toNat) = (first % 8).toNat by omega]

/-- The read guard of R163 lets every bit of the source range through. -/
theorem shiftSource_bit {i : Int} {m : Nat} (hi : i = (m / 8 : Nat))
    (hm : inBitRange (s.use .spos) (s.use .len) m = true) :
    (shiftSource s i).getLsbD (m % 8) = s.bitAt (s.use .src) m := by
  rw [inBitRange_iff] at hm
  have hspan : m / 8 ∈ spanOffsets (s.use .spos) (s.use .len) := mem_spanOffsets.2 (by omega)
  subst hi
  rw [shiftSource, Int.toNat_natCast, if_pos ⟨Int.natCast_nonneg _, hspan⟩, State.bitAt]

/-- A bit of the range, as the datapath computes it. -/
theorem shiftByte_bit (hj : j < 8) (hin : inBitRange (s.use .pos) (s.use .len) (8 * q + j) = true) :
    (shiftByte s q).getLsbD j = s.bitAt (s.use .src) (s.use .spos + (8 * q + j - s.use .pos)) := by
  obtain ⟨first, hfirst⟩ : ∃ first : Int, first = s.use .spos + 8 * q - s.use .pos := ⟨_, rfl⟩
  have hin' := inBitRange_iff.1 hin
  have hsource : inBitRange (s.use .spos) (s.use .len) (s.use .spos + (8 * q + j - s.use .pos)) = true :=
    inBitRange_iff.2 (by omega)
  rw [shiftByte_eq_merge s hfirst, shiftMerge_bit _ _ (by omega) hj]
  split
  · next hlow =>
    rw [← shiftSource_bit (i := first / 8) (by omega) hsource]
    congr 1
    omega
  · next hhigh =>
    rw [← shiftSource_bit (i := first / 8 + 1) (by omega) hsource]
    congr 1
    omega

/-- Settles O43: inside the mask both bytes hold the source bits of the range, and outside it both sides are 0. -/
theorem shiftAlignmentEqualsBitCopy : Obligations.ShiftAlignmentEqualsBitCopy := by
  intro s q _
  refine BitVec.eq_of_getLsbD_eq fun j hj => ?_
  rw [BitVec.getLsbD_and, BitVec.getLsbD_and, rangeMask_bit _ _ _ hj]
  cases hin : inBitRange (s.use .pos) (s.use .len) (8 * q + j) with
  | false => rw [Bool.and_false, Bool.and_false]
  | true => rw [shiftByte_bit hj hin, copyByte_bit hj, hin, Bool.true_and]

end Sys2Proof.Machine
end

section
/-! The addresses that a copy needs and that are not admitted, and the lowest of them (44_range_copy R160, R164). -/

namespace Sys2Proof.Machine

variable {s : State} {ok : Nat → Bool} {as : List Nat} {bad bad' : Option Int} {S T : Set Int} {first last : Nat}

/-! ### The least of a set of addresses -/

/-- `bad` is the least address of `S`, and is absent where there is none. -/
def Reports : Option Int → Set Int → Prop
  | none, S => S = ∅
  | some a, S => IsLeast S a

theorem Reports.lower (h : Reports bad S) (h' : Reports bad' T) : Reports (lower bad bad') (S ∪ T) := by
  match bad, bad' with
  | none, none => exact Set.union_empty_iff.2 ⟨h, h'⟩
  | none, some _ => exact (Set.union_eq_right.2 (h.trans_subset (Set.empty_subset T))).symm ▸ h'
  | some _, none => exact (Set.union_eq_left.2 (h'.trans_subset (Set.empty_subset S))).symm ▸ h
  | some _, some _ => exact h.union h'

theorem Reports.eq_none (h : Reports bad S) (hempty : S = ∅) : bad = none := by
  subst hempty
  match bad, h with
  | none, _ => rfl
  | some _, h => exact absurd h.1 (Set.notMem_empty _)

theorem Reports.exists_isLeast (h : Reports bad S) (hne : S ≠ ∅) : ∃ a, bad = some a ∧ IsLeast S a :=
  match bad, h with
  | none, h => absurd h hne
  | some a, h => ⟨a, rfl, h⟩

/-! ### The addresses of a list that fail a test -/

/-- The addresses of a list that fail a test. -/
def failing (ok : Nat → Bool) (as : List Nat) : Set Int := {x | x.toNat ∈ as ∧ 0 ≤ x ∧ ok x.toNat = false}

theorem natCast_mem_failing {a : Nat} : (a : Int) ∈ failing ok as ↔ a ∈ as ∧ ok a = false := by
  simp [failing]

theorem ok_of_notMem_failing {a : Nat} (h : (a : Int) ∉ failing ok as) (ha : a ∈ as) : ok a = true := by
  by_contra hfail
  exact h (natCast_mem_failing.2 ⟨ha, Bool.not_eq_true _ ▸ hfail⟩)

theorem failing_eq_empty_iff : failing ok as = ∅ ↔ ∀ a ∈ as, ok a = true := by
  constructor
  · intro hempty a
    exact ok_of_notMem_failing (hempty ▸ Set.notMem_empty _)
  · intro hgood
    refine Set.eq_empty_of_forall_notMem fun x ⟨hx, _, hfail⟩ => ?_
    exact Bool.eq_false_iff.1 hfail (hgood _ hx)

theorem failing_singleton (ok : Nat → Bool) (a : Nat) : failing ok [a] = {x | x = (a : Int) ∧ ok x.toNat = false} := by
  ext x
  simp only [failing, List.mem_singleton, Set.mem_ofPred_eq, ← and_assoc]
  exact and_congr_left' (by omega)

/-- A destination byte must be writable, and readable too where it is partial. -/
theorem failing_canMerge (s : State) (b p n : Nat) : failing (s.canMerge b p n) (spanAddrs b p n) =
    failing s.canRead (partialAddrs b p n) ∪ failing s.canWrite (spanAddrs b p n) := by
  ext x
  by_cases hx : x.toNat ∈ spanAddrs b p n
  · have hmerge := (canMerge_iff (s := s) hx).not
    simp only [failing, Set.mem_union, Set.mem_ofPred_eq, ← Bool.not_eq_true, hmerge]
    tauto
  · simp [failing, hx, mem_partialAddrs]

/-- In a rising list the first address that fails is the least. -/
theorem reports_firstBad (hrising : as.Pairwise (· < ·)) : Reports (firstBad ok as) (failing ok as) := by
  cases hbad : firstBad ok as with
  | none => exact failing_eq_empty_iff.2 (firstBad_none.1 hbad)
  | some e =>
    obtain ⟨a, hfind, rfl⟩ := Option.map_eq_some_iff.1 hbad
    obtain ⟨hfail, before, after, rfl, hgood⟩ := List.find?_eq_some_iff_append.1 hfind
    obtain ⟨-, hafter, -⟩ := List.pairwise_append.1 hrising
    refine ⟨natCast_mem_failing.2 ⟨List.mem_append_cons_self, by simpa using hfail⟩, fun x ⟨hx, hx0, hxfail⟩ => ?_⟩
    obtain hx | hx := List.mem_append.1 hx
    · simpa [hxfail] using hgood _ hx
    · have hle : a ≤ x.toNat := (List.mem_cons.1 hx).elim Eq.ge fun hx => (List.rel_of_pairwise_cons hafter hx).le
      exact (Int.le_toNat hx0).1 hle

theorem spanAddrs_rising (b p n : Nat) : (spanAddrs b p n).Pairwise (· < ·) := by
  obtain rfl | hn := Nat.eq_zero_or_pos n
  · exact .nil
  · rw [spanAddrs_eq_accessAddrs hn]
    exact List.pairwise_lt_range'

/-! ### The slack bytes (R164) -/

/-- The slack bytes of a source span from `first` to `last` that do not exist or are not readable. -/
def missingSlack (s : State) (first last : Nat) : Set Int :=
  {x | s.params.copySlack = true ∧ x = first - 1 ∧ (x = -1 ∨ s.canRead x.toNat = false) ∨
    s.params.copySlack = true ∧ x = (last + 1 : Nat) ∧ s.canRead x.toNat = false}

theorem canRead_of_notMem_missingSlack {a : Nat} (h : (a : Int) ∉ missingSlack s first last)
    (hslack : s.params.copySlack = true) (ha : a + 1 = first ∨ a = last + 1) : s.canRead a = true := by
  by_contra hread
  rw [Bool.not_eq_true] at hread
  obtain rfl | rfl := ha
  · exact h (.inl ⟨hslack, by omega, .inr hread⟩)
  · exact h (.inr ⟨hslack, rfl, hread⟩)

theorem missingSlack_eq_empty_iff : missingSlack s first last = ∅ ↔
    (s.params.copySlack = true → 0 < first ∧ s.canRead (first - 1) = true ∧ s.canRead (last + 1) = true) := by
  constructor
  · intro hempty hslack
    have hout (x : Int) : x ∉ missingSlack s first last := hempty ▸ Set.notMem_empty x
    have hfirst : 0 < first := Nat.pos_of_ne_zero fun hzero => hout (-1) (.inl ⟨hslack, by omega, .inl rfl⟩)
    exact ⟨hfirst, canRead_of_notMem_missingSlack (hout _) hslack (.inl (by omega)),
      canRead_of_notMem_missingSlack (hout _) hslack (.inr rfl)⟩
  · intro hadmitted
    refine Set.eq_empty_of_forall_notMem ?_
    rintro x (⟨hslack, rfl, hbelow⟩ | ⟨hslack, rfl, habove⟩) <;> obtain ⟨hfirst, hread, hread'⟩ := hadmitted hslack
    · rw [show ((first : Int) - 1).toNat = first - 1 by omega, hread] at hbelow
      exact hbelow.elim (by omega) nofun
    · exact Bool.eq_false_iff.1 habove hread'

theorem reports_badBelow (s : State) (first : Nat) : Reports (badBelow first s)
    {x | x = (first : Int) - 1 ∧ (x = -1 ∨ s.canRead x.toNat = false)} := by
  rw [badBelow]
  split
  · next hzero =>
    subst hzero
    exact ⟨⟨rfl, .inl rfl⟩, fun x hx => hx.1.ge⟩
  · next hpos =>
    convert reports_firstBad (ok := s.canRead) (List.pairwise_singleton (· < ·) (first - 1)) using 1
    rw [failing_singleton]
    ext x
    constructor
    · rintro ⟨hx, hread⟩
      exact ⟨by omega, hread.resolve_left (by omega)⟩
    · rintro ⟨hx, hread⟩
      exact ⟨by omega, .inr hread⟩

theorem reports_badSource (s : State) (b p n : Nat) : Reports (badSource b p n s)
    (failing s.canRead (spanAddrs b p n) ∪ missingSlack s (b + p / 8) (b + (p + n - 1) / 8)) := by
  have hspan := reports_firstBad (ok := s.canRead) (spanAddrs_rising b p n)
  rw [badSource]
  split
  · next hslack =>
    have habove := reports_firstBad (ok := s.canRead) (List.pairwise_singleton (· < ·) (b + (p + n - 1) / 8 + 1))
    rw [failing_singleton] at habove
    convert (reports_badBelow s (b + p / 8)).lower (hspan.lower habove) using 1
    ext x
    simp only [missingSlack, hslack, true_and, Set.mem_union, Set.mem_ofPred_eq]
    exact or_left_comm
  · next hslack => simpa [missingSlack, hslack] using hspan

/-! ### The access set of a copy (R160 item 4) -/

/-- The addresses that a copy needs and that are not admitted. -/
def copyFailing (s : State) : Set Int :=
  failing s.canRead (spanAddrs (s.use .src) (s.use .spos) (s.use .len)) ∪
    (failing s.canRead (partialAddrs (s.use .addr) (s.use .pos) (s.use .len)) ∪
      (failing s.canWrite (spanAddrs (s.use .addr) (s.use .pos) (s.use .len)) ∪
        missingSlack s (s.use .src + s.use .spos / 8) (s.use .src + (s.use .spos + s.use .len - 1) / 8)))

/-- The address of the MEM fault of a copy. -/
def badCopy (s : State) : Option Int :=
  lower (badSource (s.use .src) (s.use .spos) (s.use .len) s) (badDest (s.use .addr) (s.use .pos) (s.use .len) s)

theorem reports_badCopy (s : State) : Reports (badCopy s) (copyFailing s) := by
  rw [copyFailing, ← Set.union_assoc (failing s.canRead (partialAddrs ..)), ← failing_canMerge, ← Set.union_assoc,
    Set.union_right_comm]
  exact (reports_badSource ..).lower (reports_firstBad (spanAddrs_rising ..))

theorem neg_one_le_of_mem_copyFailing {x : Int} (hx : x ∈ copyFailing s) : -1 ≤ x := by
  obtain ⟨-, hx, -⟩ | ⟨-, hx, -⟩ | ⟨-, hx, -⟩ | ⟨-, hx, -⟩ | ⟨-, hx, -⟩ := hx <;> omega

end Sys2Proof.Machine
end

section
/-! BCOPY: the state it leaves and where it stops (44_range_copy R160, R161, R165, R169). -/

namespace Sys2Proof.Machine

variable {s : State} {c : Bool}

/-- Both ranges of a copy are representable (R160 items 1 and 2). -/
abbrev CopyFits (s : State) : Prop :=
  RangeFits s (s.use .addr) (s.use .pos) (s.use .len) ∧ RangeFits s (s.use .src) (s.use .spos) (s.use .len)

/-- The spans of a copy share no byte (R160 item 3). -/
abbrev CopyApart (s : State) : Prop :=
  ∀ a ∈ spanAddrs (s.use .addr) (s.use .pos) (s.use .len), a ∉ spanAddrs (s.use .src) (s.use .spos) (s.use .len)

/-- The premises of a copy are the checks of R160. -/
theorem copyReady_iff : CopyReady s ↔ Written s [.addr, .src, .pos, .spos, .len] ∧ 0 < s.use .len ∧ CopyFits s ∧
    CopyApart s ∧ copyFailing s = ∅ := by
  simp only [copyFailing, Set.union_empty_iff, failing_eq_empty_iff, missingSlack_eq_empty_iff]
  tauto

theorem inRange_comm {x y : Nat} {k : Result} : inRange c s x (inRange c s y k) = inRange c s y (inRange c s x k) := by
  by_cases hx : x ≤ s.params.space <;> by_cases hy : y ≤ s.params.space <;> simp [inRange, check, hx, hy]

/-- Two spans that share a byte share the first byte of one of them. -/
theorem spansOverlap_iff {d dp b p n : Nat} (hn : 0 < n) :
    spansOverlap d dp b p n = true ↔ ∃ a ∈ spanAddrs d dp n, a ∈ spanAddrs b p n := by
  simp only [spansOverlap, Bool.and_eq_true, decide_eq_true_eq, mem_spanAddrs]
  constructor
  · rintro ⟨hd, hs⟩
    exact ⟨max (d + dp / 8) (b + p / 8), by omega, by omega⟩
  · rintro ⟨a, hd, hs⟩
    omega

section Operands

variable (hw : Written s [.addr, .src, .pos, .spos, .len]) (hn : 0 < s.use .len)
include hw hn

/-- With its operands written and LEN above 0, BCOPY is the checks of R160, then the merge. -/
theorem exec_bcopy_of_written : exec (.bcopy c) s =
    rangeAccess (s.use .addr) (s.use .pos) (s.use .len) c s
      (rangeAccess (s.use .src) (s.use .spos) (s.use .len) c s
        (check c s (!spansOverlap (s.use .addr) (s.use .pos) (s.use .src) (s.use .spos) (s.use .len)) .overlap
          (.overlap s.cmd) (admitted (badCopy s) s (.next (s.merged (copyByte s)))))) := by
  rw [exec, execBcopy, needs_of_written hw, if_neg hn.ne', copyCells_eq_mergeCells, rangeAccess, rangeAccess,
    inRange_comm (x := s.use .spos + s.use .len)]
  rfl

theorem exec_bcopy_of_not_fits (hfit : ¬ CopyFits s) : exec (.bcopy c) s = rangeStop c s := by
  rw [exec_bcopy_of_written hw hn]
  by_cases hdst : RangeFits s (s.use .addr) (s.use .pos) (s.use .len)
  · rw [rangeAccess_of_fits hdst, rangeAccess_eq_rangeStop fun hsrc => hfit ⟨hdst, hsrc⟩]
  · exact rangeAccess_eq_rangeStop hdst

theorem exec_bcopy_of_overlap (hfit : CopyFits s) (hover : ∃ a ∈ spanAddrs (s.use .addr) (s.use .pos) (s.use .len),
      a ∈ spanAddrs (s.use .src) (s.use .spos) (s.use .len)) :
    exec (.bcopy c) s = if c then .next { s with status := 3 } else .fault (.overlap s.cmd) := by
  rw [exec_bcopy_of_written hw hn, rangeAccess_of_fits hfit.1, rangeAccess_of_fits hfit.2,
    check_of_not (by rw [(spansOverlap_iff hn).2 hover, Bool.not_true])]
  rfl

theorem exec_bcopy_of_apart (hfit : CopyFits s) (hapart : CopyApart s) :
    exec (.bcopy c) s = admitted (badCopy s) s (.next (s.merged (copyByte s))) := by
  have hover : ¬ spansOverlap (s.use .addr) (s.use .pos) (s.use .src) (s.use .spos) (s.use .len) = true := by
    rw [spansOverlap_iff hn]
    rintro ⟨a, hdst, hsrc⟩
    exact hapart a hdst hsrc
  rw [exec_bcopy_of_written hw hn, rangeAccess_of_fits hfit.1, rangeAccess_of_fits hfit.2,
    check_of_ok (by rw [Bool.eq_false_iff.2 hover, Bool.not_false])]

end Operands

/-- Bit `q` of the destination range is bit `q` of the source range. -/
theorem copyByte_bit_range {q : Nat} (hq : q < s.use .len) :
    (copyByte s ((s.use .pos + q) / 8)).getLsbD ((s.use .pos + q) % 8) = s.bitAt (s.use .src) (s.use .spos + q) := by
  rw [copyByte_bit (Nat.mod_lt _ (by decide)), Nat.div_add_mod, inBitRange_iff.2 (by omega), Bool.true_and,
    Nat.add_sub_cancel_left]

/-- Settles O42: past the checks of R160, BCOPY gives `merged`. -/
theorem bcopyCopiesBitByBit : Obligations.BcopyCopiesBitByBit := by
  intro c s hready
  obtain ⟨hw, hn, hfit, hapart, hempty⟩ := copyReady_iff.1 hready
  refine ⟨s.merged (copyByte s), ?_, fun q hq => ?_, fun a j hj => merged_peek_bit_outside hj, merged_writesOnly,
    merged_res, rfl⟩
  · rw [exec_bcopy_of_apart hw hn hfit hapart, (reports_badCopy s).eq_none hempty, admitted_none]
  · rw [merged_bitAt hq, copyByte_bit_range hq]

/-- Settles O44: the operands, then the checks of R160 in their order; the MEM fault records the least address of
`copyFailing`. -/
theorem bcopyStops : Obligations.BcopyStops := by
  intro c s
  refine ⟨fun r before after hregs hw hr => ?_, fun hw hn => ⟨exec_bcopy_of_not_fits hw hn,
    fun hdst hsrc => ⟨exec_bcopy_of_overlap hw hn ⟨hdst, hsrc⟩, fun hapart hready => ?_⟩⟩⟩
  · rw [exec, execBcopy, hregs]
    exact needs_of_first_unwritten hw hr
  · have hne : copyFailing s ≠ ∅ := fun hempty =>
      hready (copyReady_iff.2 ⟨hw, hn, ⟨hdst, hsrc⟩, hapart, hempty⟩)
    obtain ⟨a, hbad, hmem, hleast⟩ := (reports_badCopy s).exists_isLeast hne
    rw [exec_bcopy_of_apart hw hn ⟨hdst, hsrc⟩ hapart, hbad, admitted_some]
    refine ⟨a, rfl, hmem, fun hslack hzero => ?_, fun x hxa => ?_⟩
    · have hbelow : -1 ∈ copyFailing s := .inr (.inr (.inr (.inl ⟨hslack, by omega, .inl rfl⟩)))
      exact le_antisymm (hleast hbelow) (neg_one_le_of_mem_copyFailing hmem)
    · have hx : (x : Int) ∉ copyFailing s := fun hx => hxa.not_ge (hleast hx)
      simp only [copyFailing, Set.mem_union, not_or] at hx
      obtain ⟨hread, hpart, hwrite, hslack⟩ := hx
      exact ⟨canRead_of_notMem_missingSlack hslack, ok_of_notMem_failing hread, ok_of_notMem_failing hpart,
        ok_of_notMem_failing hwrite⟩

end Sys2Proof.Machine
end

section
/-! CTZ and CLZ: the index of the bit they find, and where they stop (45_zero_detect R180 to R185). -/

namespace Sys2Proof.Machine

variable {s : State} {c : Bool} {i : Bool → Instr} {w n : Nat}

/-! ### The input, the low bits of VAL (R180) -/

theorem setWidth_eq_zero_iff {x : Word64} : x.setWidth w = 0 ↔ x.toNat % 2 ^ w = 0 := by
  simp [← BitVec.toNat_inj]

theorem exists_bit_of_ne_zero {x : BitVec w} (h : x ≠ 0) : ∃ j < w, x.getLsbD j = true := by
  by_contra hnone
  push Not at hnone
  exact h (BitVec.eq_of_getLsbD_eq fun j hj => by simpa using hnone j hj)

theorem setWidth_bit {x : Word64} {j : Nat} (hj : j < w) : (x.setWidth w).getLsbD j = x.getLsbD j := by
  rw [BitVec.getLsbD_setWidth, decide_eq_true hj, Bool.true_and]

/-- Some bit of an input that is not 0 is set. -/
theorem exists_val_bit (h : s.val.val.toNat % 2 ^ w ≠ 0) : ∃ j < w, (s.val.val.setWidth w).getLsbD j = true :=
  exists_bit_of_ne_zero (mt setWidth_eq_zero_iff.1 h)

/-! ### The commands -/

theorem exec_ctz (h : (i, w) ∈ [(Instr.ctz32, 32), (Instr.ctz64, 64)]) : exec (i c) s =
    zeroDetect (s.val.val.setWidth w) (lowest w (s.val.val.setWidth w).getLsbD) c s := by
  simp only [List.mem_cons, Prod.mk.injEq, List.not_mem_nil, or_false] at h
  obtain ⟨rfl, rfl⟩ | ⟨rfl, rfl⟩ := h <;> rfl

theorem exec_clz (h : (i, w) ∈ [(Instr.clz32, 32), (Instr.clz64, 64)]) : exec (i c) s =
    zeroDetect (s.val.val.setWidth w) (w - 1 - highest w (s.val.val.setWidth w).getLsbD) c s := by
  simp only [List.mem_cons, Prod.mk.injEq, List.not_mem_nil, or_false] at h
  obtain ⟨rfl, rfl⟩ | ⟨rfl, rfl⟩ := h <;> rfl

theorem zeroDetect_of_ne_zero (hw : Written s [.val]) (h : s.val.val.toNat % 2 ^ w ≠ 0) :
    zeroDetect (s.val.val.setWidth w) n c s = .next ((s.setRes (word64 n)).setStatus statusOk) :=
  zeroDetect_next.2 ⟨hw .val (List.mem_singleton_self _), .inl ⟨mt setWidth_eq_zero_iff.1 h, rfl⟩⟩

theorem zeroDetect_of_zero (hw : Written s [.val]) (h : s.val.val.toNat % 2 ^ w = 0) :
    zeroDetect (s.val.val.setWidth w) n c s = if c then endError .zeroInput s else .fault (.zeroInput s.cmd) := by
  rw [zeroDetect, needs_of_written hw,
    check_of_not (decide_eq_false (not_not.2 (setWidth_eq_zero_iff.2 h)))]

/-- Settles O45: the count is `lowest`, over the low bits of VAL. -/
theorem ctzFindsLowestSetBit : Obligations.CtzFindsLowestSetBit := by
  intro i w hmem c s hw hne
  obtain ⟨hlt, hbit, hbelow⟩ := lowest_spec (exists_val_bit hne)
  refine ⟨_, (exec_ctz hmem).trans (zeroDetect_of_ne_zero hw hne), hlt, ?_, fun j hj => ?_⟩
  · rwa [setWidth_bit hlt] at hbit
  · rw [← setWidth_bit (hj.trans hlt), hbelow j hj]

/-- Settles O46: bit `w - 1 - n` is the bit that `highest` finds. -/
theorem clzCountsLeadingZeros : Obligations.ClzCountsLeadingZeros := by
  intro i w hmem c s hw hne
  obtain ⟨hlt, hbit, habove⟩ := highest_spec (exists_val_bit hne)
  refine ⟨_, (exec_clz hmem).trans (zeroDetect_of_ne_zero hw hne), by omega, ?_⟩
  rw [Nat.sub_sub_self (Nat.le_sub_one_of_lt hlt)]
  refine ⟨by rwa [setWidth_bit hlt] at hbit, fun j hj hjw => ?_⟩
  rw [← setWidth_bit hjw, habove j hj hjw]

/-- Every command of the family is `zeroDetect` of the low bits of VAL. -/
theorem exec_zeroDetect (h : (i, w) ∈ [(Instr.ctz32, 32), (.ctz64, 64), (.clz32, 32), (.clz64, 64)]) :
    ∃ n, exec (i c) s = zeroDetect (s.val.val.setWidth w) n c s := by
  obtain hctz | hclz := List.mem_append (s := [(Instr.ctz32, 32), (.ctz64, 64)]).1 h
  · exact ⟨_, exec_ctz hctz⟩
  · exact ⟨_, exec_clz hclz⟩

/-- Settles O47: VAL is asked for before the input is tested. -/
theorem zeroInputStops : Obligations.ZeroInputStops := by
  intro i w hmem c s
  obtain ⟨n, hexec⟩ := exec_zeroDetect hmem
  rw [hexec]
  exact ⟨fun hu => needs_of_unwritten (r := .val) hu, fun hw => zeroDetect_of_zero (List.forall_mem_singleton.2 hw)⟩

end Sys2Proof.Machine
end

section
/-! The population counts: what the counting function counts, and what POPC32, POPC64 and BCOUNT give (46_popcount R190
to R195). -/

namespace Sys2Proof.Machine

variable {s t : State} {c v : Bool} {i : Bool → Instr} {w : Nat} {x y : Nat → Bool}

/-! ### The counting function (00_scope R13) -/

/-- The counting function is Mathlib's. -/
theorem popcount_eq_count (w : Nat) (x : Nat → Bool) : popcount w x = Nat.count (x · = true) w := by
  simp [popcount, Nat.count]

theorem popcount_eq_card (w : Nat) (x : Nat → Bool) :
    popcount w x = ((Finset.range w).filter (fun j => x j = true)).card := by
  rw [popcount_eq_count, Nat.count_eq_card_filter_range]

/-- Only the bits below the width count. -/
theorem popcount_congr (h : ∀ j < w, x j = y j) : popcount w x = popcount w y :=
  List.countP_congr fun j hj => by rw [h j (List.mem_range.1 hj)]

theorem popcount_add (m n : Nat) (x : Nat → Bool) :
    popcount (m + n) x = popcount m x + popcount n (fun j => x (m + j)) := by
  simp only [popcount_eq_count, Nat.count_add]

theorem popcount_const (w : Nat) (v : Bool) : popcount w (fun _ => v) = if v then w else 0 := by
  cases v <;> simp [popcount_eq_count]

/-- A bit is counted in `x` or in its complement, and not in both. -/
theorem popcount_add_complement (w : Nat) (x : Nat → Bool) : popcount w x + popcount w (fun j => !x j) = w := by
  simpa [popcount] using (List.length_eq_countP_add_countP x (l := List.range w)).symm

theorem popcount_add_popcount_not (x : BitVec w) : popcount w x.getLsbD + popcount w (~~~x).getLsbD = w := by
  have hnot : popcount w (~~~x).getLsbD = popcount w (fun j => !x.getLsbD j) := popcount_congr fun j hj => by
    rw [BitVec.getLsbD_not, decide_eq_true hj, Bool.true_and]
  rw [hnot, popcount_add_complement]

/-- The bits of a 64-bit value are those of its low half, then those of its high half. -/
theorem popcount_halves (x : BitVec 64) : popcount 64 x.getLsbD =
    popcount 32 (x.extractLsb' 0 32).getLsbD + popcount 32 (x.extractLsb' 32 32).getLsbD := by
  rw [popcount_add 32 32]
  congr 1
  · exact popcount_congr fun j hj => by rw [BitVec.getLsbD_extractLsb', decide_eq_true hj, Bool.true_and, Nat.zero_add]
  · exact popcount_congr fun j hj => by rw [BitVec.getLsbD_extractLsb', decide_eq_true hj, Bool.true_and]

/-- Adjacent ranges: the second begins where the first ends. -/
theorem countBits_add (s : State) (b p n m : Nat) :
    s.countBits b p (n + m) = s.countBits b p n + s.countBits b (p + n) m := by
  simp only [State.countBits, popcount_add, Nat.add_assoc]

/-! ### POPC32 and POPC64 -/

theorem exec_popc (h : (i, w) ∈ [(Instr.popc32, 32), (Instr.popc64, 64)]) : exec (i c) s =
    needs [.val] s (finish (s.setRes (word64 (popcount w (s.val.val.setWidth w).getLsbD)))) := by
  simp only [List.mem_cons, Prod.mk.injEq, List.not_mem_nil, or_false] at h
  obtain ⟨rfl, rfl⟩ | ⟨rfl, rfl⟩ := h <;> rfl

/-- Settles O48: VAL is the only check, and the count is of the low bits of VAL. -/
theorem popcCountsSetBits : Obligations.PopcCountsSetBits := by
  intro i w hmem c s
  rw [exec_popc hmem, popcount_congr fun j hj => setWidth_bit hj, popcount_eq_card]
  refine ⟨fun hu => needs_of_unwritten (r := .val) hu, fun hw => ?_⟩
  rw [needs_of_written hw]
  rfl

/-! ### BCOUNT -/

/-- With its operands written and LEN above 0, BCOUNT is the checks of R193, then the count. -/
theorem exec_bcount_of_written (hw : Written s [.addr, .pos, .len]) (hn : 0 < s.use .len) : exec (.bcount c) s =
    rangeAccess (s.use .addr) (s.use .pos) (s.use .len) c s
      (admitted (firstBad s.canRead (spanAddrs (s.use .addr) (s.use .pos) (s.use .len))) s
        (finish (s.setRes (word64 (s.countBits (s.use .addr) (s.use .pos) (s.use .len)))))) := by
  rw [exec, execBcount, needs_of_written hw, if_neg hn.ne']

theorem exec_bcount_of_readable (hw : Written s [.addr, .pos, .len]) (hn : 0 < s.use .len)
    (hfit : RangeFits s (s.use .addr) (s.use .pos) (s.use .len))
    (hread : AllRead s (spanAddrs (s.use .addr) (s.use .pos) (s.use .len))) : exec (.bcount c) s = .next { s with
      res := ⟨BitVec.ofNat 64 (s.countBits (s.use .addr) (s.use .pos) (s.use .len)), true⟩, status := 0 } := by
  rw [exec_bcount_of_written hw hn, rangeAccess_of_fits hfit, firstBad_none.2 hread, admitted_none]
  rfl

/-- Settles O49: past the checks of R193, the result is `countBits`. -/
theorem bcountCountsRange : Obligations.BcountCountsRange := fun _ _ hw hn hfit hread =>
  ⟨_, exec_bcount_of_readable hw hn hfit hread, popcount_eq_card _ _, popcount_le _ _⟩

/-- Settles O51: the operands, then the checks of R193 in their order. -/
theorem bcountStops : Obligations.BcountStops := by
  intro c s
  refine ⟨fun r before after hregs hw hr => ?_, fun hw hn => ⟨fun hover => ?_, fun hfit a ha hbad hlow => ?_⟩⟩
  · rw [exec, execBcount, hregs]
    exact needs_of_first_unwritten hw hr
  · rw [exec_bcount_of_written hw hn, rangeAccess_eq_rangeStop hover]
  · rw [exec_bcount_of_written hw hn, rangeAccess_of_fits hfit, firstBad_spanAddrs ha hbad hlow, admitted_some]

/-! ### BCOUNT after BFILL -/

@[simp] theorem merged_params (s : State) (f : Nat → Byte) : (s.merged f).params = s.params := pokes_params ..
@[simp] theorem merged_op (s : State) (f : Nat → Byte) (r : OpReg) : (s.merged f).op r = s.op r := by
  rw [State.merged, op_setStatus, op_pokes]
@[simp] theorem merged_use (s : State) (f : Nat → Byte) (r : OpReg) : (s.merged f).use r = s.use r := by
  rw [State.merged, use_setStatus, use_pokes]
@[simp] theorem merged_canRead (s : State) (f : Nat → Byte) (a : Nat) : (s.merged f).canRead a = s.canRead a := by
  rw [State.merged, canRead_setStatus, canRead_pokes]

theorem written_of_exec_bfill (h : exec (.bfill c v) s = .next t) : Written s [.addr, .pos, .len] :=
  (needs_next.1 h).1

/-- A BFILL of at least one bit that ends with STATUS 0 has completed. -/
theorem eq_merged_of_exec_bfill (hn : 0 < s.use .len) (h : exec (.bfill c v) s = .next t) (hok : t.status = 0) :
    RangeFits s (s.use .addr) (s.use .pos) (s.use .len) ∧ t = s.merged fun _ => fillByte v := by
  rw [exec_bfill_of_written (written_of_exec_bfill h) hn] at h
  obtain ⟨hfit, hmerge⟩ | ⟨-, -, rfl⟩ := rangeAccess_next.1 h
  · exact ⟨hfit, (Host.Outcome.next.inj (admitted_next.1 hmerge).2).symm⟩
  · exact absurd hok (show statusErr .range ≠ 0 by decide)

theorem countBits_fill (s : State) (v : Bool) :
    (s.merged fun _ => fillByte v).countBits (s.use .addr) (s.use .pos) (s.use .len) = if v then s.use .len else 0 := by
  rw [State.countBits, ← popcount_const]
  exact popcount_congr fun j hj => by rw [merged_bitAt hj, fillByte_bit (Nat.mod_lt _ (by decide))]

/-- A fill moves neither the operands nor the admission marks, so that BCOUNT passes its checks after it. -/
theorem exec_bcount_fill (hw : Written s [.addr, .pos, .len]) (hn : 0 < s.use .len)
    (hfit : RangeFits s (s.use .addr) (s.use .pos) (s.use .len))
    (hread : AllRead s (spanAddrs (s.use .addr) (s.use .pos) (s.use .len))) (ht : t = s.merged fun _ => fillByte v) :
    exec (.bcount c) t =
      .next { t with res := ⟨BitVec.ofNat 64 (if v then s.use .len else 0), true⟩, status := 0 } := by
  subst ht
  rw [exec_bcount_of_readable, merged_use, merged_use, merged_use, countBits_fill]
  · simpa only [Written, merged_op] using hw
  · simpa only [merged_use] using hn
  · simpa only [RangeFits, Fits, merged_params, merged_use] using hfit
  · simpa only [AllRead, merged_canRead, merged_use] using hread

/-- An empty range just filled holds no bit of either value. -/
theorem exec_bcount_fill_empty (hzero : s.use .len = 0) (h : exec (.bfill c v) s = .next t) : exec (.bcount c) t =
    .next { t with res := ⟨BitVec.ofNat 64 (if v then s.use .len else 0), true⟩, status := 0 } := by
  have hw := written_of_exec_bfill h
  obtain ⟨hfill, -, -⟩ := zeroLengthRangesDoNothing c v s hzero hw
  obtain rfl := Host.Outcome.next.inj (h.symm.trans hfill)
  obtain ⟨-, -, hcount⟩ := zeroLengthRangesDoNothing c v { s with status := 0 } hzero hw
  rw [hcount, hzero, ite_self]
  rfl

/-- Settles O50: the counting function's laws, and BCOUNT run in the state that BFILL left. -/
theorem countLaws : Obligations.CountLaws := by
  refine ⟨popcount_add_popcount_not, popcount_add_popcount_not, popcount_halves, countBits_add,
    fun c v s t hfill hok hread => ?_⟩
  obtain hzero | hn := Nat.eq_zero_or_pos (s.use .len)
  · exact exec_bcount_fill_empty hzero hfill
  · obtain ⟨hfit, ht⟩ := eq_merged_of_exec_bfill hn hfill hok
    exact exec_bcount_fill (written_of_exec_bfill hfill) hn hfit hread ht

end Sys2Proof.Machine
end

section
/-! BIDX32 and BIDX64: the elements they write and where they stop (47_bit_index_iterator R200 to R203). -/

namespace Sys2Proof.Machine

variable {s t : State} {c : Bool} {i : Bool → Instr} {w k : Nat} {as js : List Nat}

/-! ### Lists of elements of one size -/

/-- Element `k` of a list of elements of `n` bytes each. -/
theorem take_drop_flatMap {α β : Type} {f : α → List β} {n : Nat} (hf : ∀ x, (f x).length = n) {xs : List α}
    (hk : k < xs.length) : ((xs.flatMap f).drop (n * k)).take n = f xs[k] := by
  induction xs generalizing k with
  | nil => exact absurd hk (Nat.not_lt_zero k)
  | cons x xs ih =>
    cases k with
    | zero => simp [← hf x]
    | succ k =>
      rw [List.flatMap_cons, Nat.mul_succ, Nat.add_comm, ← hf x, List.drop_length_add_append, hf x]
      exact ih (Nat.lt_of_succ_lt_succ hk)

/-- Some of the bytes just written from an address upwards. -/
theorem bytesAt_pokes_cellsFrom {a off n : Nat} {bs : List Byte} (h : off + n ≤ bs.length) :
    (s.pokes (cellsFrom a bs)).bytesAt (a + off) n = (bs.drop off).take n := by
  refine List.ext_getElem (by simp; omega) fun m hm _ => ?_
  rw [bytesAt_length] at hm
  simp only [State.bytesAt, List.getElem_map, List.getElem_range, List.getElem_take, List.getElem_drop, Nat.add_assoc]
  exact peek_pokes_of_mem s (cellsFrom_nodup ..) (mem_cellsFrom (by omega))

/-! ### The state after a completing BIDX -/

/-- The state after a BIDX that lists the set bits `js`. -/
def State.indexed (s : State) (js : List Nat) : State :=
  ((s.pokes (idxCells js s)).setRes (word64 (idxEnd js s))).setStatus statusOk

theorem two_pow_width (x : Width) : 2 ^ x.bits = 256 ^ x.bytes := by
  cases x <;> rfl

/-- Element `k` is the bias plus the `k`-th set bit (R203). -/
theorem indexed_loadValue (hk : k < js.length) :
    (s.indexed js).loadValue s.params.hostOrder (s.use .addr + idxBytes s * k) (idxBytes s) =
      (idxBias s + js[k]) % 2 ^ s.params.idxElem.bits := by
  have hlen := idxBytes_length js s
  have hin : idxBytes s * k + idxBytes s ≤ idxBytes s * js.length := Nat.mul_le_mul_left (idxBytes s) hk
  have hbytes : (s.indexed js).bytesAt (s.use .addr + idxBytes s * k) (idxBytes s) =
      orderBytes s.params.hostOrder (idxBytes s) ((idxBias s + js[k]) % 2 ^ s.params.idxElem.bits) := by
    refine (bytesAt_pokes_cellsFrom (by rwa [hlen])).trans ?_
    rw [take_drop_flatMap (fun _ => orderBytes_length ..) (by simpa [idxElements] using hk)]
    simp [idxElements]
  rw [State.loadValue, hbytes, orderValue_orderBytes, two_pow_width, ← idxBytes, Nat.mod_mod]

theorem WritesOnly.setRes (h : WritesOnly as s t) (x : Word64) : WritesOnly as s (t.setRes x) := by
  obtain ⟨hframe, hpeek, hctx⟩ := h
  exact ⟨congrArg (State.setRes · x) hframe, hpeek, hctx⟩

theorem indexed_writesOnly : WritesOnly (accessAddrs (s.use .addr) (idxBytes s * js.length)) s (s.indexed js) := by
  rw [← idxCells_addrs js s]
  exact ((writesOnly_pokes ..).setRes _).setStatus _

/-! ### The commands -/

/-- Both commands list the set bits among the low bits of VAL. -/
theorem exec_bidx (h : (i, w) ∈ [(Instr.bidx32, 32), (Instr.bidx64, 64)]) : exec (i c) s =
    bitIndex ((List.range w).filter fun j => s.val.val.getLsbD j) c s := by
  have hbits : (List.range w).filter (fun j => s.val.val.getLsbD j) = setBits w (s.val.val.setWidth w).getLsbD :=
    List.filter_congr fun j hj => (setWidth_bit (List.mem_range.1 hj)).symm
  rw [hbits]
  simp only [List.mem_cons, Prod.mk.injEq, List.not_mem_nil, or_false] at h
  obtain ⟨rfl, rfl⟩ | ⟨rfl, rfl⟩ := h <;> rfl

/-- Settles O52: past the checks of R200, BIDX gives `indexed`. -/
theorem bidxListsSetBits : Obligations.BidxListsSetBits := by
  intro i w hmem c s js hw hjs hfit hwrite
  refine ⟨s.indexed js, ?_, fun k hk => ?_, indexed_writesOnly, rfl, rfl⟩
  · rw [exec_bidx hmem, ← hjs]
    exact bitIndex_next.2 ⟨hw, .inl ⟨hfit, hwrite, rfl⟩⟩
  · rw [loadO_eq_loadValue]
    exact indexed_loadValue hk

/-- Settles O53: the operands, then the checks of R200 in their order. -/
theorem bidxStops : Obligations.BidxStops := by
  intro i w hmem c s cnt hcnt
  rw [exec_bidx hmem, bitIndex]
  refine ⟨fun r before after hregs hw hr => ?_, fun hw => ?_⟩
  · rw [hregs]
    exact needs_of_first_unwritten hw hr
  · subst hcnt
    rw [needs_of_written hw]
    refine ⟨fun hover => inRange_eq_rangeStop (Nat.lt_succ_of_le hover), fun hfit k hk hbad hlow => ?_⟩
    rw [inRange_of_le (limit := idxEnd _ s + 1) hfit, firstBad_accessAddrs (n := idxBytes s * _) hk hlow hbad,
      admitted_some]

end Sys2Proof.Machine
end

section
/-! ITINIT: the context it leaves and where it stops (47_bit_index_iterator R209, R210). -/

namespace Sys2Proof.Machine

variable {s t : State} {c v : Bool} {it : BitVec 4}

/-! ### The context that a scan begins with -/

/-- The context that a completing ITINIT leaves. -/
def begunScan (s : State) (v : Bool) : IterCtx :=
  if s.use .len = 0 then emptyScan s.params (s.use .addr) v else startScan s (s.use .addr) (s.use .len) v

theorem begunScan_of_empty (h : s.use .len = 0) : begunScan s v = emptyScan s.params (s.use .addr) v := if_pos h

theorem begunScan_of_pos (h : 0 < s.use .len) :
    begunScan s v = startScan s (s.use .addr) (s.use .len) v := if_neg h.ne'

/-! ### The command -/

/-- The size and the end of the buffer are in range (R209). -/
abbrev ScanFits (s : State) : Prop :=
  s.use .len < s.params.space / 8 ∧ s.use .addr + s.use .len < s.params.space

/-- With its operands written, ITINIT is the checks of R209, then the first chunk. -/
theorem exec_itinit_of_written (hw : Written s [.addr, .len]) : exec (.itinit c v it) s =
    check c s (decide (s.use .len < s.params.space / 8)) .range (.range s.cmd)
      (inRange c s (s.use .addr + s.use .len + 1)
        (if s.use .len = 0 then finish (s.setCtx it (begunScan s v)) else
          admitted (firstBad s.canRead (accessAddrs (s.use .addr) (firstChunk s.params (s.use .len)))) s
            (finish (s.setCtx it (begunScan s v))))) := by
  rw [exec, execItinit, needs_of_written hw]
  unfold begunScan
  split <;> rfl

theorem exec_itinit_of_fits (hw : Written s [.addr, .len]) (hfit : ScanFits s) : exec (.itinit c v it) s =
    if s.use .len = 0 then finish (s.setCtx it (begunScan s v)) else
      admitted (firstBad s.canRead (accessAddrs (s.use .addr) (firstChunk s.params (s.use .len)))) s
        (finish (s.setCtx it (begunScan s v))) := by
  obtain ⟨hsize, hend⟩ := hfit
  rw [exec_itinit_of_written hw, check_of_ok (decide_eq_true hsize), inRange_of_le hend]

theorem exec_itinit_of_not_fits (hw : Written s [.addr, .len]) (hover : ¬ ScanFits s) :
    exec (.itinit c v it) s = rangeStop c s := by
  rw [exec_itinit_of_written hw]
  by_cases hsize : s.use .len < s.params.space / 8
  · rw [check_of_ok (decide_eq_true hsize)]
    exact inRange_eq_rangeStop (Nat.lt_succ_of_le (not_lt.1 fun hend => hover ⟨hsize, hend⟩))
  · exact check_of_not (decide_eq_false hsize)

theorem exec_itinit_of_ready (h : ScanReady s) :
    exec (.itinit c v it) s = .next ((s.setCtx it (begunScan s v)).setStatus statusOk) := by
  obtain ⟨hw, hsize, hend, hread⟩ := h
  rw [exec_itinit_of_fits hw ⟨hsize, hend⟩]
  split
  · rfl
  · next hlen => rw [firstBad_none.2 (hread (Nat.pos_of_ne_zero hlen))]; rfl

/-- An ITINIT that ends with STATUS 0 has completed. -/
theorem eq_begunScan_of_exec_itinit (h : exec (.itinit c v it) s = .next t) (hok : t.status = 0) :
    ScanFits s ∧ t = (s.setCtx it (begunScan s v)).setStatus statusOk := by
  obtain ⟨hw, -⟩ := needs_next.1 h
  by_cases hfit : ScanFits s
  · rw [exec_itinit_of_fits hw hfit] at h
    split at h
    · exact ⟨hfit, finish_next.1 h⟩
    · exact ⟨hfit, finish_next.1 (admitted_next.1 h).2⟩
  · rw [exec_itinit_of_not_fits hw hfit, rangeStop] at h
    split at h
    · cases h
      exact absurd hok (show statusErr .range ≠ 0 by decide)
    · cases h

/-- Settles O54: ITINIT leaves `begunScan`, for an empty buffer and for one of at least one byte. -/
theorem itinitStartsScan : Obligations.ItinitStartsScan := by
  intro c v it s hready
  refine ⟨begunScan s v, exec_itinit_of_ready hready, ?_⟩
  obtain hempty | hlen := Nat.eq_zero_or_pos (s.use .len)
  · rw [begunScan_of_empty hempty, if_pos hempty, hempty]
    exact ⟨rfl, rfl, rfl, rfl, rfl, rfl, rfl, rfl, rfl⟩
  · obtain ⟨hword, -, -⟩ := firstChunk_spec s.params hlen
    rw [begunScan_of_pos hlen, if_neg hlen.ne']
    exact ⟨rfl, rfl, rfl, rfl, rfl, rfl, rfl, rfl, fun j hj => firstWord_bit s _ _ v hword hj⟩

/-- Settles O55: the operands, then the checks of R209, then the first chunk. -/
theorem itinitStops : Obligations.ItinitStops := by
  intro c v it s
  refine ⟨fun r before after hregs hw hr => ?_,
    fun hw => ⟨fun hover => exec_itinit_of_not_fits hw (by omega), fun hsize hend hlen k hk hbad hlow => ?_⟩⟩
  · rw [exec, execItinit, hregs]
    exact needs_of_first_unwritten hw hr
  · rw [exec_itinit_of_fits hw ⟨hsize, hend⟩, if_neg hlen.ne', firstBad_accessAddrs hk hlow hbad, admitted_some]

end Sys2Proof.Machine
end

section
/-! The lowest set bit of a word, and the least element of a filtered range (47_bit_index_iterator R215). -/

namespace Sys2Proof.Machine

theorem exists_two_pow_mul_odd {n l : Nat} (hbit : n.testBit l = true) (hlow : ∀ j < l, n.testBit j = false) :
    ∃ k, n = 2 ^ l * (2 * k + 1) := by
  have hmod : n % 2 ^ l = 0 := Nat.zero_of_testBit_eq_false fun j => by
    rw [Nat.testBit_mod_two_pow, Bool.and_eq_false_imp, decide_eq_true_iff]
    exact hlow j
  obtain ⟨m, rfl⟩ := Nat.dvd_of_mod_eq_zero hmod
  have hodd : m % 2 = 1 := by simpa [Nat.testBit_two_pow_mul] using hbit
  exact ⟨m / 2, by rw [← hodd, Nat.div_add_mod]⟩

/-- `word & (word - 1)` clears the lowest set bit and keeps the others. -/
theorem and_sub_one_bit {x : Word64} {l : Nat} (hbit : x.getLsbD l = true) (hlow : ∀ j < l, x.getLsbD j = false)
    (j : Nat) : (x &&& (x - 1)).getLsbD j = (x.getLsbD j && decide (j ≠ l)) := by
  obtain ⟨k, hx⟩ := exists_two_pow_mul_odd hbit hlow
  have hpos := Nat.two_pow_pos l
  have hpred : (x - 1).toNat = 2 ^ l * (2 * k) + (2 ^ l - 1) := by
    have hle : 1 ≤ x := by rw [BitVec.le_def, hx]; exact Nat.mul_pos hpos (Nat.succ_pos _)
    rw [BitVec.toNat_sub_of_le hle, hx, Nat.mul_succ]
    exact Nat.add_sub_assoc hpos _
  rw [BitVec.getLsbD_and, BitVec.getLsbD, BitVec.getLsbD, hpred, hx, Nat.testBit_two_pow_mul,
    Nat.testBit_two_pow_mul_add _ (by omega)]
  obtain hj | rfl | hj := Nat.lt_trichotomy j l
  · simp [hj.not_ge]
  · simp
  · obtain ⟨i, rfl⟩ := Nat.exists_eq_add_of_lt hj
    simp [Nat.add_assoc, Nat.testBit_add_one, Nat.mul_add_div]

/-- The least number of a range that passes a test, and the others. -/
theorem filter_range_eq_cons {p : Nat → Bool} {n q : Nat} (hq : q < n) (hp : p q = true)
    (hlow : ∀ j < q, p j = false) :
    (List.range n).filter p = q :: (List.range n).filter (fun j => p j && decide (j ≠ q)) := by
  obtain ⟨m, rfl⟩ := Nat.exists_eq_add_of_lt hq
  have hsplit : List.range (q + m + 1) = List.range' 0 q ++ q :: List.range' (q + 1) m := by
    rw [List.range_eq_range', Nat.add_assoc, ← List.range'_append_1, Nat.zero_add, List.range'_succ]
  have hbelow (r : Nat → Bool) (hr : ∀ j < q, r j = false) : (List.range' 0 q).filter r = [] :=
    List.filter_eq_nil_iff.2 fun j hj => by
      rw [List.mem_range'_1] at hj
      simp [hr j (by omega)]
  have habove : (List.range' (q + 1) m).filter p =
      (List.range' (q + 1) m).filter (fun j => p j && decide (j ≠ q)) :=
    List.filter_congr fun j hj => by
      rw [List.mem_range'_1] at hj
      rw [decide_eq_true (show j ≠ q by omega), Bool.and_true]
  rw [hsplit, List.filter_append, List.filter_append, hbelow p hlow, hbelow _ fun j hj => by rw [hlow j hj]; rfl,
    List.filter_cons_of_pos hp, List.filter_cons_of_neg (by simp), habove]
  rfl

end Sys2Proof.Machine
end

section
/-! What a context has still to return: nothing at the end of its buffer, the same after a word is loaded, and one hit
less after a hit is taken (47_bit_index_iterator R206, R213 to R215). -/

namespace Sys2Proof.Machine

variable {s : State} {x y : IterCtx} {a j q : Nat}

/-! ### Words loaded (R213) -/

/-- Bit `j` of a loaded word, exclusive-ored with the mode's mask, is 1 exactly where position `j` of the word is a
hit. -/
theorem loadedWord_bit (hb : x.bufferOk s.params) (hlo : x.itStart.val.toNat ≤ a) (hj : j < 64) :
    (word64 (s.loadValue .le a s.params.wb) ^^^ x.itXor.val).getLsbD j =
      (decide (j < 8 * s.params.wb) && isHit s x (8 * (a - x.itStart.val.toNat) + j)) := by
  obtain ⟨hxor, -⟩ := hb
  have haddr : x.itStart.val.toNat + (8 * (a - x.itStart.val.toNat) + j) / 8 = a + j / 8 := by omega
  have hhit : isHit s x (8 * (a - x.itStart.val.toNat) + j) = (s.bitAt a j == (x.itXor.val == 0)) := by
    simp only [isHit, State.bitAt, IterCtx.base, haddr, Nat.mul_add_mod]
  rw [hhit, BitVec.getLsbD_xor, loadValue_bit s a hj]
  obtain hx | hx := hxor
  · simp [hx]
  · rw [hx, wordOnes_bit _ hj]
    by_cases hin : j < 8 * s.params.wb <;> simp [hin, wordOnes_beq_zero]

/-- A word without a hit is loaded as 0. -/
theorem loadedWord_eq_zero (hb : x.bufferOk s.params) (hlo : x.itStart.val.toNat ≤ a)
    (hnone : ∀ j < 8 * s.params.wb, isHit s x (8 * (a - x.itStart.val.toNat) + j) = false) :
    word64 (s.loadValue .le a s.params.wb) ^^^ x.itXor.val = 0 := by
  refine BitVec.eq_of_getLsbD_eq fun j hj => ?_
  rw [loadedWord_bit hb hlo hj]
  by_cases hin : j < 8 * s.params.wb
  · rw [hnone j hin, Bool.and_false]
    exact BitVec.getLsbD_zero.symm
  · rw [decide_eq_false hin, Bool.false_and]
    exact BitVec.getLsbD_zero.symm

section Load

variable (hb : x.bufferOk s.params) (hlo : x.itStart.val.toNat ≤ a) (hhi : a + s.params.wb ≤ x.itEnd.val.toNat)
include hb hhi

theorem loadWord_itNext_toNat : (loadWord s a x).itNext.val.toNat = a + s.params.wb := by
  obtain ⟨-, -, hspace, -⟩ := hb
  exact toNat_word64_of_lt_space (hhi.trans_lt hspace)

theorem loadWord_itBase_toNat : (loadWord s a x).itBase.val.toNat = 8 * (a - x.itStart.val.toNat) := by
  obtain ⟨-, -, -, hsize⟩ := hb
  have hlimit := sizeLimit_le s.params
  have hspace := space_le s.params
  simp only [IterCtx.size] at hsize
  exact toNat_word64 (by omega)

include hlo

theorem loadWord_loaded : (loadWord s a x).loaded = a - x.itStart.val.toNat + s.params.wb := by
  rw [IterCtx.loaded, loadWord_itNext_toNat hb hhi, loadWord_itStart, Nat.sub_add_comm hlo]

/-- The hits of a word just loaded, and the positions above it. -/
theorem undrained_loadWord (hq : isHit s x q = true) :
    undrained (loadWord s a x) q = decide (8 * (a - x.itStart.val.toNat) ≤ q) := by
  rw [undrained, loadWord_itBase_toNat hb hhi, loadWord_loaded hb hlo hhi]
  obtain hbelow | habove := Nat.lt_or_ge q (8 * (a - x.itStart.val.toNat))
  · simp [hbelow.not_ge, show ¬ 8 * (a - x.itStart.val.toNat + s.params.wb) ≤ q by omega]
  · obtain ⟨j, rfl⟩ := Nat.exists_eq_add_of_le habove
    have hwb := wb_le s.params
    rw [Nat.add_sub_cancel_left]
    by_cases hin : j < 8 * s.params.wb
    · have hbit : (loadWord s a x).itWord.val.getLsbD j = true := by
        refine (loadedWord_bit hb hlo (by omega)).trans ?_
        rw [decide_eq_true hin, hq, Bool.true_and]
      simp [hbit]
    · simp [show 8 * (a - x.itStart.val.toNat + s.params.wb) ≤ 8 * (a - x.itStart.val.toNat) + j by omega]

end Load

/-! ### A scan that goes on -/

/-- A context from which ITNEXT looks for a hit: legal, POSITIONED, not invalidated, its unread bytes readable. -/
structure Live (s : State) (x : IterCtx) : Prop where
  ok : CtxOk s x
  positioned : x.itState = .positioned
  valid : x.itInv = false
  readable : ∀ k < x.itEnd.val.toNat - x.itNext.val.toNat, s.canRead (x.itNext.val.toNat + k) = true

namespace Live

variable (hx : Live s x)
include hx

theorem parts : x.allWritten ∧ x.bufferOk s.params ∧ x.cursorOk s.params ∧ x.wordOk s := hx.ok.2.1 hx.positioned

theorem written : x.allWritten := by
  obtain ⟨hw, -⟩ := hx.parts
  exact hw

theorem bufferOk : x.bufferOk s.params := by
  obtain ⟨-, hb, -⟩ := hx.parts
  exact hb

theorem cursorOk : x.cursorOk s.params := by
  obtain ⟨-, -, hc, -⟩ := hx.parts
  exact hc

theorem wordOk : x.wordOk s := by
  obtain ⟨-, -, -, hk⟩ := hx.parts
  exact hk

/-- A set bit of IT_WORD stands for a hit of the chunk loaded last. -/
theorem hit_of_bit (hbit : x.itWord.val.getLsbD j = true) :
    isHit s x (x.itBase.val.toNat + j) = true ∧ x.itBase.val.toNat + j < 8 * x.loaded ∧ j < s.params.wordW.bits := by
  obtain ⟨hloaded, hhit⟩ := hx.wordOk j (BitVec.lt_of_getLsbD hbit) hbit
  obtain ⟨-, -, -, hchunk, hbase⟩ := hx.cursorOk
  have hword : x.chunk s.params ≤ s.params.wb := by
    unfold IterCtx.chunk
    split
    · exact (Nat.mod_lt _ (wb_pos _)).le
    · exact le_rfl
  rw [wordW_bits]
  exact ⟨hhit hx.valid, hloaded, by omega⟩

theorem loaded_le_size : x.loaded ≤ x.size := by
  obtain ⟨-, hend, -⟩ := hx.cursorOk
  exact Nat.sub_le_sub_right hend _

/-- A word that is still to load lies in the buffer. -/
theorem loadWord (hfit : x.itNext.val.toNat + s.params.wb ≤ x.itEnd.val.toNat) :
    Live s (loadWord s x.itNext.val.toNat x) := by
  obtain ⟨hxw, -, -, -, hew, hsw⟩ := hx.written
  obtain ⟨hlo, -, hmod, -⟩ := hx.cursorOk
  refine ⟨ctxOk_loadWord hx.positioned hxw hsw hew hx.bufferOk hlo hfit ?_, hx.positioned, hx.valid, fun k hk => ?_⟩
  · rw [Nat.sub_add_eq, ← Nat.mod_eq_sub_mod (by omega), hmod]
  · rw [loadWord_itNext_toNat hx.bufferOk hfit] at hk ⊢
    rw [loadWord_itEnd] at hk
    rw [Nat.add_assoc]
    exact hx.readable _ (by omega)

theorem firstBad_word (hfit : x.itNext.val.toNat + s.params.wb ≤ x.itEnd.val.toNat) :
    firstBad s.canRead (accessAddrs x.itNext.val.toNat s.params.wb) = none :=
  firstBad_none.2 fun a ha => by
    obtain ⟨hlo, hhi⟩ := mem_accessAddrs.1 ha
    obtain ⟨k, rfl⟩ := Nat.exists_eq_add_of_le hlo
    exact hx.readable k (by omega)

theorem takeHit : Live s (takeHit x) :=
  ⟨ctxOk_takeHit hx.positioned hx.ok, hx.positioned, hx.valid, hx.readable⟩

end Live

/-! ### What is still to return -/

/-- With the word drained, the positions not yet loaded are left. -/
theorem undrained_of_drained (hz : x.itWord.val = 0) : undrained x q = decide (8 * x.loaded ≤ q) := by
  simp [undrained, hz]

/-- At the end of the buffer, with the word drained, nothing is left (R214). -/
theorem remaining_eq_nil (hz : x.itWord.val = 0) (hend : x.itEnd.val.toNat ≤ x.itNext.val.toNat) :
    remaining s x = [] := by
  refine List.filter_eq_nil_iff.2 fun q hq => ?_
  have hlast : ¬ 8 * x.loaded ≤ q := by
    simp only [List.mem_range, IterCtx.size] at hq
    simp only [IterCtx.loaded]
    omega
  rw [undrained_of_drained hz, decide_eq_false hlast, Bool.and_false]
  exact Bool.false_ne_true

/-- With the word drained, loading the next one leaves the same hits to return (R213). -/
theorem remaining_loadWord (hx : Live s x) (hz : x.itWord.val = 0)
    (hfit : x.itNext.val.toNat + s.params.wb ≤ x.itEnd.val.toNat) :
    remaining s (loadWord s x.itNext.val.toNat x) = remaining s x := by
  obtain ⟨hlo, -⟩ := hx.cursorOk
  refine List.filter_congr fun q _ => ?_
  change (isHit s x q && _) = _
  cases hq : isHit s x q with
  | false => rfl
  | true => rw [undrained_loadWord hx.bufferOk hlo hfit hq, undrained_of_drained hz, IterCtx.loaded]

/-- The position that the lowest set bit of IT_WORD stands for (R215). -/
def hitNumber (p : Params) (x : IterCtx) : Nat := x.itBase.val.toNat + lowest p.wordW.bits x.itWord.val.getLsbD

theorem hitPosition_eq (p : Params) (x : IterCtx) : hitPosition p x = word64 (hitNumber p x) := by
  rw [hitPosition, hitNumber, word64, word64, BitVec.ofNat_add, BitVec.ofNat_toNat, BitVec.setWidth_eq]

section Hit

variable (hx : Live s x) (hne : x.itWord.val ≠ 0)
include hx hne

/-- A word that is not 0 has a lowest set bit, within its width. -/
theorem Live.lowest_spec : x.itWord.val.getLsbD (lowest s.params.wordW.bits x.itWord.val.getLsbD) = true ∧
    ∀ j < lowest s.params.wordW.bits x.itWord.val.getLsbD, x.itWord.val.getLsbD j = false := by
  obtain ⟨j, -, hj⟩ := exists_bit_of_ne_zero hne
  obtain ⟨-, -, hwidth⟩ := hx.hit_of_bit hj
  obtain ⟨-, hspec⟩ := Machine.lowest_spec ⟨j, hwidth, hj⟩
  exact hspec

/-- The hit in the word has been loaded. -/
theorem Live.isHit_hitNumber :
    isHit s x (hitNumber s.params x) = true ∧ hitNumber s.params x < 8 * x.loaded := by
  obtain ⟨hbit, -⟩ := hx.lowest_spec hne
  obtain ⟨hhit, hloaded, -⟩ := hx.hit_of_bit hbit
  exact ⟨hhit, hloaded⟩

/-- No position below the lowest set bit is left. -/
theorem Live.undrained_of_lt_hitNumber (hq : q < hitNumber s.params x) : undrained x q = false := by
  obtain ⟨-, hbelow⟩ := hx.lowest_spec hne
  obtain ⟨-, hloaded⟩ := hx.isHit_hitNumber hne
  have hlast : ¬ 8 * x.loaded ≤ q := by omega
  rw [hitNumber] at hq
  obtain hlo | hhi := Nat.lt_or_ge q x.itBase.val.toNat
  · simp [undrained, hlast, hlo.not_ge]
  · simp [undrained, hlast, hbelow (q - x.itBase.val.toNat) (by omega)]

/-- Taking a hit drains its position only. -/
theorem Live.undrained_takeHit :
    undrained (Machine.takeHit x) q = (undrained x q && decide (q ≠ hitNumber s.params x)) := by
  obtain ⟨hbit, hbelow⟩ := hx.lowest_spec hne
  have hclear := and_sub_one_bit hbit hbelow
  obtain ⟨-, hloaded⟩ := hx.isHit_hitNumber hne
  change (decide (x.itBase.val.toNat ≤ q) &&
    (x.itWord.val &&& (x.itWord.val - 1)).getLsbD (q - x.itBase.val.toNat) || decide (8 * x.loaded ≤ q)) = _
  rw [undrained, hclear]
  obtain hlast | hlast := Nat.lt_or_ge q (8 * x.loaded)
  · obtain hlo | hhi := Nat.lt_or_ge q x.itBase.val.toNat
    · simp [hlo.not_ge, hlast.not_ge]
    · obtain ⟨j, rfl⟩ := Nat.exists_eq_add_of_le hhi
      simp [hitNumber, hlast.not_ge]
  · simp [hlast, show q ≠ hitNumber s.params x by omega]

/-- With a hit in the word, the lowest one is the least left, and taking it leaves the others (R215). -/
theorem remaining_eq_cons : remaining s x = hitNumber s.params x :: remaining s (takeHit x) := by
  obtain ⟨hbit, -⟩ := hx.lowest_spec hne
  obtain ⟨hhit, hloaded⟩ := hx.isHit_hitNumber hne
  have hsize := hx.loaded_le_size
  have hleft : undrained x (hitNumber s.params x) = true := by simp [hitNumber, undrained, hbit]
  rw [remaining, filter_range_eq_cons (q := hitNumber s.params x)]
  · refine congrArg _ (List.filter_congr fun q _ => ?_)
    rw [hx.undrained_takeHit hne, ← Bool.and_assoc]
    rfl
  · omega
  · rw [hleft, hhit, Bool.and_true]
  · intro q hq
    rw [hx.undrained_of_lt_hitNumber hne hq, Bool.and_false]

end Hit

end Sys2Proof.Machine
end

section
/-! ITNEXT: the search for the next hit, what the command returns, and where it stops (47_bit_index_iterator R207, R211
to R215). -/

namespace Sys2Proof.Machine

variable {s : State} {c : Bool} {it : BitVec 4} {x y : IterCtx}

/-! ### The search (R211) -/

/-- How a search ends over readable words: with a context that has the same hits to return, the first of them in its
word, or with one that has the same hits to return at the end of its buffer. -/
inductive Found (s : State) (x : IterCtx) : Search → Prop where
  | hit {y : IterCtx} (hy : Live s y) (hne : y.itWord.val ≠ 0) (hrem : remaining s y = remaining s x) :
      Found s x (.hit y)
  | dry {y : IterCtx} (hrem : remaining s y = remaining s x) : Found s x (.dry y)

theorem Found.of_remaining_eq {r : Search} (h : Found s y r) (hrem : remaining s y = remaining s x) : Found s x r := by
  cases h with
  | hit hy hne hrest => exact .hit hy hne (hrest.trans hrem)
  | dry hrest => exact .dry (hrest.trans hrem)

/-- The words still to load, one after the other. -/
theorem found_searchWords {m : Nat} (hx : Live s x) (hz : x.itWord.val = 0)
    (hm : m * s.params.wb = x.itEnd.val.toNat - x.itNext.val.toNat) :
    Found s x (searchWords s m x.itNext.val.toNat x) := by
  induction m generalizing x with
  | zero => exact .dry rfl
  | succ m ih =>
    rw [Nat.succ_mul] at hm
    obtain ⟨-, -, hspace, -⟩ := hx.bufferOk
    have hpos := wb_pos s.params
    have hfit : x.itNext.val.toNat + s.params.wb ≤ x.itEnd.val.toNat := by omega
    have hrem := remaining_loadWord hx hz hfit
    have hnext := loadWord_itNext_toNat hx.bufferOk hfit
    rw [searchWords, if_pos (hfit.trans hspace.le), hx.firstBad_word hfit]
    dsimp only
    split
    · next hz' =>
      have hrest := ih (hx.loadWord hfit) hz' (by rw [hnext, loadWord_itEnd]; omega)
      rw [hnext] at hrest
      exact hrest.of_remaining_eq hrem
    · next hne => exact .hit (hx.loadWord hfit) hne hrem

theorem found_search (hx : Live s x) : Found s x (search s x) := by
  obtain ⟨-, -, hmod, -⟩ := hx.cursorOk
  unfold search
  split
  · next hz => exact found_searchWords hx hz (wordsLeft_mul hmod)
  · next hne => exact .hit hx hne rfl

/-! ### The command -/

/-- Past the checks of R212. -/
theorem exec_itnext_of_valid (hu : (s.ctx it).itState ≠ .uninit) (hv : (s.ctx it).itInv = false) :
    exec (.itnext c it) s = nextHit c it s := by
  rw [exec, execItnext, check_of_ok (decide_eq_true hu), hv]
  rfl

/-- Settles O59: past the checks of R212, the state is tested first. -/
theorem exhaustedStaysExhausted : Obligations.ExhaustedStaysExhausted := by
  intro c it s hexh hv
  rw [exec_itnext_of_valid (by rw [hexh]; nofun) hv, nextHit, if_pos hexh]
  rfl

/-- `s` after an ITNEXT that leaves the context `x`, the result `r` and the STATUS `st`. -/
def State.answered (s : State) (it : BitVec 4) (x : IterCtx) (r st : Word64) : State :=
  ((s.setCtx it x).setRes r).setStatus st

variable {r st : Word64}

@[simp] theorem answered_ctx : (s.answered it x r st).ctx it = x := ctx_setCtx_same s it x

theorem answered_frame : s.answered it x r st =
    { s.setCtx it ((s.answered it x r st).ctx it) with
      res := (s.answered it x r st).res, status := (s.answered it x r st).status } := by
  rw [answered_ctx]
  rfl

theorem setCtx_ctx (s : State) (it : BitVec 4) : s.setCtx it (s.ctx it) = s := by
  simp [State.setCtx, State.ctx]

theorem exec_itnext_of_exhausted (hexh : (s.ctx it).itState = .exhausted) (hv : (s.ctx it).itInv = false) :
    exec (.itnext c it) s = .next (s.answered it (s.ctx it) s.params.noneValue statusNone) := by
  rw [exhaustedStaysExhausted c it s hexh hv, State.answered, setCtx_ctx]
  rfl

section Positioned

variable (hp : (s.ctx it).itState = .positioned) (hv : (s.ctx it).itInv = false)
include hp hv

theorem exec_itnext_of_hit (hs : search s (s.ctx it) = .hit x) : exec (.itnext c it) s =
    .next (s.answered it (takeHit x) (word64 (hitNumber s.params x)) statusOk) := by
  rw [exec_itnext_of_valid (by rw [hp]; nofun) hv, nextHit, if_neg (by rw [hp]; nofun), hs, ← hitPosition_eq]
  rfl

theorem exec_itnext_of_dry (hs : search s (s.ctx it) = .dry x) : exec (.itnext c it) s =
    .next (s.answered it x.exhaust s.params.noneValue statusNone) := by
  rw [exec_itnext_of_valid (by rw [hp]; nofun) hv, nextHit, if_neg (by rw [hp]; nofun), hs]
  rfl

theorem exec_itnext_of_blocked {a : Int} (hs : search s (s.ctx it) = .blocked a) :
    exec (.itnext c it) s = .fault (.mem a s.cmd) := by
  rw [exec_itnext_of_valid (by rw [hp]; nofun) hv, nextHit, if_neg (by rw [hp]; nofun), hs]

end Positioned

/-! ### Contexts that ITNEXT leaves -/

theorem nextReady_answered_of_live (hx : Live s x) : NextReady (s.answered it x r st) it := by
  rw [NextReady, answered_ctx]
  exact ⟨ctxOk_congr (s := s) rfl rfl hx.ok, by rw [hx.positioned]; nofun, hx.valid, hx.readable⟩

section Exhausted

variable (hok : CtxOk s x) (hexh : x.itState = .exhausted)
include hok hexh

/-- An EXHAUSTED context has no byte left to load. -/
theorem nextReady_answered_of_exhausted : NextReady (s.answered it x r st) it := by
  obtain ⟨-, -, -, hend, hv⟩ := hok.2.2 hexh
  rw [NextReady, answered_ctx]
  exact ⟨ctxOk_congr (s := s) rfl rfl hok, by rw [hexh]; nofun, hv, fun k hk => by omega⟩

theorem remaining_of_exhausted : remaining s x = [] := by
  obtain ⟨-, -, hz, hend, -⟩ := hok.2.2 hexh
  exact remaining_eq_nil hz hend

end Exhausted

/-- Settles O56: an EXHAUSTED context has no hit left; else the search finds the least one left, or the end. -/
theorem itnextReturnsLeastRemainingHit : Obligations.ItnextReturnsLeastRemainingHit := by
  intro c it s ⟨hok, hu, hv, hread⟩
  by_cases hexh : (s.ctx it).itState = .exhausted
  · have hnil := remaining_of_exhausted hok hexh
    refine ⟨_, exec_itnext_of_exhausted hexh hv, nextReady_answered_of_exhausted hok hexh, answered_frame, ?_⟩
    rw [hnil, answered_ctx]
    exact ⟨rfl, rfl, hexh, hnil⟩
  · have hp := eq_positioned hu hexh
    have hfound := found_search ⟨hok, hp, hv, hread⟩
    generalize hs : search s (s.ctx it) = found at hfound
    cases hfound with
    | @hit y hy hne hrem =>
      refine ⟨_, exec_itnext_of_hit hp hv hs, nextReady_answered_of_live hy.takeHit, answered_frame, ?_⟩
      rw [← hrem, remaining_eq_cons hy hne, answered_ctx]
      exact ⟨rfl, rfl, hy.positioned, rfl⟩
    | @dry y hrem =>
      have hend := ctxOk_of_search_dry hp hv hok hs
      have hnil : remaining s y = [] := remaining_of_exhausted (x := y.exhaust) hend rfl
      refine ⟨_, exec_itnext_of_dry hp hv hs, nextReady_answered_of_exhausted hend rfl, answered_frame, ?_⟩
      rw [← hrem, hnil, answered_ctx]
      exact ⟨rfl, rfl, rfl, hnil⟩

/-! ### Where ITNEXT stops (R212, R213) -/

/-- Words without a hit, counted from IT_NEXT, are loaded as 0. -/
theorem loadedWord_eq_zero_of_not_isHit (hb : x.bufferOk s.params) (hlo : x.itStart.val.toNat ≤ x.itNext.val.toNat)
    {n : Nat} (hnone : ∀ q, 8 * x.loaded ≤ q → q < 8 * (x.loaded + s.params.wb * n) → isHit s x q = false)
    {i : Nat} (hi : i < n) :
    word64 (s.loadValue .le (x.itNext.val.toNat + i * s.params.wb) s.params.wb) ^^^ x.itXor.val = 0 := by
  have hwords : i * s.params.wb + s.params.wb ≤ s.params.wb * n := by
    rw [← Nat.succ_mul, Nat.mul_comm]
    exact Nat.mul_le_mul_left _ hi
  refine loadedWord_eq_zero hb (by omega) fun j hj => hnone _ ?_ ?_ <;> simp only [IterCtx.loaded] <;> omega

/-- Settles O60: the checks of R212; then the search is blocked in the word that holds the byte. -/
theorem itnextStops : Obligations.ItnextStops := by
  intro c it s
  refine ⟨fun hu => ?_, fun hu hv => ?_, fun hok hp hv hz m hm hlow hbad hnone => ?_⟩
  · rw [exec, execItnext, check_of_not (by simp [hu])]
    rfl
  · rw [exec, execItnext, check_of_ok (decide_eq_true hu), if_pos hv]
  · obtain ⟨-, hb, ⟨hlo, hhi, hmod, -⟩, -⟩ := hok.2.1 hp
    obtain ⟨-, -, hspace, -⟩ := id hb
    have hpos := wb_pos s.params
    have hwords := wordsLeft_mul hmod
    have hdiv := Nat.div_add_mod' m s.params.wb
    have hword : m / s.params.wb < wordsLeft s.params (s.ctx it).itNext.val.toNat (s.ctx it).itEnd.val.toNat := by
      rwa [Nat.div_lt_iff_lt_mul hpos, hwords]
    have hin := Nat.mul_le_mul_right s.params.wb hword
    rw [Nat.succ_mul, hwords] at hin
    refine exec_itnext_of_blocked hp hv ?_
    rw [search, if_pos hz, searchWords_blocked hword (Nat.mod_lt m hpos) (by omega) (by rwa [hdiv])
      (by rwa [Nat.add_assoc, hdiv]) fun i => loadedWord_eq_zero_of_not_isHit hb hlo hnone, Nat.add_assoc, hdiv]

end Sys2Proof.Machine
end

section
/-! A whole scan: its results are the hits of the buffer in ascending order, then NONE, and depend on nothing else
(47_bit_index_iterator R216, R217). -/

namespace Sys2Proof.Machine

variable {s t r : State} {c v : Bool} {it : BitVec 4}

/-- `n` results of a scan that has the hits `qs` to return. -/
def scanAnswers (p : Params) (qs : List Nat) (n : Nat) : List Word64 :=
  (qs.map word64).take n ++ List.replicate (n - qs.length) p.noneValue

theorem scanAnswers_nil_succ (p : Params) (n : Nat) :
    scanAnswers p [] (n + 1) = p.noneValue :: scanAnswers p [] n := by
  simp [scanAnswers, List.replicate_succ]

theorem scanAnswers_cons_succ (p : Params) (q : Nat) (qs : List Nat) (n : Nat) :
    scanAnswers p (q :: qs) (n + 1) = word64 q :: scanAnswers p qs n := by
  simp [scanAnswers]

theorem scanAnswers_length_add (p : Params) (qs : List Nat) (n : Nat) :
    scanAnswers p qs (qs.length + n) = qs.map word64 ++ List.replicate n p.noneValue := by
  simp [scanAnswers, List.take_of_length_le]

/-- The results of ITNEXT commands are the hits that the context has to return, then NONE. -/
theorem scanResults_of_ready {n : Nat} (h : NextReady s it) :
    scanResults c it n s = some (scanAnswers s.params (remaining s (s.ctx it)) n) := by
  induction n generalizing s with
  | zero => simp [scanResults, scanAnswers]
  | succ n ih =>
    obtain ⟨t, hexec, hready, hframe, hresult⟩ := itnextReturnsLeastRemainingHit c it s h
    have hparams : t.params = s.params := by rw [hframe]; rfl
    rw [scanResults, hexec]
    dsimp only
    rw [ih hready, hparams]
    cases hrem : remaining s (s.ctx it) with
    | nil =>
      rw [hrem] at hresult
      obtain ⟨hres, -, -, hrest⟩ := hresult
      rw [hres, hrest, scanAnswers_nil_succ]
      rfl
    | cons q qs =>
      rw [hrem] at hresult
      obtain ⟨hres, -, -, hrest⟩ := hresult
      rw [hres, hrest, scanAnswers_cons_succ]
      rfl

/-! ### The scan that ITINIT begins -/

theorem ctxOk_begunScan (hfit : ScanFits s) : CtxOk s (begunScan s v) := by
  obtain ⟨hsize, hend⟩ := hfit
  obtain hempty | hlen := Nat.eq_zero_or_pos (s.use .len)
  · rw [begunScan_of_empty hempty]
    exact ctxOk_emptyScan v (use_lt s .addr)
  · rw [begunScan_of_pos hlen]
    exact ctxOk_startScan v hlen hsize hend

theorem begunScan_itXor : (begunScan s v).itXor.val = modeMask s.params v := by
  unfold begunScan
  split <;> rfl

theorem begunScan_base : (begunScan s v).base = s.use .addr := by
  unfold begunScan
  split <;> exact toNat_word64_of_lt_space (use_lt s .addr)

theorem begunScan_itEnd_toNat (hfit : ScanFits s) : (begunScan s v).itEnd.val.toNat = s.use .addr + s.use .len := by
  rw [← toNat_word64_of_lt_space hfit.2]
  unfold begunScan
  split
  · next hempty => rw [hempty]; rfl
  · rfl

theorem begunScan_size (hfit : ScanFits s) : (begunScan s v).size = s.use .len := by
  have hbase : (begunScan s v).itStart.val.toNat = s.use .addr := begunScan_base
  rw [IterCtx.size, begunScan_itEnd_toNat hfit, hbase, Nat.add_sub_cancel_left]

theorem begunScan_itNext_toNat (hfit : ScanFits s) (hlen : 0 < s.use .len) :
    (begunScan s v).itNext.val.toNat = s.use .addr + firstChunk s.params (s.use .len) := by
  obtain ⟨-, hchunk, -⟩ := firstChunk_spec s.params hlen
  rw [begunScan_of_pos hlen]
  exact toNat_word64_of_lt_space ((Nat.add_le_add_left hchunk _).trans_lt hfit.2)

/-- The bytes that ITINIT has not loaded lie in the buffer. -/
theorem le_begunScan_itNext_toNat (hfit : ScanFits s) : s.use .addr ≤ (begunScan s v).itNext.val.toNat := by
  obtain hempty | hlen := Nat.eq_zero_or_pos (s.use .len)
  · rw [begunScan_of_empty hempty]
    exact (toNat_word64_of_lt_space (use_lt s .addr)).ge
  · rw [begunScan_itNext_toNat hfit hlen]
    exact Nat.le_add_right _ _

theorem begunScan_loaded (hfit : ScanFits s) (hlen : 0 < s.use .len) :
    (begunScan s v).loaded = firstChunk s.params (s.use .len) := by
  have hbase : (begunScan s v).itStart.val.toNat = s.use .addr := begunScan_base
  rw [IterCtx.loaded, begunScan_itNext_toNat hfit hlen, hbase, Nat.add_sub_cancel_left]

/-- No hit is drained: those of the first chunk are in IT_WORD, and the others are not loaded. -/
theorem undrained_begunScan {q : Nat} (hfit : ScanFits s) (hlen : 0 < s.use .len)
    (hq : (s.bitAt (s.use .addr) q == v) = true) : undrained (begunScan s v) q = true := by
  obtain ⟨hword, -, -⟩ := firstChunk_spec s.params hlen
  have hwb := wb_le s.params
  have hloaded := begunScan_loaded (v := v) hfit hlen
  rw [begunScan_of_pos hlen] at hloaded ⊢
  obtain hin | hout := Nat.lt_or_ge q (8 * firstChunk s.params (s.use .len))
  · have hbit : (startScan s (s.use .addr) (s.use .len) v).itWord.val.getLsbD q = true :=
      (firstWord_bit s _ _ v hword (by omega)).trans (by rw [decide_eq_true hin, hq, Bool.true_and])
    have hbase : (startScan s (s.use .addr) (s.use .len) v).itBase.val.toNat = 0 := rfl
    simp [undrained, hbase, hbit]
  · simp [undrained, hloaded, hout]

/-- A scan begins with every hit of the buffer to return (R206). -/
theorem remaining_begunScan (hfit : ScanFits s) :
    remaining s (begunScan s v) = allHits s (s.use .addr) (s.use .len) v := by
  rw [remaining, begunScan_size hfit]
  refine List.filter_congr fun q hq => ?_
  have hlen : 0 < s.use .len := by rw [List.mem_range] at hq; omega
  rw [isHit_of_modeMask begunScan_itXor, begunScan_base]
  cases hhit : s.bitAt (s.use .addr) q == v with
  | false => rfl
  | true => rw [undrained_begunScan hfit hlen hhit, Bool.and_true]

theorem nextReady_begunScan (hfit : ScanFits s) (hread : AllRead s (accessAddrs (s.use .addr) (s.use .len))) :
    NextReady ((s.setCtx it (begunScan s v)).setStatus statusOk) it := by
  rw [NextReady, ctx_setStatus, ctx_setCtx_same]
  refine ⟨ctxOk_congr (s := s) rfl rfl (ctxOk_begunScan hfit), ?_, ?_, fun k hk => ?_⟩
  · unfold begunScan
    split <;> nofun
  · unfold begunScan
    split <;> rfl
  · have hlo := le_begunScan_itNext_toNat (v := v) hfit
    rw [begunScan_itEnd_toNat hfit] at hk
    exact hread _ (mem_accessAddrs.2 (by omega))

/-- The results of the ITNEXT commands after an ITINIT that completes on a buffer readable as a whole. -/
theorem scanResults_of_exec_itinit {d : Bool} {n : Nat} (h : exec (.itinit d v it) s = .next t) (hok : t.status = 0)
    (hread : AllRead s (accessAddrs (s.use .addr) (s.use .len))) :
    scanResults c it n t = some (scanAnswers s.params (allHits s (s.use .addr) (s.use .len) v) n) := by
  obtain ⟨hfit, rfl⟩ := eq_begunScan_of_exec_itinit h hok
  rw [scanResults_of_ready (nextReady_begunScan hfit hread), ctx_setStatus, ctx_setCtx_same, ← remaining_begunScan hfit]
  rfl

/-- Settles O57: all hits of the buffer, then NONE. -/
theorem iteratorTotality : Obligations.IteratorTotality := by
  intro c v it s t n h hok hread
  rw [scanResults_of_exec_itinit h hok hread, scanAnswers_length_add]
  rfl

/-- The hits of two buffers of the same bytes. -/
theorem allHits_congr {a b n : Nat} (h : ∀ k < n, s.peek (a + k) = r.peek (b + k)) :
    allHits s a n v = allHits r b n v :=
  List.filter_congr fun q hq => by
    rw [List.mem_range] at hq
    rw [State.bitAt, State.bitAt, h (q / 8) (by omega)]

/-- Settles O58: the answers are a function of the hits and the position width. -/
theorem scanDependsOnBufferOnly : Obligations.ScanDependsOnBufferOnly := by
  intro c d v it jt s t r u n hs hsok hr hrok hwidth hlen hbytes hsread hrread
  rw [scanResults_of_exec_itinit hs hsok hsread, scanResults_of_exec_itinit hr hrok hrread, allHits_congr hbytes, hlen]
  have hnone : s.params.noneValue = r.params.noneValue := by
    rw [Params.noneValue, Params.space, hwidth]
    rfl
  rw [scanAnswers, scanAnswers, hnone]

end Sys2Proof.Machine
end

section
/-! Checked mode (60_exceptions R234 to R237): a command run in both modes. The modes part at a failed `check` only,
where the fault has the code that STATUS takes. -/

namespace Sys2Proof.Machine

variable {s : State} {k k' : Result} {it : BitVec 4}

/-- What the unchecked and the checked run of a command from `s` answer. -/
inductive ModesAgree (s : State) : Result → Result → Prop where
  /-- Both end in the same state. -/
  | next (t : State) : ModesAgree s (.next t) (.next t)
  /-- The checked run reports the fault in STATUS (R235). -/
  | reported {f : Fault} {e : Word64} (hcode : checkedCode f = some e) :
      ModesAgree s (.fault f) (.next { s with status := e })
  /-- Both stop with a fault that has no code (R237). -/
  | fault {f : Fault} (hcode : checkedCode f = none) : ModesAgree s (.fault f) (.fault f)

/-! ### The checks -/

theorem ModesAgree.needs {rs : List OpReg} (h : ModesAgree s k k') : ModesAgree s (needs rs s k) (needs rs s k') := by
  induction rs with
  | nil => exact h
  | cons r rs ih =>
    unfold Machine.needs
    split
    · exact ih
    · exact .fault rfl

/-- A failed check is where the modes part. -/
theorem ModesAgree.check {ok : Bool} {e : ErrCode} {f : Fault} (hcode : checkedCode f = some (statusErr e))
    (h : ModesAgree s k k') : ModesAgree s (check false s ok e f k) (check true s ok e f k') := by
  cases ok with
  | true => exact h
  | false => exact .reported hcode

theorem ModesAgree.inRange {limit : Nat} (h : ModesAgree s k k') :
    ModesAgree s (inRange false s limit k) (inRange true s limit k') := h.check rfl

theorem ModesAgree.admitted {bad : Option Int} (h : ModesAgree s k k') :
    ModesAgree s (admitted bad s k) (admitted bad s k') := by
  cases bad with
  | none => exact h
  | some a => exact .fault rfl

/-- A choice that both modes make alike. -/
theorem ModesAgree.ite {p : Prop} [Decidable p] {r r' : Result} (hr : ModesAgree s r r') (hk : ModesAgree s k k') :
    ModesAgree s (if p then r else k) (if p then r' else k') := by
  split
  · exact hr
  · exact hk

theorem ModesAgree.scalarAccess {rs : List OpReg} {ok : Nat → Bool} {n : Nat} (h : ModesAgree s k k') :
    ModesAgree s (scalarAccess rs ok n false s k) (scalarAccess rs ok n true s k') :=
  h.admitted.inRange.needs

theorem ModesAgree.bitAccess {ok : Nat → Bool} (h : ModesAgree s k k') :
    ModesAgree s (bitAccess ok false s k) (bitAccess ok true s k') :=
  h.admitted.inRange.needs

theorem ModesAgree.rangeAccess {b p n : Nat} (h : ModesAgree s k k') :
    ModesAgree s (rangeAccess b p n false s k) (rangeAccess b p n true s k') :=
  h.inRange.inRange

/-! ### The commands, family by family -/

theorem modesAgree_finish (t : State) : ModesAgree s (finish t) (finish t) := .next _

theorem loadScalar_modesAgree {n : Nat} : ModesAgree s (loadScalar n false s) (loadScalar n true s) :=
  (modesAgree_finish _).scalarAccess

theorem ldbool_modesAgree : ModesAgree s (execLdbool false s) (execLdbool true s) :=
  ((modesAgree_finish _).check rfl).scalarAccess

theorem storeScalar_modesAgree {n v : Nat} : ModesAgree s (storeScalar n v false s) (storeScalar n v true s) :=
  (modesAgree_finish _).scalarAccess

theorem bmsize_modesAgree : ModesAgree s (execBmsize false s) (execBmsize true s) :=
  (modesAgree_finish _).inRange.needs

theorem bfill_modesAgree {v : Bool} : ModesAgree s (execBfill false v s) (execBfill true v s) :=
  (ModesAgree.ite (modesAgree_finish _) (modesAgree_finish _).admitted.rangeAccess).needs

/-- The overlap check comes after the four range checks (44_range_copy R160). -/
theorem bcopy_modesAgree : ModesAgree s (execBcopy false s) (execBcopy true s) :=
  (ModesAgree.ite (modesAgree_finish _)
    ((modesAgree_finish _).admitted.check rfl).inRange.inRange.inRange.inRange).needs

theorem zeroDetect_modesAgree {w n : Nat} {x : BitVec w} :
    ModesAgree s (zeroDetect x n false s) (zeroDetect x n true s) :=
  ((modesAgree_finish _).check rfl).needs

theorem bcount_modesAgree : ModesAgree s (execBcount false s) (execBcount true s) :=
  (ModesAgree.ite (modesAgree_finish _) (modesAgree_finish _).admitted.rangeAccess).needs

theorem bitIndex_modesAgree {js : List Nat} : ModesAgree s (bitIndex js false s) (bitIndex js true s) :=
  (modesAgree_finish _).admitted.inRange.needs

/-- Both bounds of the buffer are RANGE checks (47_bit_index_iterator R209). -/
theorem itinit_modesAgree {v : Bool} : ModesAgree s (execItinit false v it s) (execItinit true v it s) :=
  ((ModesAgree.ite (modesAgree_finish _) (modesAgree_finish _).admitted).inRange.check rfl).needs

/-- Both modes search alike; the search leaves the address space with a RANGE check, or stops at an unreadable byte. -/
theorem nextHit_modesAgree : ModesAgree s (nextHit false it s) (nextHit true it s) := by
  refine .ite (.next _) ?_
  cases search s (s.ctx it) with
  | hit x | dry x => exact .next _
  | outside => exact (modesAgree_finish s).inRange
  | blocked a => exact .fault rfl

/-- An UNINIT context is reported, an invalidated one faults in both modes (47_bit_index_iterator R212). -/
theorem itnext_modesAgree : ModesAgree s (execItnext false it s) (execItnext true it s) :=
  (ModesAgree.ite (.fault rfl) nextHit_modesAgree).check rfl

/-- The two modes of every command. -/
theorem exec_modesAgree (i : Instr) (s : State) :
    ModesAgree s (exec (i.withChecked false) s) (exec (i.withChecked true) s) := by
  cases i with
  | ld8 | ld16 | ld32 | ld64 | ldf32 | ldf64 => exact loadScalar_modesAgree
  | ldbool => exact ldbool_modesAgree
  | st8 | st16 | st32 | st64 | stf32 | stf64 | stbool => exact storeScalar_modesAgree
  | btst | bset | bclr => exact (modesAgree_finish _).bitAccess
  | bmsize => exact bmsize_modesAgree
  | bfill => exact bfill_modesAgree
  | bcopy => exact bcopy_modesAgree
  | ctz32 | ctz64 | clz32 | clz64 => exact zeroDetect_modesAgree
  | popc32 | popc64 => exact (modesAgree_finish _).needs
  | bcount => exact bcount_modesAgree
  | bidx32 | bidx64 => exact bitIndex_modesAgree
  | itinit => exact itinit_modesAgree
  | itnext => exact itnext_modesAgree

/-- The three cases of R234, R235 and R237, as equations. -/
theorem ModesAgree.cases_eq {r r' : Result} (h : ModesAgree s r r') :
    (∃ t, r = .next t ∧ r' = .next t) ∨
    (∃ f e, r = .fault f ∧ checkedCode f = some e ∧ r' = .next { s with status := e }) ∨
    (∃ f, r = .fault f ∧ checkedCode f = none ∧ r' = .fault f) := by
  cases h with
  | next t => exact .inl ⟨t, rfl, rfl⟩
  | reported hcode => exact .inr (.inl ⟨_, _, rfl, hcode, rfl⟩)
  | fault hcode => exact .inr (.inr ⟨_, rfl, hcode, rfl⟩)

/-- Settles O15: the modes of every command agree, as each of its checks says. -/
theorem checkedCommandReportsFaults : Obligations.CheckedCommandReportsFaults :=
  fun i s => (exec_modesAgree i s).cases_eq

end Sys2Proof.Machine
end

section
/-! The reset input of a running machine (70_reset R260, R261). -/

namespace Sys2Proof.Machine

variable {s : State}

/-- The fields that the reset input keeps (parameters, memory, admission, the host's own) are none of those that R42
lists, so the values of `State.reset` carry over. -/
theorem engineReset_resetEngine : engineReset (resetEngine s) := resetValuesAsListed.1

/-- With every context UNINIT and CMD = 0, ITNEXT stops at its first check (47_bit_index_iterator R212). -/
theorem exec_itnext_of_engineReset (h : engineReset s) (c : Bool) (it : BitVec 4) :
    exec (.itnext c it) s = if c then .next { s with status := 5 } else .fault (.iterUninit it 0) := by
  obtain ⟨-, -, -, hcmd, hctx, -⟩ := h
  rw [(itnextStops c it s).1 (hctx it).1, hcmd]

/-- Settles O9: the step is `resetEngine`, and each of its contexts is UNINIT. -/
theorem resetInputKeepsMemory : Obligations.ResetInputKeepsMemory := by
  intro s rest hf hp
  have hreset : engineReset (resetEngine { s with pending := rest }) := engineReset_resetEngine
  exact ⟨_, step_of_pending hf hp, hreset, rfl, rfl, rfl, fun it =>
    ⟨exec_itnext_of_engineReset hreset false it, exec_itnext_of_engineReset hreset true it⟩⟩

end Sys2Proof.Machine
end
